-- ==== Sys2Proof/Word.lean ====
section
/-! DEFINITION. The word types of the FCB: bytes, 16-bit fields and 32-bit command and register words. -/

namespace Sys2Proof

/-- One byte of a frame or buffer (00_scope.md R12). -/
abbrev Byte := BitVec 8

/-- A 16-bit field: a size, a count or a wire trailer (10_state.md R34 to R39). -/
abbrev Half := BitVec 16

/-- A 32-bit word: a command word, a register or a clock sample (10_state.md R22, R43). -/
abbrev Word := BitVec 32

/-- A 24-bit operand: the ARG field of a command word (30_encoding.md R90). -/
abbrev Arg := BitVec 24

end Sys2Proof
end

