-- ==== Sys2Proof/Config.lean ====
section
/-! DEFINITION. What the spec leaves to the implementation or the environment: the three generations, the OPEN
parameters with their constraints, the moves of the environment, and the free values. -/

namespace Sys2Proof

/-- The wire-format generation GEN holds (00_scope.md R2, 10_state.md R23): 1, 2 or 3, never 0. -/
inductive Gen where
  | g1 | g2 | g3
deriving DecidableEq, Repr

/-- The OPEN parameters of 00_scope.md R9 and R10 (93_implementation_defined.md I1 to I5). -/
structure Params where
  /-- `START[1]`, `START[2]`, `START[3]`: the start marker of each generation. -/
  start1 : Byte
  start2 : Byte
  start3 : Byte
  /-- `MAX[1]`, `MAX[2]`, `MAX[3]`: the largest legal size field of each generation. -/
  max1 : Nat
  max2 : Nat
  max3 : Nat
  /-- `ACK_OK[2]`, `ACK_OK[3]`: the ack code that accepts. -/
  ackOk2 : Byte
  ackOk3 : Byte
  /-- `DEFAULT_TIMEOUT_MS`: the timeout that TIMEOUT = 0 selects. -/
  defaultTimeoutMs : Nat
  /-- `BUF_BYTES`: the size of each buffer. -/
  bufBytes : Nat
deriving DecidableEq, Repr, Inhabited

/-- The constraints of 00_scope.md R9 and R10; the last three are `BUF_BYTES >= FRAME_LEN(g, MAX[g])` with
`FRAME_LEN` written out from 30_encoding.md R104. -/
abbrev Params.Valid (p : Params) : Prop :=
  (p.start1 ≠ p.start2 ∧ p.start1 ≠ p.start3 ∧ p.start2 ≠ p.start3) ∧
  (1 ≤ p.max1 ∧ p.max1 ≤ 255) ∧ (4 ≤ p.max2 ∧ p.max2 ≤ 65535) ∧ (1 ≤ p.max3 ∧ p.max3 ≤ 65535) ∧
  (1 ≤ p.defaultTimeoutMs ∧ p.defaultTimeoutMs ≤ 2 ^ 24 - 1) ∧
  (1 ≤ p.bufBytes ∧ p.bufBytes ≤ 4096) ∧
  (3 + p.max1 ≤ p.bufBytes ∧ 5 + p.max2 ≤ p.bufBytes ∧ 21 + 16 * ((p.max3 + 15) / 16) ≤ p.bufBytes)

/-- One access of the host to the host space (20_memory.md R60, R64): a width in bytes and a 16-bit address. -/
inductive Access where
  | load (width : Nat) (addr : BitVec 16)
  | store (width : Nat) (addr : BitVec 16) (value : Word)
deriving DecidableEq, Repr, Inhabited

/-- The PHY's answer to a `PhyRead(n)` (10_state.md R40): negative, or the bytes read. -/
inductive PhyAnswer where
  | negative
  | bytes (bs : List Byte)
deriving DecidableEq, Repr, Inhabited

/-- One move of the environment (00_scope.md R7; notes/assumptions/2.md). -/
inductive Input where
  /-- The FCB gets to act before the host's next access: a captured command begins, or the poll whose last clock
  sample is taken is processed. -/
  | fcb
  /-- The host makes one access. -/
  | host (a : Access)
  /-- Hardware reset is asserted (70_reset_and_hazards.md R300). -/
  | reset
  /-- The clock answers `Clock()` with a sample (10_state.md R43). -/
  | clock (sample : Word)
  /-- The PHY answers the read in progress (10_state.md R40). -/
  | phy (answer : PhyAnswer)
deriving DecidableEq, Repr, Inhabited

/-- The byte order of the two-byte wire fields (20_memory.md R67). -/
inductive WireOrder where
  | little | big
deriving DecidableEq, Repr

namespace Config

/-- `WIRE_ORDER`, whose value for this hardware is LITTLE (20_memory.md R67, 93_implementation_defined.md I6). -/
def wireOrder : WireOrder := .little

/-- The OPEN parameters before their constraints are imposed; nothing can evaluate it. -/
opaque rawParams : Params

/-- The values of the spec's test configuration TC (95_test_vectors.md section 0): not the device's values. -/
def testParams : Params where
  start1 := 0xA1
  start2 := 0xA2
  start3 := 0xA3
  max1 := 4
  max2 := 8
  max3 := 32
  ackOk2 := 0x5A
  ackOk3 := 0x5A
  defaultTimeoutMs := 100
  bufBytes := 4096

/-- The parameters of this implementation: free among those 00_scope.md R9 and R10 allow
(DESIGN CHOICE, safe: notes/assumptions/1.md). -/
def params : Params :=
  if rawParams.Valid then rawParams else testParams

/-- The environment's n-th move once the listed ones are used up: a draw under no law (10_state.md R40, R43;
60_exceptions.md R290; notes/assumptions/2.md). -/
opaque input : Nat → Input

/-- Free value: what the host reads, in a given epoch, from the buffer byte at a host address when the byte holds
no value or the FCB is busy (20_memory.md R63, R74; notes/assumptions/6.md), and what a receive phase would read of such a
byte in a state no run reaches (notes/assumptions/24.md). -/
opaque freeByte : (epoch : Nat) → (addr : Nat) → Byte

/-- Free value: what the host reads, in a given epoch, from the register at an offset that holds no value or is
read while the FCB is busy (10_state.md R22, 20_memory.md R74; notes/assumptions/6.md), and what the ACK phase would read of
LASTCK without a value in a state no run reaches (notes/assumptions/24.md). -/
opaque freeField : (epoch : Nat) → (offset : Nat) → Word

/-- Free value, a fresh one for every read of ELAPSED or PHASE while the FCB is busy (20_memory.md R65, R74;
notes/assumptions/8.md). -/
opaque freshField : (draw : Nat) → Word

end Config
end Sys2Proof
end

