-- ==== Sys2Proof/Machine/State.lean ====
section
/-! DEFINITION. The state of the FCB: every register of 10_state.md R22, the three buffers, the hidden state of a
receive command, and the model's own bookkeeping; the faults and refusals; and the state after reset. -/

namespace Sys2Proof.Machine

/-- The error codes of 60_exceptions.md R271. -/
inductive ErrCode where
  | ok | phyError | protError | timeoutError
  /-- Reserved for the host's numbering: never written by the FCB (60_exceptions.md R275). -/
  | devError
  | illegal
deriving DecidableEq, Repr

/-- The values of PHASE (10_state.md R41). -/
inductive Phase where
  | idle | seek | body | ack
deriving DecidableEq, Repr

/-- The three byte buffers (20_memory.md R62). -/
inductive Buf where
  | tx | frame | rx
deriving DecidableEq, Repr

/-- Where the FCB stands within one poll (42_transceiver.md R170). Its own work between two port events has no stage
of its own (notes/assumptions/29.md). -/
inductive PollStage where
  /-- About to sample the clock. -/
  | start
  /-- Blocked in `PhyRead`; `t0` is the sample taken before it (10_state.md R42). -/
  | reading (t0 : Word)
  /-- The PHY has answered; about to sample the clock again. -/
  | answered (t0 : Word) (answer : PhyAnswer)
  /-- The clock is sampled again, `t1`; about to process the answer. -/
  | ended (t0 t1 : Word) (answer : PhyAnswer)
deriving DecidableEq, Repr

/-- The hidden state of a running receive command (10_state.md R42). -/
structure Rx where
  /-- A BODY phase follows the SEEK phase: the command is RECV (42_transceiver.md R190). -/
  thenBody : Bool
  /-- `have`: the bytes received so far in the current BODY or ACK phase. -/
  got : Nat
  /-- `target`: the bytes the BODY phase must receive in all; none is UNKNOWN. -/
  target : Option Nat
  /-- `A`: the bytes of the ACK record received so far. -/
  ack : List Byte
  /-- Where the current poll stands; holds `t0` once it is sampled. -/
  stage : PollStage
deriving DecidableEq, Repr

/-- One event of the FCB at its clock or PHY port: one for each primitive it has made (00_scope.md R13). -/
inductive Event where
  /-- `Clock()`, which returned `sample`. -/
  | clock (sample : Word)
  /-- `PhyRead(req)`, which returned `answer`. -/
  | phyRead (req : Nat) (answer : PhyAnswer)
  /-- `PhyFlush()`. -/
  | phyFlush
deriving DecidableEq, Repr

/-- The buffer bytes that hold a value, by host address (20_memory.md R61), addresses strictly rising. A byte that
is not listed holds no value (00_scope.md R12). -/
abbrev Memory := List Host.Cell

/-- The state of the machine. -/
structure State where
  /-- The OPEN parameters; no step changes them (00_scope.md R9, R10). -/
  params : Params
  /-- GEN (10_state.md R23). -/
  gen : Gen
  /-- TIMEOUT (10_state.md R24). -/
  timeout : Arg
  /-- CKEN (10_state.md R25). -/
  cken : Bool
  /-- STATUS.ERR (10_state.md R27). -/
  err : ErrCode
  /-- STATUS.BUSY (10_state.md R28). -/
  busy : Bool
  /-- STATUS.MSGEND (10_state.md R29). -/
  msgend : Bool
  /-- STATUS.NAK (10_state.md R30). -/
  nak : Bool
  /-- CKSUM (10_state.md R32). -/
  cksum : Byte
  /-- LASTCK (10_state.md R33); none is the spec's own "no value". -/
  lastck : Option Byte
  /-- FRLEN (10_state.md R34). -/
  frlen : Half
  /-- RXLEN (10_state.md R35). -/
  rxlen : Half
  /-- RXSIZE (10_state.md R37). -/
  rxsize : Half
  /-- RXCK (10_state.md R38). -/
  rxck : Half
  /-- ACKCODE (10_state.md R39). -/
  ackcode : Byte
  /-- ACKCK (10_state.md R39). -/
  ackck : Half
  /-- ELAPSED (10_state.md R36). -/
  elapsed : Word
  /-- PHASE (10_state.md R41). -/
  phase : Phase
  /-- TXBUF, FRAMEBUF and RXBUF (10_state.md R45). -/
  mem : Memory
  /-- The command word captured by a CMD write and not yet begun (20_memory.md R72). -/
  cmd : Option Word
  /-- The hidden state of a running receive command (10_state.md R42); none is "no value". -/
  rx : Option Rx
  /-- Model: the environment's coming moves, in order (notes/assumptions/2.md). -/
  inputs : List Input
  /-- Model: how many free moves have been drawn (notes/assumptions/2.md). -/
  drawn : Nat
  /-- Model: the index of the free values of host reads (notes/assumptions/6.md). -/
  epoch : Nat
  /-- Model: the index of the fresh free values of host reads (notes/assumptions/8.md). -/
  draws : Nat
  /-- Model: what the last host load returned (notes/assumptions/13.md). -/
  hostData : Word
  /-- Model: the clock and PHY events so far, newest first (notes/assumptions/23.md). -/
  history : List Event
deriving DecidableEq, Repr

/-- The model faults of 60_exceptions.md R285. Each stops the model where the spec says it stops, so each is safe. -/
inductive Fault where
  /-- Raised by CKSUM, ENCODE, DECODE and RXACK exactly where their pseudocode says "fault UNWRITTEN": a buffer byte or
  LASTCK they read holds no value (40_checksum.md R121, 41_codec.md R141 and R150, 44_ack.md R231). Safe: the spec names
  this stop. -/
  | unwritten
  /-- Raised by a host access of a width or alignment 20_memory.md R64 does not allow. Safe: the spec names this
  stop. -/
  | hostAccess
  /-- Raised by a host write to a buffer while STATUS.BUSY = 1 (20_memory.md R74). Safe: the spec names this stop. -/
  | hostRace
  /-- Raised by a PHY answer longer than the request (10_state.md R40). Safe: the spec names this stop. -/
  | phyContract
deriving DecidableEq, Repr

/-- The refusals of the model. No command of the FCB is refused. -/
inductive Refusal where
  /-- An instruction without a meaning, by its mnemonic. Raised by nothing: every command has its meaning. Safe. -/
  | notModelled (mnemonic : String)
deriving DecidableEq, Repr

/-- The outcome of a step of this machine. -/
abbrev Result := Host.Outcome State Fault Refusal

/-- The machine right after hardware reset (70_reset_and_hazards.md R300, R301): every register at the value of the
table there, no buffer byte holding a value, no command running, the parameters free. The model's own fields hold
the values of notes/assumptions/13.md (DESIGN CHOICE). -/
def State.reset : State where
  params := Config.params
  gen := .g1
  timeout := 0
  cken := true
  err := .ok
  busy := false
  msgend := false
  nak := false
  cksum := 0
  lastck := none
  frlen := 0
  rxlen := 0
  rxsize := 0
  rxck := 0
  ackcode := 0
  ackck := 0
  elapsed := 0
  phase := .idle
  mem := []
  cmd := none
  rx := none
  inputs := []
  drawn := 0
  epoch := 0
  draws := 0
  hostData := 0
  history := []

end Sys2Proof.Machine
end

