-- ==== Sys2Proof/Machine/Operands.lean ====
section
/-! DEFINITION. Field widths, frame lengths, byte-order and time helpers that the commands' rules use. -/

namespace Sys2Proof.Machine

/-- `IV_LEN` and `CBLK` (00_scope.md R8). -/
def ivLen : Nat := 16

/-- `ACK_LEN` (00_scope.md R8). -/
def ackLen : Nat := 3

/-- `SIZE_LEN[g]` (00_scope.md R8). -/
def sizeLen : Gen → Nat
  | .g1 => 1
  | .g2 => 2
  | .g3 => 2

/-- `CK_LEN[g]` (00_scope.md R8). -/
def ckLen : Gen → Nat
  | .g1 => 1
  | .g2 => 2
  | .g3 => 2

/-- `ceil16(x)` (00_scope.md R11). -/
def ceil16 (x : Nat) : Nat := 16 * ((x + 15) / 16)

/-- `BODY_LEN(g, s)` (30_encoding.md R104). -/
def bodyLen (g : Gen) (size : Nat) : Nat :=
  match g with
  | .g1 => size
  | .g2 => size
  | .g3 => ivLen + ceil16 size

/-- `FRAME_LEN(g, s)` (30_encoding.md R104). -/
def frameLen (g : Gen) (size : Nat) : Nat := 1 + sizeLen g + bodyLen g size + ckLen g

/-- `START[g]` (00_scope.md R9). -/
def startMarker (p : Params) : Gen → Byte
  | .g1 => p.start1
  | .g2 => p.start2
  | .g3 => p.start3

/-- `MAX[g]` (00_scope.md R9). -/
def maxPayload (p : Params) : Gen → Nat
  | .g1 => p.max1
  | .g2 => p.max2
  | .g3 => p.max3

/-- `ACK_OK[g]` (00_scope.md R9); generation 1 has none (44_ack.md R230). -/
def ackOk (p : Params) : Gen → Option Byte
  | .g1 => none
  | .g2 => some p.ackOk2
  | .g3 => some p.ackOk3

/-- `TMO_EFF`, the effective timeout (10_state.md R24). -/
def tmoEff (s : State) : Nat :=
  if s.timeout = 0 then s.params.defaultTimeoutMs else s.timeout.toNat

/-- `sint32((t1 - t0) mod 2^32)`, the signed time between two clock samples (42_transceiver.md R172). -/
def clockDelta (t0 t1 : Word) : Int := (t1 - t0).toInt

/-- The value of two wire bytes, the first on the wire given first (20_memory.md R67). -/
def wire16 (first second : Byte) : Half :=
  match Config.wireOrder with
  | .little => second ++ first
  | .big => first ++ second

/-- The two wire bytes of a 16-bit field, first on the wire first (20_memory.md R67). -/
def wireBytes (v : Half) : List Byte :=
  match Config.wireOrder with
  | .little => [v.extractLsb' 0 8, v.extractLsb' 8 8]
  | .big => [v.extractLsb' 8 8, v.extractLsb' 0 8]

/-- The size field of a frame as wire bytes (30_encoding.md R100 to R102). -/
def sizeBytes (g : Gen) (size : Half) : List Byte :=
  match g with
  | .g1 => [size.extractLsb' 0 8]
  | .g2 => wireBytes size
  | .g3 => wireBytes size

/-- The checksum trailer as wire bytes: `zext_16(checksum)` for gen-2 and gen-3 (30_encoding.md R100 to R102). -/
def trailerBytes (g : Gen) (ck : Byte) : List Byte :=
  match g with
  | .g1 => [ck]
  | .g2 => wireBytes (ck.setWidth 16)
  | .g3 => wireBytes (ck.setWidth 16)

/-- The value of a field of one byte (gen-1) or two bytes (gen-2, gen-3): the size field and the trailer of a
received frame (30_encoding.md R107). -/
def fieldValue (g : Gen) (bs : List Byte) : Half :=
  match g with
  | .g1 => (bs.getD 0 0).setWidth 16
  | .g2 => wire16 (bs.getD 0 0) (bs.getD 1 0)
  | .g3 => wire16 (bs.getD 0 0) (bs.getD 1 0)

/-- The lowest host address of a buffer's window (20_memory.md R61). -/
def Buf.base : Buf → Nat
  | .tx => 0x1000
  | .frame => 0x2000
  | .rx => 0x3000

/-- The buffer CKSUM reads: `sel` 0 is TXBUF, 1 is RXBUF (30_encoding.md R92). -/
def selectBuf (sel : BitVec 1) : Buf := if sel = 0 then .tx else .rx

end Sys2Proof.Machine
end

