-- ==== Sys2Proof/Machine/Flags.lean ====
section
/-! DEFINITION. The checksum, the predicates the status bits report, and the codes of the status fields. -/

namespace Sys2Proof.Machine

/-- `XOR8(seq)` (40_checksum.md R120). -/
def xor8 (bs : List Byte) : Byte := bs.foldl (fun acc b => acc ^^^ b) 0

/-- A trailer or ACK checksum field matches a checksum: `t == zext_16(c)` (40_checksum.md R122). -/
def trailerMatches (t : Half) (c : Byte) : Bool := decide (t = c.setWidth 16)

/-- The end-of-message predicate: a short frame (43_message.md R210). -/
def endsMessage (p : Params) (g : Gen) (size : Nat) : Bool := decide (size < maxPayload p g)

/-- The reject predicate: the ack code is not `ACK_OK[g]` (44_ack.md R232). -/
def rejects (p : Params) (g : Gen) (code : Byte) : Bool := decide (ackOk p g ≠ some code)

/-- The elapsed counter after an accounting step (42_transceiver.md R172): reset by a non-positive delta, else
advanced by it. -/
def accountElapsed (t0 t1 elapsed : Word) : Word :=
  if clockDelta t0 t1 ≤ 0 then 0 else elapsed + (t1 - t0)

/-- STATUS.ERR[2:0] (60_exceptions.md R271). -/
def ErrCode.code : ErrCode → BitVec 3
  | .ok => 0
  | .phyError => 1
  | .protError => 2
  | .timeoutError => 3
  | .devError => 4
  | .illegal => 5

/-- GEN[1:0] (10_state.md R23). -/
def genCode : Gen → BitVec 2
  | .g1 => 1
  | .g2 => 2
  | .g3 => 3

/-- The generation SETGEN selects, none for an operand out of range (45_config.md R251). -/
def genOfArg (gen : Arg) : Option Gen :=
  if gen = 1 then some .g1
  else if gen = 2 then some .g2
  else if gen = 3 then some .g3
  else none

/-- PHASE[1:0] (10_state.md R41). -/
def Phase.code : Phase → BitVec 2
  | .idle => 0
  | .seek => 1
  | .body => 2
  | .ack => 3

end Sys2Proof.Machine
end

