-- ==== Sys2Proof/Machine/Ops.lean ====
section
/-! DEFINITION. The operations the commands share: buffer bytes, completion (the FCB's whole trap mechanism,
60_exceptions.md R270), the flush on error, and hardware reset. -/

namespace Sys2Proof.Machine

/-! ### Buffer bytes -/

/-- What a byte that nothing has written reads as: it holds no value (00_scope.md R12, 70_reset_and_hazards.md
R301). -/
def Memory.unlisted : Option Byte := none

/-- The byte at a host address, none where it holds no value. -/
def Memory.read : Memory → Nat → Option Byte
  | [], _ => Memory.unlisted
  | (k, v) :: m, a => if k = a then some v else Memory.read m a

/-- Write one byte, keeping the addresses strictly rising. -/
def Memory.write : Memory → Nat → Byte → Memory
  | [], a, b => [(a, b)]
  | (k, v) :: m, a, b =>
    if a < k then (a, b) :: (k, v) :: m
    else if a = k then (a, b) :: m
    else (k, v) :: Memory.write m a b

/-- The canonical form: addresses strictly rising. No entry can equal what an unlisted byte reads as, since that is
"no value". -/
abbrev Memory.wf (m : Memory) : Prop := m.Pairwise (fun c d => c.1 < d.1)

/-- Write consecutive bytes from an address on. -/
def Memory.writeRange : Memory → Nat → List Byte → Memory
  | m, _, [] => m
  | m, a, b :: bs => Memory.writeRange (Memory.write m a b) (a + 1) bs

/-- Read `n` consecutive bytes, none if one of them holds no value. -/
def Memory.readRange (m : Memory) : Nat → Nat → Option (List Byte)
  | _, 0 => some []
  | a, n + 1 =>
    match Memory.read m a, Memory.readRange m (a + 1) n with
    | some b, some bs => some (b :: bs)
    | _, _ => none

/-- Byte `i` of a buffer, none where it holds no value (20_memory.md R62). -/
def State.bufByte (s : State) (b : Buf) (i : Nat) : Option Byte := Memory.read s.mem (b.base + i)

/-- `n` bytes of a buffer from index `i` on, none if one of them holds no value (00_scope.md R12). -/
def State.bufRange (s : State) (b : Buf) (i n : Nat) : Option (List Byte) := Memory.readRange s.mem (b.base + i) n

/-- Bytes of a buffer from index `i` on, where the pseudocode reads them and places no model fault (60_exceptions.md
R278): each its value, and a free value where it holds none, which no run reaches (notes/assumptions/24.md). -/
def State.bytesOrFree (s : State) (b : Buf) (i n : Nat) : List Byte :=
  (List.range n).map (fun k => (s.bufByte b (i + k)).getD (Config.freeByte s.epoch (b.base + (i + k))))

/-- LASTCK where the pseudocode reads it and places no model fault (60_exceptions.md R278): its value, and a free value
where it holds none, which no run reaches (notes/assumptions/24.md). -/
def State.lastckOrFree (s : State) : Byte := s.lastck.getD ((Config.freeField s.epoch 0x18).setWidth 8)

/-- Store bytes in a buffer from index `i` on. -/
def State.putBuf (s : State) (b : Buf) (i : Nat) (bs : List Byte) : State :=
  { s with mem := Memory.writeRange s.mem (b.base + i) bs }

/-! ### Completion -/

/-- Record one event at the clock or PHY port (00_scope.md R13). -/
def State.note (s : State) (e : Event) : State := { s with history := e :: s.history }

/-- `complete(e)` (00_scope.md R14, 60_exceptions.md R270): the error code is written, BUSY cleared, PHASE set to
IDLE, and the command ends: no captured word and no hidden state remain. The next epoch of free host reads begins
(20_memory.md R65). -/
def State.complete (s : State) (e : ErrCode) : State :=
  { s with err := e, busy := false, phase := .idle, cmd := none, rx := none, epoch := s.epoch + 1 }

/-- `fail_rx(e)`: flush the PHY, then complete (42_transceiver.md R171). -/
def State.failRx (s : State) (e : ErrCode) : State := (s.note .phyFlush).complete e

/-- Hardware reset (70_reset_and_hazards.md R300 to R302): every register at its reset value, no buffer byte with a
value, no running command, no completion and no flush. The parameters, the environment's coming moves and the
history are not the FCB's registers and stay. -/
def State.hardReset (s : State) : State :=
  { State.reset with
    params := s.params, inputs := s.inputs, drawn := s.drawn, epoch := s.epoch + 1, draws := s.draws,
    hostData := s.hostData, history := s.history }

end Sys2Proof.Machine
end

