-- ==== Sys2Proof/Machine/Codec.lean ====
section
/-! DEFINITION. The checksum command and the frame codec: CKSUM (40_checksum.md), ENCODE and DECODE
(41_codec.md). -/

namespace Sys2Proof.Machine

/-- CKSUM (40_checksum.md R121); a byte in range that holds no value stops the model, as R121 and 60_exceptions.md R285
say. -/
def execCksum (sel : BitVec 1) (n : Half) (s : State) : Result :=
  if s.params.bufBytes < n.toNat then .next (s.complete .illegal)
  else
    match s.bufRange (selectBuf sel) 0 n.toNat with
    | none => .fault .unwritten
    | some bs => .next ({ s with cksum := xor8 bs }.complete .ok)

/-- `CK` of a frame: the checksum of its size field and body (40_checksum.md R120). -/
def frameChecksum (g : Gen) (size : Half) (body : List Byte) : Byte := xor8 (sizeBytes g size ++ body)

/-- The bytes of a frame: start marker, size field, body, trailer (30_encoding.md R100 to R102). -/
def frameBytes (p : Params) (g : Gen) (size : Half) (body : List Byte) : List Byte :=
  startMarker p g :: (sizeBytes g size ++ body ++ trailerBytes g (frameChecksum g size body))

/-- ENCODE (41_codec.md R141, R142); a body byte that holds no value stops the model, as R141 and 60_exceptions.md R285
say. -/
def execEncode (size : Half) (s : State) : Result :=
  if maxPayload s.params s.gen < size.toNat then .next (s.complete .illegal)
  else
    match s.bufRange .tx 0 (bodyLen s.gen size.toNat) with
    | none => .fault .unwritten
    | some body =>
      .next ({ s.putBuf .frame 0 (frameBytes s.params s.gen size body) with
                 lastck := some (frameChecksum s.gen size body),
                 frlen := BitVec.ofNat 16 (frameLen s.gen size.toNat) }.complete .ok)

/-- The end of DECODE once the trailer value `t` and the bytes the checksum covers are known (41_codec.md R150). -/
def acceptFrame (size t : Half) (covered : List Byte) (s : State) : State :=
  if s.cken && !trailerMatches t (xor8 covered) then s.complete .protError
  else { s with rxck := t, msgend := endsMessage s.params s.gen size.toNat }.complete .ok

/-- The checksum check of DECODE on the bytes of a frame after its start marker (41_codec.md R150): the trailer is
their last `CK_LEN[g]` bytes, the checksum covers the bytes before it. -/
def decodeTrailer (size : Half) (frame : List Byte) (s : State) : State :=
  acceptFrame size (fieldValue s.gen (frame.drop (frame.length - ckLen s.gen)))
    (frame.take (frame.length - ckLen s.gen)) s

/-- The checks of DECODE once the size field is read (41_codec.md R150, R151): size bound, frame length, and then
the trailer. -/
def decodeBody (n size : Half) (s : State) : Result :=
  if maxPayload s.params s.gen < size.toNat then .next (s.complete .protError)
  else if n.toNat < frameLen s.gen size.toNat then .next (s.complete .protError)
  else
    match s.bufRange .rx 1 (frameLen s.gen size.toNat - 1) with
    | none => .fault .unwritten
    | some frame => .next (decodeTrailer size frame s)

/-- DECODE (41_codec.md R150 to R155); a byte it must read that holds no value stops the model, as R150 and
60_exceptions.md R285 say. -/
def execDecode (n : Half) (s : State) : Result :=
  if s.params.bufBytes < n.toNat then .next (s.complete .illegal)
  else if n.toNat < 1 + sizeLen s.gen then .next ({ s with msgend := false }.complete .protError)
  else
    match s.bufRange .rx 1 (sizeLen s.gen) with
    | none => .fault .unwritten
    | some field =>
      decodeBody n (fieldValue s.gen field)
        { s with msgend := false, rxsize := fieldValue s.gen field }

end Sys2Proof.Machine
end

