-- ==== Sys2Proof/Machine/Receive.lean ====
section
/-! DEFINITION. The receive phases and their timeout accounting (42_transceiver.md, 44_ack.md): polls, the SEEK,
BODY and ACK phases, and the commands SEEK, RDBODY, RECV and RXACK. -/

namespace Sys2Proof.Machine

/-! ### The phases' beginnings -/

/-- The SEEK phase begins (42_transceiver.md R180). `thenBody` says that the command is RECV. -/
def State.beginSeek (s : State) (thenBody : Bool) : State :=
  { s with phase := .seek, elapsed := 0, rxlen := 0,
           rx := some { thenBody := thenBody, got := 0, target := none, ack := [], stage := .start } }

/-- The BODY phase begins (42_transceiver.md R183). -/
def State.beginBody (s : State) : State :=
  { s with phase := .body, elapsed := 0, rxlen := 1,
           rx := some { thenBody := false, got := 0, target := none, ack := [], stage := .start } }

/-- The ACK phase begins (44_ack.md R231). -/
def State.beginAck (s : State) : State :=
  { s with nak := false, phase := .ack, elapsed := 0,
           rx := some { thenBody := false, got := 0, target := none, ack := [], stage := .start } }

/-! ### One poll -/

/-- The request of the next `PhyRead` (42_transceiver.md R182, R184; 44_ack.md R231). -/
def State.request (s : State) (r : Rx) : Nat :=
  match s.phase with
  | .idle => 0
  | .seek => 1
  | .body =>
    match r.target with
    | none => sizeLen s.gen - r.got
    | some t => t - r.got
  | .ack => ackLen - r.got

/-- The accounting step (42_transceiver.md R172, R173) after a poll that neither failed nor ended its phase, and the
start of the next poll if the budget is not used up. -/
def State.account (s : State) (r : Rx) (t0 t1 : Word) : State :=
  if tmoEff s ≤ (accountElapsed t0 t1 s.elapsed).toNat then
    { s with elapsed := accountElapsed t0 t1 s.elapsed }.failRx .timeoutError
  else { s with elapsed := accountElapsed t0 t1 s.elapsed, rx := some { r with stage := .start } }

/-- The start marker is stored: RXBUF[0] and RXLEN (42_transceiver.md R180). -/
def State.storeMarker (s : State) (bs : List Byte) : State := { s.putBuf .rx 0 bs with rxlen := 1 }

/-- The bytes of a poll of the SEEK phase (42_transceiver.md R180): the start marker ends the phase, anything else
is discarded and accounted. -/
def State.seekBytes (s : State) (r : Rx) (t0 t1 : Word) (bs : List Byte) : State :=
  if bs = [startMarker s.params s.gen] then
    if r.thenBody then (s.storeMarker bs).beginBody else (s.storeMarker bs).complete .ok
  else s.account r t0 t1

/-- The BODY phase once `have` counts the bytes of this poll and the target is known or not (42_transceiver.md
R183): the frame is complete, or the poll is accounted. -/
def State.bodyGoOn (s : State) (r : Rx) (t0 t1 : Word) : State :=
  if r.target = some r.got then s.complete .ok else s.account r t0 t1

/-- The bytes of a poll are stored after those received so far, and RXLEN counts them (42_transceiver.md R183). -/
def State.storeBody (s : State) (r : Rx) (bs : List Byte) : State :=
  { s.putBuf .rx (1 + r.got) bs with rxlen := BitVec.ofNat 16 (1 + (r.got + bs.length)) }

/-- The size field is complete (42_transceiver.md R183, R186): RXSIZE is written, a size above `MAX[g]` fails the
phase, and otherwise the target is known. -/
def State.bodySize (s : State) (r : Rx) (t0 t1 : Word) (size : Half) : State :=
  if maxPayload s.params s.gen < size.toNat then { s with rxsize := size }.failRx .protError
  else
    { s with rxsize := size }.bodyGoOn
      { r with target := some (sizeLen s.gen + bodyLen s.gen size.toNat + ckLen s.gen) } t0 t1

/-- The bytes of a poll of the BODY phase (42_transceiver.md R183): they are stored, a completed size field is
parsed and checked against `MAX[g]`, and the phase ends or goes on. -/
def State.bodyBytes (s : State) (r : Rx) (t0 t1 : Word) (bs : List Byte) : State :=
  if r.target = none ∧ r.got + bs.length = sizeLen s.gen then
    (s.storeBody r bs).bodySize { r with got := r.got + bs.length } t0 t1
      (fieldValue s.gen ((s.storeBody r bs).bytesOrFree .rx 1 (sizeLen s.gen)))
  else (s.storeBody r bs).bodyGoOn { r with got := r.got + bs.length } t0 t1

/-- The comparison of a complete ACK record with the checksum of the last frame ENCODE built (44_ack.md R231 to
R233): `c` is its checksum field, `code` its ack code. -/
def State.ackCompare (s : State) (c : Half) (code ck : Byte) : State :=
  if trailerMatches c ck then
    { s with ackck := c, ackcode := code, nak := rejects s.params s.gen code }.complete .ok
  else { s with ackck := c }.failRx .protError

/-- The interpretation of a complete ACK record (44_ack.md R231, 30_encoding.md R107). -/
def State.ackRecord (s : State) (record : List Byte) : State :=
  s.ackCompare (wire16 (record.getD 0 0) (record.getD 1 0)) (record.getD 2 0) s.lastckOrFree

/-- The bytes of a poll of the ACK phase (44_ack.md R231): nothing is interpreted before all three have arrived. -/
def State.ackBytes (s : State) (r : Rx) (t0 t1 : Word) (bs : List Byte) : State :=
  if r.got + bs.length = ackLen then s.ackRecord (r.ack ++ bs)
  else s.account { r with got := r.got + bs.length, ack := r.ack ++ bs } t0 t1

/-- The end of a poll, both clock samples and the answer at hand: the FCB's own work, done in one go
(notes/assumptions/29.md), in the order of 42_transceiver.md R176: a negative
answer, then the bytes, then the accounting step. -/
def State.finishPoll (s : State) (r : Rx) (t0 t1 : Word) : PhyAnswer → State
  | .negative => s.failRx .phyError
  | .bytes bs =>
    match s.phase with
    | .idle => s
    | .seek => s.seekBytes r t0 t1 bs
    | .body => s.bodyBytes r t0 t1 bs
    | .ack => s.ackBytes r t0 t1 bs

/-- Whether an answer keeps the PHY's contract for a request (10_state.md R40). -/
def answerFits (req : Nat) : PhyAnswer → Bool
  | .negative => true
  | .bytes bs => decide (bs.length ≤ req)

/-- One move of the environment offered to a running receive command (42_transceiver.md R170): the clock is sampled;
the PHY answers the read that follows the sample; the clock is sampled again; the FCB processes the poll on its turn. Each
primitive that has returned is one event (00_scope.md R13). A move the FCB is not waiting for has no effect on it
(notes/assumptions/16.md). -/
def State.receiveInput (s : State) (r : Rx) (i : Input) : Result :=
  match r.stage, i with
  | .start, .clock t0 => .next { s.note (.clock t0) with rx := some { r with stage := .reading t0 } }
  | .reading t0, .phy answer =>
    if answerFits (s.request r) answer then
      .next { s.note (.phyRead (s.request r) answer) with rx := some { r with stage := .answered t0 answer } }
    else .fault .phyContract
  | .answered t0 answer, .clock t1 =>
    .next { s.note (.clock t1) with rx := some { r with stage := .ended t0 t1 answer } }
  | .ended t0 t1 answer, .fcb => .next (s.finishPoll r t0 t1 answer)
  | _, _ => .next s

/-- Whether a move is the host's or the reset pin's, which the FCB does not consume. -/
def interrupts : Input → Bool
  | .fcb => false
  | .host _ => true
  | .reset => true
  | .clock _ => false
  | .phy _ => false

/-- Run the receive command in progress on the environment's coming moves, until the command ends, or a move of the
host or the reset pin comes first, or no move is listed: then the command stays busy, blocked at its port
(10_state.md R40, 60_exceptions.md R290). There is no other bound on it. -/
def State.runRx : List Input → State → Result
  | [], s => .next { s with inputs := [] }
  | i :: rest, s =>
    match s.rx with
    | none => .next { s with inputs := i :: rest }
    | some r =>
      if interrupts i then .next { s with inputs := i :: rest }
      else
        match s.receiveInput r i with
        | .next s1 => State.runRx rest s1
        | .fault f => .fault f
        | .refused e => .refused e

/-! ### The receive commands -/

/-- SEEK: the SEEK phase alone (42_transceiver.md R180). -/
def execSeek (s : State) : Result := State.runRx s.inputs (s.beginSeek false)

/-- RDBODY: the BODY phase alone (42_transceiver.md R185). -/
def execRdbody (s : State) : Result := State.runRx s.inputs s.beginBody

/-- RECV: the SEEK phase, then the BODY phase (42_transceiver.md R190). -/
def execRecv (s : State) : Result := State.runRx s.inputs (s.beginSeek true)

/-- RXACK: receive and check the ACK record of the last frame ENCODE built (44_ack.md R231, R236); with no value in LASTCK
the model stops, as R231, 10_state.md R33 and 60_exceptions.md R285 say. -/
def execRxack (s : State) : Result :=
  if s.gen = .g1 then .next (s.complete .illegal)
  else
    match s.lastck with
    | none => .fault .unwritten
    | some _ => State.runRx s.inputs s.beginAck

end Sys2Proof.Machine
end

