-- ==== Sys2Proof/Machine/Setup.lean ====
section
/-! DEFINITION. The configuration commands NOP, SETGEN, SETTMO and SETCK (45_config.md). -/

namespace Sys2Proof.Machine

/-- NOP (45_config.md R250). -/
def execNop (s : State) : Result := .next (s.complete .ok)

/-- SETGEN (45_config.md R251). -/
def execSetgen (gen : Arg) (s : State) : Result :=
  match genOfArg gen with
  | none => .next (s.complete .illegal)
  | some g => .next ({ s with gen := g }.complete .ok)

/-- SETTMO (45_config.md R252). -/
def execSettmo (ms : Arg) (s : State) : Result := .next ({ s with timeout := ms }.complete .ok)

/-- SETCK (45_config.md R253). -/
def execSetck (en : Arg) (s : State) : Result :=
  if en = 0 then .next ({ s with cken := false }.complete .ok)
  else if en = 1 then .next ({ s with cken := true }.complete .ok)
  else .next (s.complete .illegal)

end Sys2Proof.Machine
end

