-- ==== Sys2Proof/Syntax.lean ====
section
/-! DEFINITION. The commands of the FCB: one constructor for each row of spec/opcode_table.json, with the operands
30_encoding.md R92 gives it. -/

namespace Sys2Proof

/-- A command of the opcode map (30_encoding.md R91). -/
inductive Instr where
  /-- R250: do nothing and report success. -/
  | nop
  /-- R251: select the wire-format generation; `gen` is all of ARG. -/
  | setgen (gen : Arg)
  /-- R252: set the receive timeout in milliseconds; `ms` is all of ARG. -/
  | settmo (ms : Arg)
  /-- R253: enable or disable checksum validation; `en` is all of ARG. -/
  | setck (en : Arg)
  /-- R121: XOR checksum of the first `n` bytes of TXBUF (`sel` 0) or RXBUF (`sel` 1). -/
  | cksum (sel : BitVec 1) (n : Half)
  /-- R141: build a frame whose size field is `size` (the spec's `s`). -/
  | encode (size : Half)
  /-- R150: validate the frame held in the first `n` bytes of RXBUF. -/
  | decode (n : Half)
  /-- R180: find the start marker. -/
  | seek
  /-- R185: read the rest of a frame. -/
  | rdbody
  /-- R190: receive one whole frame. -/
  | recv
  /-- R231: receive and check the ACK record. -/
  | rxack
deriving DecidableEq, Repr

end Sys2Proof
end

