-- ==== Sys2Proof/Machine/Dispatch.lean ====
section
/-! DEFINITION. The meaning of every command, one arm for each. -/

namespace Sys2Proof.Machine

def exec (i : Instr) (s : State) : Host.Outcome State Fault Refusal :=
  match i with
  | .nop => Sys2Proof.Machine.execNop s
  | .setgen gen => Sys2Proof.Machine.execSetgen gen s
  | .settmo ms => Sys2Proof.Machine.execSettmo ms s
  | .setck en => Sys2Proof.Machine.execSetck en s
  | .cksum sel n => Sys2Proof.Machine.execCksum sel n s
  | .encode size => Sys2Proof.Machine.execEncode size s
  | .decode n => Sys2Proof.Machine.execDecode n s
  | .seek => Sys2Proof.Machine.execSeek s
  | .rdbody => Sys2Proof.Machine.execRdbody s
  | .recv => Sys2Proof.Machine.execRecv s
  | .rxack => Sys2Proof.Machine.execRxack s

end Sys2Proof.Machine
end

