-- ==== Sys2Proof/WellFormed.lean ====
section
/-! DEFINITION. Which commands are legal command words: the operand ranges of 30_encoding.md R91 and R93. The
further value checks of single commands (60_exceptions.md R276) depend on parameters and state, not on the word. -/

namespace Sys2Proof

/-- The operand ranges of R91: SETGEN takes 1, 2 or 3, SETCK takes 0 or 1; no other operand is restricted. -/
def Instr.wellFormed : Instr → Bool
  | .nop => true
  | .setgen gen => decide (1 ≤ gen.toNat ∧ gen.toNat ≤ 3)
  | .settmo _ => true
  | .setck en => decide (en.toNat ≤ 1)
  | .cksum _ _ => true
  | .encode _ => true
  | .decode _ => true
  | .seek => true
  | .rdbody => true
  | .recv => true
  | .rxack => true

end Sys2Proof
end

