-- ==== Sys2Proof/Decode.lean ====
section
/-! DEFINITION. The command decoder, total on all 2^32 words (30_encoding.md R90 to R94), and the encoder. -/

namespace Sys2Proof

/-- Why a command word is illegal (30_encoding.md R93). -/
inductive Illegal where
  /-- OP is not in the opcode map. -/
  | unassignedOpcode (op : Byte)
  /-- A reserved bit of ARG is set. -/
  | reservedBits (arg : Arg)
  /-- The operand is outside its stated range. -/
  | operandRange (arg : Arg)
deriving DecidableEq, Repr

/-- The assigned opcodes (30_encoding.md R91). -/
inductive Op where
  | nop | setgen | settmo | setck | cksum | encode | decode | seek | rdbody | recv | rxack
deriving DecidableEq, Repr

/-- The OP number of each opcode (30_encoding.md R91). -/
def Op.code : Op → Byte
  | .nop => 0x00
  | .setgen => 0x01
  | .settmo => 0x02
  | .setck => 0x03
  | .cksum => 0x10
  | .encode => 0x11
  | .decode => 0x12
  | .seek => 0x20
  | .rdbody => 0x21
  | .recv => 0x22
  | .rxack => 0x23

/-- The opcode an OP field names, none where it is unassigned (30_encoding.md R91, R94). -/
def opOfCode (op : Byte) : Option Op :=
  if op = 0x00 then some .nop
  else if op = 0x01 then some .setgen
  else if op = 0x02 then some .settmo
  else if op = 0x03 then some .setck
  else if op = 0x10 then some .cksum
  else if op = 0x11 then some .encode
  else if op = 0x12 then some .decode
  else if op = 0x20 then some .seek
  else if op = 0x21 then some .rdbody
  else if op = 0x22 then some .recv
  else if op = 0x23 then some .rxack
  else none

/-- Word bits [7:0] (30_encoding.md R90). -/
def opField (w : Word) : Byte := w.extractLsb' 0 8

/-- Word bits [31:8] (30_encoding.md R90). -/
def argField (w : Word) : Arg := w.extractLsb' 8 24

/-- ARG[15:0], the operands `n` and `s` (30_encoding.md R92). -/
def argHalf (arg : Arg) : Half := arg.extractLsb' 0 16

/-- ARG[16], the operand `sel` (30_encoding.md R92). -/
def argSel (arg : Arg) : BitVec 1 := arg.extractLsb' 16 1

/-- A command without operands: ARG must be 0 (30_encoding.md R91). -/
def noOperand (arg : Arg) (i : Instr) : Except Illegal Instr :=
  if arg = 0 then .ok i else .error (.reservedBits arg)

/-- The operands of one opcode (30_encoding.md R91, R92). SETGEN and SETCK take the whole of ARG; their ranges are
the command's own check (45_config.md R251, R253), and R94's verdict on the word is `classify`. -/
def assemble (op : Op) (arg : Arg) : Except Illegal Instr :=
  match op with
  | .nop => noOperand arg .nop
  | .setgen => .ok (.setgen arg)
  | .settmo => .ok (.settmo arg)
  | .setck => .ok (.setck arg)
  | .cksum => if arg.extractLsb' 17 7 = 0 then .ok (.cksum (argSel arg) (argHalf arg)) else .error (.reservedBits arg)
  | .encode => if arg.extractLsb' 16 8 = 0 then .ok (.encode (argHalf arg)) else .error (.reservedBits arg)
  | .decode => if arg.extractLsb' 16 8 = 0 then .ok (.decode (argHalf arg)) else .error (.reservedBits arg)
  | .seek => noOperand arg .seek
  | .rdbody => noOperand arg .rdbody
  | .recv => noOperand arg .recv
  | .rxack => noOperand arg .rxack

/-- The decoder: the command a word stands for, or why it is no command (30_encoding.md R90 to R94). -/
def decode (w : Word) : Except Illegal Instr :=
  match opOfCode (opField w) with
  | none => .error (.unassignedOpcode (opField w))
  | some op => assemble op (argField w)

/-- The verdict of 30_encoding.md R94 on a word: one of the commands of R91 with its operand in range, or illegal
(R93). It differs from `decode` only on SETGEN and SETCK words whose operand is out of range, which `decode` hands
to the command's own check; both ways the word completes with ILLEGAL (DEDUCED: notes/assumptions/15.md). -/
def classify (w : Word) : Except Illegal Instr :=
  match decode w with
  | .error e => .error e
  | .ok i => if i.wellFormed then .ok i else .error (.operandRange (argField w))

/-- The opcode of a command. -/
def Instr.op : Instr → Op
  | .nop => .nop
  | .setgen _ => .setgen
  | .settmo _ => .settmo
  | .setck _ => .setck
  | .cksum _ _ => .cksum
  | .encode _ => .encode
  | .decode _ => .decode
  | .seek => .seek
  | .rdbody => .rdbody
  | .recv => .recv
  | .rxack => .rxack

/-- The ARG field of a command, reserved bits 0 (30_encoding.md R91). -/
def Instr.arg : Instr → Arg
  | .nop => 0
  | .setgen gen => gen
  | .settmo ms => ms
  | .setck en => en
  | .cksum sel n => 0#7 ++ sel ++ n
  | .encode size => 0#8 ++ size
  | .decode n => 0#8 ++ n
  | .seek => 0
  | .rdbody => 0
  | .recv => 0
  | .rxack => 0

/-- The encoder: `(ARG << 8) | OP` (30_encoding.md R92). -/
def encode (i : Instr) : Word := i.arg ++ i.op.code

/-- The instruction the decoder reads from the bits `w`, bit 0 the least significant bit of the one 32-bit command
word; a command word is never longer (30_encoding.md R90). -/
def decodeTableWord (nbits w : Nat) : Option Instr :=
  if nbits ≤ 32 then
    match decode (BitVec.ofNat 32 (w % 2 ^ nbits)) with
    | .ok i => some i
    | .error _ => none
  else none

end Sys2Proof
end

