-- ==== Sys2Proof/Machine/HostPort.lean ====
section
/-! DEFINITION. The host's loads and stores (20_memory.md, 10_state.md R22): the address map, the access rule, what
a load returns and what a store does, idle and while a command runs. -/

namespace Sys2Proof.Machine

/-- What a host address names (20_memory.md R61). -/
inductive Region where
  | register (offset : Nat)
  | buffer (b : Buf) (i : Nat)
  | reserved
deriving DecidableEq, Repr

/-- An offset within a buffer's window: the tail from `BUF_BYTES` on is reserved (20_memory.md R61). -/
def windowOffset (p : Params) (b : Buf) (i : Nat) : Region :=
  if i < p.bufBytes then .buffer b i else .reserved

/-- The address map (20_memory.md R61). -/
def regionOf (p : Params) (a : Nat) : Region :=
  if a < 0x40 then .register a
  else if a < 0x1000 then .reserved
  else if a < 0x2000 then windowOffset p .tx (a - 0x1000)
  else if a < 0x3000 then windowOffset p .frame (a - 0x2000)
  else if a < 0x4000 then windowOffset p .rx (a - 0x3000)
  else .reserved

/-- Whether an address is a byte of a buffer. -/
def isBufferByte (p : Params) (a : Nat) : Bool :=
  match regionOf p a with
  | .register _ => false
  | .buffer _ _ => true
  | .reserved => false

/-- Whether a width and address are allowed (20_memory.md R64): 32 bits in the register window, 8, 16 or 32 bits
elsewhere, always aligned. Reserved ranges outside the register window take the widths of the buffer windows
(DEDUCED: notes/assumptions/9.md). -/
def accessAllowed (width : Nat) (addr : BitVec 16) : Bool :=
  if addr.toNat < 0x40 then decide (width = 4 ∧ addr.toNat % 4 = 0)
  else decide ((width = 1 ∨ width = 2 ∨ width = 4) ∧ addr.toNat % width = 0)

/-- Whether the command the FCB is about to begin clears STATUS.MSGEND when it starts: a DECODE that is not refused
(41_codec.md R150, 20_memory.md R74). -/
def startingDecode (s : State) : Bool :=
  match s.cmd with
  | none => false
  | some w =>
    match decode w with
    | .ok (.decode n) => decide (n.toNat ≤ s.params.bufBytes)
    | _ => false

/-- Whether the command the FCB is about to begin clears STATUS.NAK when it starts: an RXACK that is neither refused
nor faults (44_ack.md R231, 20_memory.md R74). -/
def startingRxack (s : State) : Bool :=
  match s.cmd with
  | none => false
  | some w =>
    match decode w with
    | .ok .rxack => decide (s.gen ≠ .g1) && s.lastck.isSome
    | _ => false

/-- STATUS as a host load sees it (10_state.md R22; while BUSY, 20_memory.md R74). -/
def statusWord (s : State) : Word :=
  let nak := BitVec.ofBool (s.nak && !startingRxack s)
  let msgend := BitVec.ofBool (s.msgend && !startingDecode s)
  ((0 : BitVec 26) ++ nak ++ msgend ++ BitVec.ofBool s.busy ++ s.err.code)

/-- The bits of a register that are not reserved (10_state.md R22). -/
def registerMask (offset : Nat) : Word :=
  if offset = 0x04 then 0x3F
  else if offset = 0x08 then 0x3
  else if offset = 0x0C then 0xFFFFFF
  else if offset = 0x10 then 0x1
  else if offset = 0x14 then 0xFF
  else if offset = 0x18 then 0xFF
  else if offset = 0x1C then 0xFFFF
  else if offset = 0x20 then 0xFFFF
  else if offset = 0x24 then 0xFFFF
  else if offset = 0x28 then 0xFFFF
  else if offset = 0x2C then 0xFF
  else if offset = 0x30 then 0xFFFF
  else if offset = 0x34 then 0xFFFFFFFF
  else if offset = 0x38 then 0x3
  else 0

/-- A register as a host load sees it while no command runs (10_state.md R22). CMD and offset 0x3C read 0; LASTCK
with no value reads any value of its field. -/
def registerWord (s : State) (offset : Nat) : Word :=
  if offset = 0x04 then statusWord s
  else if offset = 0x08 then (genCode s.gen).setWidth 32
  else if offset = 0x0C then s.timeout.setWidth 32
  else if offset = 0x10 then (BitVec.ofBool s.cken).setWidth 32
  else if offset = 0x14 then s.cksum.setWidth 32
  else if offset = 0x18 then
    match s.lastck with
    | some c => c.setWidth 32
    | none => Config.freeField s.epoch offset &&& registerMask offset
  else if offset = 0x1C then s.frlen.setWidth 32
  else if offset = 0x20 then s.rxlen.setWidth 32
  else if offset = 0x24 then s.rxsize.setWidth 32
  else if offset = 0x28 then s.rxck.setWidth 32
  else if offset = 0x2C then s.ackcode.setWidth 32
  else if offset = 0x30 then s.ackck.setWidth 32
  else if offset = 0x34 then s.elapsed
  else if offset = 0x38 then s.phase.code.setWidth 32
  else 0

/-- ELAPSED and PHASE, whose reads while BUSY need not repeat (20_memory.md R65). -/
def changesWhileBusy (offset : Nat) : Bool := decide (offset = 0x34 ∨ offset = 0x38)

/-- A register as a host load sees it while a command runs (20_memory.md R74): STATUS as it stands, every other
register's fields a free value, its reserved bits 0 (notes/assumptions/7.md). -/
def busyRegisterWord (s : State) (offset : Nat) : Word :=
  if offset = 0x04 then statusWord s
  else if changesWhileBusy offset then Config.freshField s.draws &&& registerMask offset
  else Config.freeField s.epoch offset &&& registerMask offset

/-- A host load of a register. -/
def loadRegister (s : State) (offset : Nat) : State :=
  if s.busy then
    { s with hostData := busyRegisterWord s offset,
             draws := if changesWhileBusy offset then s.draws + 1 else s.draws }
  else { s with hostData := registerWord s offset }

/-- One byte outside the register window as a host load sees it (20_memory.md R63, R74). -/
def hostByte (s : State) (a : Nat) : Byte :=
  match regionOf s.params a with
  | .register _ => 0
  | .reserved => 0
  | .buffer b i =>
    match s.busy, s.bufByte b i with
    | false, some v => v
    | _, _ => Config.freeByte s.epoch a

/-- The little-endian value of bytes, lowest address first (20_memory.md R66). -/
def littleEndian (bs : List Byte) : Word := bs.foldr (fun b acc => (acc <<< 8) ||| b.setWidth 32) 0

/-- The bytes of a store, lowest address first (20_memory.md R66). -/
def storeBytes (width : Nat) (v : Word) : List Byte := (List.range width).map (fun i => v.extractLsb' (8 * i) 8)

/-- A host load outside the register window (20_memory.md R66). -/
def loadBytes (s : State) (width a : Nat) : State :=
  { s with hostData := littleEndian ((List.range width).map (fun i => hostByte s (a + i))) }

/-- A CMD write (10_state.md R31): while idle it sets BUSY and starts the command, whose word is captured
(20_memory.md R72); while BUSY it is ignored. -/
def storeCmd (s : State) (w : Word) : State :=
  if s.busy then s else { s with busy := true, cmd := some w }

/-- Write bytes at consecutive host addresses, those at reserved addresses ignored (20_memory.md R63). -/
def storeRange (p : Params) : Memory → Nat → List Byte → Memory
  | m, _, [] => m
  | m, a, b :: bs => storeRange p (if isBufferByte p a then Memory.write m a b else m) (a + 1) bs

/-- Whether an access touches a byte of a buffer. -/
def touchesBuffer (p : Params) (width a : Nat) : Bool := (List.range width).any (fun i => isBufferByte p (a + i))

/-- A host store outside the register window (20_memory.md R61, R63, R74). -/
def storeBuffer (s : State) (width a : Nat) (v : Word) : Result :=
  if s.busy && touchesBuffer s.params width a then .fault .hostRace
  else .next { s with mem := storeRange s.params s.mem a (storeBytes width v) }

/-- One access of the host (20_memory.md R64 to R66, R74; 10_state.md R22, R31). A store to a register other than
CMD is ignored. -/
def hostAccess (s : State) : Access → Result
  | .load width addr =>
    if accessAllowed width addr then
      if addr.toNat < 0x40 then .next (loadRegister s addr.toNat)
      else .next (loadBytes s width addr.toNat)
    else .fault .hostAccess
  | .store width addr v =>
    if accessAllowed width addr then
      if addr.toNat = 0 then .next (storeCmd s v)
      else if addr.toNat < 0x40 then .next s
      else storeBuffer s width addr.toNat v
    else .fault .hostAccess

end Sys2Proof.Machine
end

