-- ==== Sys2Proof/Machine/Run.lean ====
section
/-! DEFINITION. What one move of the environment does: a captured command begins, the host makes an access, reset is
asserted, a port answers, or the FCB gets its turn. -/

namespace Sys2Proof.Machine

/-- A captured command word begins (10_state.md R31): it is decoded and executed, or completes with ILLEGAL at once
(30_encoding.md R93). -/
def startCommand (s : State) (w : Word) : Result :=
  match decode w with
  | .ok i => exec i { s with cmd := none }
  | .error _ => .next (s.complete .illegal)

/-- The FCB's turn, a sample of the clock or an answer of the PHY is offered: the receive command in progress runs on
it and on the moves after it; with none in progress it is not seen (93_implementation_defined.md I24,
notes/assumptions/16.md). -/
def portOffer (s : State) (i : Input) (rest : List Input) : Result :=
  match s.rx with
  | some _ => State.runRx (i :: rest) s
  | none => .next { s with inputs := rest }

/-- The FCB's turn: a captured command begins; otherwise the receive command in progress, if there is one, gets the
turn. -/
def fcbTurn (s : State) (rest : List Input) : Result :=
  match s.cmd with
  | some w => startCommand { s with inputs := rest } w
  | none => portOffer s .fcb rest

/-- One move of the environment, `rest` being the moves after it. -/
def react (s : State) (i : Input) (rest : List Input) : Result :=
  match i with
  | .fcb => fcbTurn s rest
  | .host a => hostAccess { s with inputs := rest } a
  | .reset => .next { s with inputs := rest }.hardReset
  | .clock t => portOffer s (.clock t) rest
  | .phy answer => portOffer s (.phy answer) rest

end Sys2Proof.Machine
end

