-- ==== Sys2Proof/Machine/Step.lean ====
section
/-! DEFINITION. One step of the machine, and how a command word is placed where the next step runs it. -/

namespace Sys2Proof.Machine

/-- One step: the environment's next move. It is the first of the listed ones; when none is listed it is a free
draw (10_state.md R40, R43; notes/assumptions/2.md). -/
def step (s : State) : Host.Outcome State Fault Refusal :=
  match s.inputs with
  | i :: rest => react s i rest
  | [] => react { s with drawn := s.drawn + 1 } (Config.input s.drawn) []

/-- The state right after the host wrote the word `w` to CMD of an idle FCB, the FCB's turn coming next: the very
next step begins this command (10_state.md R31, 20_memory.md R72; notes/assumptions/3.md). -/
def State.withFetchWord (s : State) (nbits w : Nat) : State :=
  { s with busy := true, cmd := some (BitVec.ofNat 32 (w % 2 ^ nbits)), inputs := .fcb :: s.inputs }

end Sys2Proof.Machine
end

