-- ==== Sys2Proof/Machine/Message.lean ====
section
/-! DEFINITION. Message boundaries (43_message.md): how the host cuts a message into frames and puts one together.
These rules have no opcode; the FCB's part is the end-of-message predicate `endsMessage`. -/

namespace Sys2Proof.Machine

/-- The frame sizes of a message of `n` bytes: `floor(n / MAX[g])` full frames and one short frame
(43_message.md R211). -/
def segmentSizes (maxSize n : Nat) : List Nat := List.replicate (n / maxSize) maxSize ++ [n % maxSize]

/-- Cut a list of bytes into consecutive pieces of the given sizes. -/
def cutSizes : List Nat → List Byte → List (List Byte)
  | [], _ => []
  | k :: ks, bs => bs.take k :: cutSizes ks (bs.drop k)

/-- The chunks of a message, one for each frame, in order (43_message.md R211). -/
def segmentMessage (p : Params) (g : Gen) (msg : List Byte) : List (List Byte) :=
  cutSizes (segmentSizes (maxPayload p g) msg.length) msg

/-- The host's reassembly (43_message.md R213): of each frame's bytes at most the caller's remaining space is
copied, and the first short frame ends the message. A frame is given by its (unpadded, decrypted) payload. -/
def reassemble (p : Params) (g : Gen) : (room : Nat) → List (List Byte) → List Byte
  | _, [] => []
  | room, f :: fs =>
    if endsMessage p g f.length then f.take room
    else f.take room ++ reassemble p g (room - min f.length room) fs

end Sys2Proof.Machine
end

