-- ==== Sys2Proof/Machine/Script.lean ====
section
/-! DEFINITION. Host programs as lists of moves: the assembler's text of a command (30_encoding.md R95), the
pseudo-instructions (R96), and the moves of a poll (42_transceiver.md R170). -/

namespace Sys2Proof.Machine

/-- The assembly text of a command, numbers in decimal (30_encoding.md R95). -/
def asmText : Instr → String
  | .nop => "NOP"
  | .setgen gen => "SETGEN " ++ toString gen.toNat
  | .settmo ms => "SETTMO " ++ toString ms.toNat
  | .setck en => "SETCK " ++ toString en.toNat
  | .cksum sel n => (if sel = 0 then "CKSUM tx, " else "CKSUM rx, ") ++ toString n.toNat
  | .encode size => "ENCODE " ++ toString size.toNat
  | .decode n => "DECODE " ++ toString n.toNat
  | .seek => "SEEK"
  | .rdbody => "RDBODY"
  | .recv => "RECV"
  | .rxack => "RXACK"

/-- `CKON` (30_encoding.md R96). -/
def ckon : Instr := .setck 1

/-- `CKOFF` (30_encoding.md R96). -/
def ckoff : Instr := .setck 0

/-- `TMODEF` (30_encoding.md R96). -/
def tmodef : Instr := .settmo 0

/-- The host writes a command's word to CMD (30_encoding.md R95). -/
def cmdWrite (i : Instr) : Input := .host (.store 4 0x0000 (encode i))

/-- `ld32` of the register at an address (30_encoding.md R95). -/
def ld32 (addr : BitVec 16) : Input := .host (.load 4 addr)

/-- `CMDW X` (30_encoding.md R96): issue a command and wait. The FCB acts on the moves `ports` of the clock and the
PHY while the host waits; the wait ends with the STATUS read that returns BUSY = 0. -/
def cmdw (i : Instr) (ports : List Input) : List Input := cmdWrite i :: .fcb :: (ports ++ [ld32 0x0004])

/-- `TXFRAME s` (30_encoding.md R96). -/
def txframe (size : Half) : List Input := cmdw (.encode size) [] ++ [ld32 0x001C]

/-- The first command of `RXFRAME` (30_encoding.md R96). -/
def rxframe (ports : List Input) : List Input := cmdw .recv ports

/-- The rest of `RXFRAME` once its RECV has completed: DECODE the received bytes unless it failed
(30_encoding.md R96). -/
def rxframeRest (s : State) : List Input :=
  if s.err = .ok then ld32 0x0020 :: cmdw (.decode s.rxlen) [] else []

/-- One poll of a receive command: its clock samples and the PHY's answer (42_transceiver.md R170). -/
structure Poll where
  t0 : Word
  answer : PhyAnswer
  t1 : Word
deriving DecidableEq, Repr

/-- The moves that make a poll: the clock, the PHY, the clock, and the FCB's turn to process what they brought. -/
def Poll.moves (p : Poll) : List Input := [.clock p.t0, .phy p.answer, .clock p.t1, .fcb]

/-- The moves that make a run of polls, in order. -/
def pollMoves (ps : List Poll) : List Input := ps.flatMap Poll.moves

/-- The events a poll with request `req` leaves, newest first (42_transceiver.md R170, 20_memory.md R75). -/
def Poll.events (p : Poll) (req : Nat) : List Event :=
  [.clock p.t1, .phyRead req p.answer, .clock p.t0]

/-- Store bytes one by one in the TXBUF window from index `i` on, as a host does before ENCODE
(43_message.md R212). -/
def storeTx : Nat → List Byte → List Input
  | _, [] => []
  | i, b :: bs => .host (.store 1 (BitVec.ofNat 16 (0x1000 + i)) (b.setWidth 32)) :: storeTx (i + 1) bs

/-- The moves by which a host has one frame built (43_message.md R212): the body into TXBUF, then ENCODE. -/
def sendFrame (size : Half) (body : List Byte) : List Input := storeTx 0 body ++ txframe size

end Sys2Proof.Machine
end

