-- ==== Sys2Proof/Safety.lean ====
section
/-! DEFINITION. What the claims are stated in: one step as a relation, reachability, the invariant, and what it
means that the environment keeps its obligations (60_exceptions.md R285). -/

namespace Sys2Proof.Machine

/-- One step goes from `s` to `t`. -/
def Steps (s t : State) : Prop := step s = .next t

/-- `t` is reached from `s` by steps. -/
inductive Reaches : State → State → Prop where
  | refl (s : State) : Reaches s s
  | tail (s t u : State) : Reaches s t → Steps t u → Reaches s u

/-! ### What the statements are said in -/

/-- The move of the environment the next step takes. -/
def nextMove (s : State) : Input :=
  match s.inputs with
  | i :: _ => i
  | [] => Config.input s.drawn

/-- The next step begins the command `i`. -/
def begins (s : State) (i : Instr) : Prop := nextMove s = .fcb ∧ ∃ w, s.cmd = some w ∧ decode w = .ok i

/-- A receive command is running in one of the given phases. -/
def running (s : State) (ps : List Phase) : Prop := s.rx.isSome = true ∧ s.phase ∈ ps

/-- A buffer holds the bytes `bs` from index `i` on. -/
abbrev State.holds (s : State) (b : Buf) (i : Nat) (bs : List Byte) : Prop :=
  ∀ k, ∀ h : k < bs.length, s.bufByte b (i + k) = some bs[k]

/-- A byte among the `n` bytes of a buffer from index `i` on holds no value. -/
abbrev State.lacks (s : State) (b : Buf) (i n : Nat) : Prop := ∃ k, k < n ∧ s.bufByte b (i + k) = none

/-- The bytes a poll brings; a negative answer brings none. -/
def Poll.chunk (p : Poll) : List Byte :=
  match p.answer with
  | .negative => []
  | .bytes bs => bs

/-- All the bytes a run of polls brings, in order. -/
def chunks (ps : List Poll) : List Byte := ps.flatMap Poll.chunk

/-- The PHY answered a poll with bytes, perhaps none of them. -/
def Poll.succeeded (p : Poll) : Bool :=
  match p.answer with
  | .negative => false
  | .bytes _ => true

/-- A successful poll of the SEEK phase that does not bring the start marker (42_transceiver.md R180). -/
def Poll.missesMarker (start : Byte) (p : Poll) : Bool :=
  match p.answer with
  | .negative => false
  | .bytes bs => decide (bs.length ≤ 1 ∧ bs ≠ [start])

/-- The elapsed counter after the accounting steps of a run of polls (42_transceiver.md R172). -/
def elapsedAfter : Word → List Poll → Word
  | e, [] => e
  | e, p :: ps => elapsedAfter (accountElapsed p.t0 p.t1 e) ps

/-- No accounting step of a run of polls reaches the timeout (42_transceiver.md R173). -/
def withinBudget (tmo : Nat) : Word → List Poll → Bool
  | _, [] => true
  | e, p :: ps =>
    decide ((accountElapsed p.t0 p.t1 e).toNat < tmo) && withinBudget tmo (accountElapsed p.t0 p.t1 e) ps

/-- What is left of a poll for a receive command that stands at `stage` within it. -/
def Poll.left (p : Poll) : PollStage → List Input
  | .start => p.moves
  | .reading _ => [.phy p.answer, .clock p.t1, .fcb]
  | .answered _ _ => [.clock p.t1, .fcb]
  | .ended _ _ _ => [.fcb]

/-- The events that what is left of a poll with request `req` leaves, newest first. -/
def Poll.leftEvents (p : Poll) (req : Nat) : PollStage → List Event
  | .start => p.events req
  | .reading _ => [.clock p.t1, .phyRead req p.answer]
  | .answered _ _ => [.clock p.t1]
  | .ended _ _ _ => []

/-- A receive command that stands at `stage` within its poll goes on with the poll `p`: what the stage holds are `p`'s
samples and answer. -/
def Poll.resumes (p : Poll) : PollStage → Prop
  | .start => True
  | .reading t0 => t0 = p.t0
  | .answered t0 answer => t0 = p.t0 ∧ answer = p.answer
  | .ended t0 t1 answer => t0 = p.t0 ∧ t1 = p.t1 ∧ answer = p.answer

/-- A receive command that stands at `stage` goes on with the first of the polls. -/
def resumePolls (stage : PollStage) : List Poll → Prop
  | [] => True
  | p :: _ => p.resumes stage

/-- What is left of a run of polls for a receive command that stands at `stage` within the first of them. -/
def leftMoves (stage : PollStage) : List Poll → List Input
  | [] => []
  | p :: ps => p.left stage ++ pollMoves ps

/-- The events of a run of polls with one request, put on top of a history (newest first). -/
def pollsOnto (req : Nat) (ps : List Poll) (history : List Event) : List Event :=
  ps.foldl (fun h p => p.events req ++ h) history

/-- The events of what is left of a run of polls with one request, put on top of a history (newest first). -/
def leftOnto (req : Nat) (stage : PollStage) (ps : List Poll) (history : List Event) : List Event :=
  match ps with
  | [] => history
  | p :: qs => pollsOnto req qs (p.leftEvents req stage ++ history)

/-- How many flushes a history holds. -/
def flushes (history : List Event) : Nat := history.countP (fun e => decide (e = .phyFlush))

/-- An error a receive command reports after a flush (60_exceptions.md R279). -/
def ErrCode.flushed : ErrCode → Bool
  | .ok => false
  | .phyError => true
  | .protError => true
  | .timeoutError => true
  | .devError => false
  | .illegal => false

/-- The next step begins a receive command, or offers a move to the one in progress. -/
def receives (s : State) : Prop :=
  begins s .seek ∨ begins s .rdbody ∨ begins s .recv ∨ begins s .rxack ∨ running s [.seek, .body, .ack]

/-- The opcodes of 30_encoding.md R91. -/
def assignedOpcodes : List Byte := [0x00, 0x01, 0x02, 0x03, 0x10, 0x11, 0x12, 0x20, 0x21, 0x22, 0x23]

/-- A word is illegal (30_encoding.md R93, 60_exceptions.md R276): its opcode is unassigned, a reserved bit of ARG is
set, or SETGEN's or SETCK's operand is out of range. -/
def badWord (w : Word) : Prop :=
  opField w ∉ assignedOpcodes ∨
  (opField w ∈ [0x00, 0x20, 0x21, 0x22, 0x23] ∧ argField w ≠ 0) ∨
  (opField w = 0x10 ∧ (argField w).extractLsb' 17 7 ≠ 0) ∨
  (opField w ∈ [0x11, 0x12] ∧ (argField w).extractLsb' 16 8 ≠ 0) ∨
  (opField w = 0x01 ∧ ¬ (1 ≤ (argField w).toNat ∧ (argField w).toNat ≤ 3)) ∨
  (opField w = 0x03 ∧ 1 < (argField w).toNat)

/-- Why a command is refused as ILLEGAL: the causes of 60_exceptions.md R276. -/
def illegalCause (s : State) (w : Word) : Prop :=
  badWord w ∨
  (∃ sel n, decode w = .ok (.cksum sel n) ∧ s.params.bufBytes < n.toNat) ∨
  (∃ n, decode w = .ok (.decode n) ∧ s.params.bufBytes < n.toNat) ∨
  (∃ size, decode w = .ok (.encode size) ∧ maxPayload s.params s.gen < size.toNat) ∨
  (decode w = .ok .rxack ∧ s.gen = .g1)

/-- The frame of 30_encoding.md R100 to R102 for a size field and a body, with its checksum trailer written out. -/
def wireFrame (p : Params) (g : Gen) (size : Half) (body : List Byte) : List Byte :=
  match g with
  | .g1 => [p.start1, size.extractLsb' 0 8] ++ body ++ [size.extractLsb' 0 8 ^^^ xor8 body]
  | .g2 =>
    [p.start2, size.extractLsb' 0 8, size.extractLsb' 8 8] ++ body ++
      [size.extractLsb' 0 8 ^^^ size.extractLsb' 8 8 ^^^ xor8 body, 0]
  | .g3 =>
    [p.start3, size.extractLsb' 0 8, size.extractLsb' 8 8] ++ body ++
      [size.extractLsb' 0 8 ^^^ size.extractLsb' 8 8 ^^^ xor8 body, 0]

/-! ### The invariant -/

/-- The number of bytes of RXBUF, after the start marker, that a BODY phase has stored (10_state.md R42). -/
def bodyStored (s : State) (n : Nat) : Prop := ∀ i < n, (s.bufByte .rx (1 + i)).isSome = true

/-- The hidden state of a BODY phase (42_transceiver.md R183): while the size field is incomplete fewer than
`SIZE_LEN[g]` bytes have come; afterwards the size field was in bounds, the target is the frame's length less the
start marker, and bytes are still missing. -/
def bodyTargetOk (s : State) (r : Rx) : Prop :=
  match r.target with
  | none => r.got < sizeLen s.gen
  | some t =>
    s.rxsize.toNat ≤ maxPayload s.params s.gen ∧ t + 1 = frameLen s.gen s.rxsize.toNat ∧
      sizeLen s.gen ≤ r.got ∧ r.got < t

/-- The hidden state fits the phase that runs (10_state.md R41, R42). -/
def phaseOk (s : State) (r : Rx) : Prop :=
  match s.phase with
  | .idle => False
  | .seek => s.rxlen = 0
  | .body => s.rxlen.toNat = 1 + r.got ∧ bodyStored s r.got ∧ bodyTargetOk s r
  | .ack => s.gen ≠ .g1 ∧ s.lastck.isSome = true ∧ s.nak = false ∧ r.ack.length = r.got ∧ r.got < ackLen

/-- An answer the FCB holds keeps the PHY's contract (10_state.md R40). -/
def stageOk (s : State) (r : Rx) : Prop :=
  match r.stage with
  | .start => True
  | .reading _ => True
  | .answered _ answer => answerFits (s.request r) answer = true
  | .ended _ _ answer => answerFits (s.request r) answer = true

/-- The invariant of the machine. -/
structure State.Inv (s : State) : Prop where
  /-- The parameters keep the constraints of 00_scope.md R9 and R10. -/
  params : s.params.Valid
  /-- The buffers' cells are in canonical form. -/
  memWf : Memory.wf s.mem
  /-- Only buffer bytes hold a value (20_memory.md R61, R62). -/
  memInBuffers : ∀ c ∈ s.mem, isBufferByte s.params c.1 = true
  /-- BUSY is 1 exactly while a captured or a receive command is there (10_state.md R28). -/
  busyIff : s.busy = (s.cmd.isSome || s.rx.isSome)
  /-- At most one command is there (10_state.md R21). -/
  oneCommand : s.cmd = none ∨ s.rx = none
  /-- PHASE is IDLE exactly while no receive phase runs (10_state.md R41). -/
  phaseIdle : s.phase = .idle ↔ s.rx = none
  /-- DEV_ERROR is never produced (60_exceptions.md R275). -/
  errProduced : s.err ≠ .devError
  /-- FRLEN and RXLEN count bytes of a buffer (10_state.md R34, R35). -/
  frlenFits : s.frlen.toNat ≤ s.params.bufBytes
  rxlenFits : s.rxlen.toNat ≤ s.params.bufBytes
  /-- A running phase's hidden state fits it. -/
  phaseFits : ∀ r, s.rx = some r → phaseOk s r
  /-- A held answer keeps the contract. -/
  stageFits : ∀ r, s.rx = some r → stageOk s r
  /-- While a phase runs the elapsed counter is below the effective timeout (42_transceiver.md R172). -/
  withinBudget : ∀ r, s.rx = some r → s.elapsed.toNat < tmoEff s

/-- A move of the environment keeps its obligations in a state (60_exceptions.md R285): the host's access has an
allowed width and alignment and is no buffer write while BUSY, the PHY answers at most what was asked. -/
def moveHonest (s : State) : Input → Prop
  | .fcb => True
  | .reset => True
  | .clock _ => True
  | .host (.load width addr) => accessAllowed width addr = true
  | .host (.store width addr _) =>
    accessAllowed width addr = true ∧ (s.busy = true → touchesBuffer s.params width addr.toNat = false)
  | .phy answer => ∀ r, s.rx = some r → answerFits (s.request r) answer = true

/-- A safe state: its next step does not stop. -/
def Safe (s : State) : Prop := ∃ t, step s = .next t

end Sys2Proof.Machine
end

