-- ==== Sys2Proof/Certificates/Slice0/Obligations.lean ====
section
/-! DEFINITION. The statements about the FCB for the provers. Fields `cmd`, `rx`, `epoch`, `draws`, `drawn`, `inputs`,
`history` and `hostData` are the model's own or hidden state (INVENTORY.md); no statement rests on a value of
`epoch`, `draws` or `drawn`, nor on any free value. -/

open Sys2Proof Sys2Proof.Machine

/-! ### Encodings -/

/-- 30_encoding.md R90 to R92: the encoder's word of every legal command decodes to that command, with every operand
at every value the encoding admits. -/
def Obligations.DecodeEncodeRoundTrip : Prop :=
  ∀ i : Instr, i.wellFormed = true → decode (encode i) = .ok i ∧ classify (encode i) = .ok i

/-- 30_encoding.md R94: each of the 2^32 words is exactly one of the commands of R91 or illegal, and illegal is an explicit
verdict, given for exactly the words R93 lists; a word with an unassigned opcode is illegal. -/
def Obligations.EveryWordIsOneCommandOrIllegal : Prop :=
  ∀ w : Word,
    ((∃ i : Instr, i.wellFormed = true ∧ encode i = w ∧ classify w = .ok i ∧
        ∀ j : Instr, j.wellFormed = true → encode j = w → j = i) ∨
      ((∃ e, classify w = .error e) ∧ ∀ j : Instr, j.wellFormed = true → encode j ≠ w)) ∧
    ((∃ e, classify w = .error e) ↔ badWord w) ∧
    (opField w ∉ assignedOpcodes → classify w = .error (.unassignedOpcode (opField w)))

/-- The words the spec writes out decode to the commands it names (40_checksum.md R121, 41_codec.md R141 and R150,
42_transceiver.md R180, R185, R190, 44_ack.md R231, 45_config.md R250 to R253; 95_test_vectors.md). -/
def Obligations.SpecWordsDecode : Prop :=
  decode 0x00000000 = .ok .nop ∧ decode 0x00000201 = .ok (.setgen 2) ∧ decode 0x0001F402 = .ok (.settmo 500) ∧
  decode 0x00000103 = .ok (.setck 1) ∧ decode 0x00000510 = .ok (.cksum 0 5) ∧
  decode 0x01000810 = .ok (.cksum 1 8) ∧ decode 0x00000311 = .ok (.encode 3) ∧
  decode 0x00000812 = .ok (.decode 8) ∧ decode 0x00000020 = .ok .seek ∧ decode 0x00000021 = .ok .rdbody ∧
  decode 0x00000022 = .ok .recv ∧ decode 0x00000023 = .ok .rxack

/-- 60_exceptions.md R276: a command completes with ILLEGAL for exactly the listed causes (its word is illegal, or a value
check of CKSUM, DECODE, ENCODE or RXACK refuses it), and then changes no register but STATUS.ERR and STATUS.BUSY, no buffer,
and makes no flush and no PHY event. -/
def Obligations.IllegalExactlyForListedCauses : Prop :=
  (∀ (s : State) (w : Word) (rest : List Input),
    s.Inv → s.inputs = .fcb :: rest → s.cmd = some w → illegalCause s w →
    step s = .next { s with err := .illegal, busy := false, cmd := none, epoch := s.epoch + 1, inputs := rest }) ∧
  (∀ (s t : State) (w : Word),
    s.Inv → nextMove s = .fcb → s.cmd = some w → step s = .next t → t.busy = false → t.err = .illegal →
    illegalCause s w)

/-- 10_state.md R31, 20_memory.md R72: a command word captured by a CMD write runs as the command it decodes to. That it
begins on a move of its own, the FCB's turn, is the model's choice (notes/assumptions/2.md, DESIGN CHOICE); so is
`withFetchWord`, which places a word so that the next step runs it (notes/assumptions/3.md, DESIGN CHOICE). -/
def Obligations.StepRunsDecodedCommand : Prop :=
  (∀ (s : State) (w : Word) (i : Instr) (rest : List Input),
    s.inputs = .fcb :: rest → s.cmd = some w → decode w = .ok i →
    step s = exec i { s with cmd := none, inputs := rest }) ∧
  (∀ (s : State) (i : Instr), i.wellFormed = true →
    step (s.withFetchWord 32 (encode i).toNat) = exec i { s with cmd := none, busy := true })

/-! ### Configuration commands -/

/-- 45_config.md R250: NOP, the word 0x00000000, reports success and leaves every register but STATUS.ERR and STATUS.BUSY,
and every buffer byte, as it was; with a bit of ARG set the word is illegal and completes with ILLEGAL. -/
def Obligations.NopResult : Prop :=
  ∀ s : State, s.phase = .idle → s.rx = none →
    exec .nop s = .next { s with err := .ok, busy := false, cmd := none, epoch := s.epoch + 1 } ∧
    decode 0x00000000 = .ok .nop ∧
    (∀ w : Word, opField w = 0x00 → argField w ≠ 0 →
      startCommand s w = .next { s with err := .illegal, busy := false, cmd := none, epoch := s.epoch + 1 })

/-- 45_config.md R251: SETGEN 1, 2 or 3 (the words 0x00000101, 0x00000201, 0x00000301) selects that generation and changes
nothing else but STATUS.ERR and BUSY; any other operand makes an illegal word (30_encoding.md R93, R94), which is refused as
ILLEGAL with GEN unchanged. That `exec` is defined on SETGEN with such an operand, and answers that refusal, is the model's
choice (notes/assumptions/15.md, DEDUCED). -/
def Obligations.SetgenResult : Prop :=
  ∀ s : State, s.phase = .idle → s.rx = none →
    (∀ (gen : Arg) (g : Gen), gen.toNat = (genCode g).toNat →
      exec (.setgen gen) s =
        .next { s with gen := g, err := .ok, busy := false, cmd := none, epoch := s.epoch + 1 }) ∧
    (∀ gen : Arg, gen.toNat = 0 ∨ 3 < gen.toNat →
      exec (.setgen gen) s = .next { s with err := .illegal, busy := false, cmd := none, epoch := s.epoch + 1 }) ∧
    decode 0x00000101 = .ok (.setgen 1) ∧ decode 0x00000201 = .ok (.setgen 2) ∧
    decode 0x00000301 = .ok (.setgen 3) ∧
    (∀ w : Word, opField w = 0x01 →
      (1 ≤ (argField w).toNat ∧ (argField w).toNat ≤ 3 → classify w = .ok (.setgen (argField w))) ∧
      (¬ (1 ≤ (argField w).toNat ∧ (argField w).toNat ≤ 3) →
        (∃ e, classify w = .error e) ∧
        startCommand s w = .next { s with err := .illegal, busy := false, cmd := none, epoch := s.epoch + 1 }))

/-- 45_config.md R252: SETTMO writes TIMEOUT and changes nothing else but STATUS.ERR and BUSY; the effective timeout
becomes the operand, or DEFAULT_TIMEOUT_MS for 0; every word with OP 0x02 is legal. -/
def Obligations.SettmoResult : Prop :=
  (∀ (s : State) (ms : Arg), s.phase = .idle → s.rx = none →
    ∃ t, exec (.settmo ms) s = .next t ∧
      t = { s with timeout := ms, err := .ok, busy := false, cmd := none, epoch := s.epoch + 1 } ∧
      tmoEff t = if ms.toNat = 0 then s.params.defaultTimeoutMs else ms.toNat) ∧
  (∀ w : Word, opField w = 0x02 → classify w = .ok (.settmo (argField w)))

/-- 45_config.md R253: SETCK 0 and SETCK 1 write CKEN and change nothing else but STATUS.ERR and BUSY; any other
operand makes an illegal word (30_encoding.md R93, R94), which is refused as ILLEGAL with CKEN unchanged. That `exec` is
defined on SETCK with such an operand, and answers that refusal, is the model's choice (notes/assumptions/15.md,
DEDUCED). -/
def Obligations.SetckResult : Prop :=
  ∀ s : State, s.phase = .idle → s.rx = none →
    exec (.setck 0) s =
      .next { s with cken := false, err := .ok, busy := false, cmd := none, epoch := s.epoch + 1 } ∧
    exec (.setck 1) s =
      .next { s with cken := true, err := .ok, busy := false, cmd := none, epoch := s.epoch + 1 } ∧
    (∀ en : Arg, 1 < en.toNat →
      exec (.setck en) s = .next { s with err := .illegal, busy := false, cmd := none, epoch := s.epoch + 1 })

/-! ### Checksum and codec -/

/-- 40_checksum.md R124 (a) to (d): the order of the covered bytes does not matter; a byte 0x00 contributes nothing;
changing one byte changes the checksum; flipping the same bits in two bytes is not detected. -/
def Obligations.ChecksumProperties : Prop :=
  (∀ as bs : List Byte, as.Perm bs → xor8 as = xor8 bs) ∧
  (∀ as bs : List Byte, xor8 (as ++ 0 :: bs) = xor8 (as ++ bs)) ∧
  (∀ (as bs : List Byte) (x y : Byte), x ≠ y → xor8 (as ++ x :: bs) ≠ xor8 (as ++ y :: bs)) ∧
  (∀ (as bs cs : List Byte) (x y m : Byte),
    xor8 (as ++ (x ^^^ m) :: bs ++ (y ^^^ m) :: cs) = xor8 (as ++ x :: bs ++ y :: cs))

/-- 30_encoding.md R104: BODY_LEN is s, s and 16 + ceil16(s); FRAME_LEN is 1 + SIZE_LEN + BODY_LEN + CK_LEN, that is 3 + s,
5 + s and 21 + ceil16(s); ceil16 (00_scope.md R11) rounds up to a multiple of 16. -/
def Obligations.FrameLengths : Prop :=
  ∀ size : Nat,
    bodyLen .g1 size = size ∧ bodyLen .g2 size = size ∧ bodyLen .g3 size = 16 + ceil16 size ∧
    (∀ g, frameLen g size = 1 + sizeLen g + bodyLen g size + ckLen g) ∧
    frameLen .g1 size = 3 + size ∧ frameLen .g2 size = 5 + size ∧ frameLen .g3 size = 21 + ceil16 size ∧
    size ≤ ceil16 size ∧ ceil16 size < size + 16 ∧ ceil16 size % 16 = 0

/-- 40_checksum.md R121: CKSUM of n bytes that hold values writes their XOR to CKSUM and changes nothing else but
STATUS.ERR and BUSY, whatever GEN is; with n above BUF_BYTES, or a reserved bit of its word set, it is refused; with a byte
in range that holds no value the model faults UNWRITTEN. -/
def Obligations.CksumResult : Prop :=
  ∀ (s : State) (sel : BitVec 1) (n : Half), s.phase = .idle → s.rx = none →
    (n.toNat ≤ s.params.bufBytes → ∀ bs : List Byte, bs.length = n.toNat →
      s.holds (if sel = 0 then .tx else .rx) 0 bs →
      exec (.cksum sel n) s =
        .next { s with cksum := bs.foldr (fun b acc => b ^^^ acc) 0, err := .ok, busy := false, cmd := none,
                       epoch := s.epoch + 1 }) ∧
    (n.toNat ≤ s.params.bufBytes → s.lacks (if sel = 0 then .tx else .rx) 0 n.toNat →
      exec (.cksum sel n) s = .fault .unwritten) ∧
    (s.params.bufBytes < n.toNat →
      exec (.cksum sel n) s = .next { s with err := .illegal, busy := false, cmd := none, epoch := s.epoch + 1 }) ∧
    (∀ w : Word, opField w = 0x10 → (argField w).extractLsb' 17 7 ≠ 0 →
      startCommand s w = .next { s with err := .illegal, busy := false, cmd := none, epoch := s.epoch + 1 })

/-- 41_codec.md R141: ENCODE of a legal size whose body bytes hold values writes the frame to FRAMEBUF from index 0,
its checksum to LASTCK and its length to FRLEN, and changes no other register but STATUS.ERR and BUSY and no other
byte, whatever CKEN is; an oversize size (R142) or a reserved bit of its word is refused; a body byte without a value
faults UNWRITTEN. -/
def Obligations.EncodeResult : Prop :=
  ∀ (s : State) (size : Half), s.params.Valid → s.phase = .idle → s.rx = none →
    (size.toNat ≤ maxPayload s.params s.gen → ∀ body : List Byte, body.length = bodyLen s.gen size.toNat →
      s.holds .tx 0 body →
      ∃ t, exec (.encode size) s = .next t ∧
        t = { s with mem := t.mem,
                     lastck := some (xor8 (size.extractLsb' 0 8 :: size.extractLsb' 8 8 :: body)),
                     frlen := BitVec.ofNat 16 (frameLen s.gen size.toNat), err := .ok, busy := false, cmd := none,
                     epoch := s.epoch + 1 } ∧
        t.frlen.toNat = (wireFrame s.params s.gen size body).length ∧
        t.holds .frame 0 (wireFrame s.params s.gen size body) ∧
        (∀ a, ¬ (0x2000 ≤ a ∧ a < 0x2000 + t.frlen.toNat) → Memory.read t.mem a = Memory.read s.mem a)) ∧
    (size.toNat ≤ maxPayload s.params s.gen → s.lacks .tx 0 (bodyLen s.gen size.toNat) →
      exec (.encode size) s = .fault .unwritten) ∧
    (maxPayload s.params s.gen < size.toNat →
      exec (.encode size) s = .next { s with err := .illegal, busy := false, cmd := none, epoch := s.epoch + 1 }) ∧
    (∀ w : Word, opField w = 0x11 → (argField w).extractLsb' 16 8 ≠ 0 →
      startCommand s w = .next { s with err := .illegal, busy := false, cmd := none, epoch := s.epoch + 1 })

/-- 30_encoding.md R107: the size field and the trailer of a received frame, and the ACK record's checksum field, are
assembled little-endian from their bytes; a gen-1 field is one byte. -/
def Obligations.FieldAssembly : Prop :=
  ∀ x y : Byte, ∀ more : List Byte,
    (fieldValue .g1 (x :: more)).toNat = x.toNat ∧
    (fieldValue .g2 (x :: y :: more)).toNat = x.toNat + 256 * y.toNat ∧
    (fieldValue .g3 (x :: y :: more)).toNat = x.toNat + 256 * y.toNat ∧
    (wire16 x y).toNat = x.toNat + 256 * y.toNat

/-- 41_codec.md R150: DECODE of a frame that is whole, in bounds and, with CKEN = 1, has a matching trailer accepts it:
RXSIZE, RXCK and STATUS.MSGEND are written, nothing else but STATUS.ERR and BUSY changes, and RXBUF[0] and bytes
beyond the frame play no part. `frame` is the frame from byte 1 on. -/
def Obligations.DecodeAccepts : Prop :=
  ∀ (s : State) (n size t : Half) (frame covered trailer : List Byte), s.phase = .idle → s.rx = none →
    n.toNat ≤ s.params.bufBytes → size.toNat ≤ maxPayload s.params s.gen →
    frameLen s.gen size.toNat ≤ n.toNat → frame.length + 1 = frameLen s.gen size.toNat →
    s.holds .rx 1 frame → fieldValue s.gen (frame.take (sizeLen s.gen)) = size →
    frame = covered ++ trailer → trailer.length = ckLen s.gen → fieldValue s.gen trailer = t →
    (s.cken = true → t.toNat = (xor8 covered).toNat) →
    exec (.decode n) s =
      .next { s with rxsize := size, rxck := t, msgend := decide (size.toNat < maxPayload s.params s.gen),
                     err := .ok, busy := false, cmd := none, epoch := s.epoch + 1 }

/-- 41_codec.md R150 and R151: DECODE refuses n above BUF_BYTES as ILLEGAL; otherwise a truncated header, then a size
above the maximum, then a truncated frame, then (with CKEN = 1) a trailer that does not match gives PROT_ERROR with
MSGEND 0, RXSIZE written once the size field is read, and nothing else changed but STATUS.ERR and BUSY. A size field byte
that holds no value, and once size and length are in order a byte of the frame that holds none, faults UNWRITTEN. -/
def Obligations.DecodeRejects : Prop :=
  ∀ (s : State) (n : Half), s.phase = .idle → s.rx = none →
    (s.params.bufBytes < n.toNat →
      exec (.decode n) s = .next { s with err := .illegal, busy := false, cmd := none, epoch := s.epoch + 1 }) ∧
    (n.toNat ≤ s.params.bufBytes → n.toNat < 1 + sizeLen s.gen →
      exec (.decode n) s =
        .next { s with msgend := false, err := .protError, busy := false, cmd := none, epoch := s.epoch + 1 }) ∧
    (n.toNat ≤ s.params.bufBytes → 1 + sizeLen s.gen ≤ n.toNat → s.lacks .rx 1 (sizeLen s.gen) →
      exec (.decode n) s = .fault .unwritten) ∧
    (n.toNat ≤ s.params.bufBytes → 1 + sizeLen s.gen ≤ n.toNat →
      ∀ (size : Half) (field : List Byte), field.length = sizeLen s.gen → s.holds .rx 1 field →
        fieldValue s.gen field = size →
        (size.toNat ≤ maxPayload s.params s.gen → frameLen s.gen size.toNat ≤ n.toNat →
          s.lacks .rx 1 (frameLen s.gen size.toNat - 1) → exec (.decode n) s = .fault .unwritten) ∧
        (maxPayload s.params s.gen < size.toNat ∨ n.toNat < frameLen s.gen size.toNat →
          exec (.decode n) s =
            .next { s with msgend := false, rxsize := size, err := .protError, busy := false, cmd := none,
                           epoch := s.epoch + 1 }) ∧
        (size.toNat ≤ maxPayload s.params s.gen → frameLen s.gen size.toNat ≤ n.toNat → s.cken = true →
          ∀ covered trailer : List Byte, trailer.length = ckLen s.gen →
            covered.length + trailer.length + 1 = frameLen s.gen size.toNat → s.holds .rx 1 (covered ++ trailer) →
            (fieldValue s.gen trailer).toNat ≠ (xor8 covered).toNat →
            exec (.decode n) s =
              .next { s with msgend := false, rxsize := size, err := .protError, busy := false, cmd := none,
                             epoch := s.epoch + 1 }))

/-- 41_codec.md R156: a frame ENCODE built, copied to RXBUF, is accepted by DECODE under the same generation with its
size, checksum, end-of-message flag and body unchanged, whatever CKEN is. -/
def Obligations.EncodeThenDecode : Prop :=
  ∀ (s t u : State) (size : Half) (body frame : List Byte), s.params.Valid →
    size.toNat ≤ maxPayload s.params s.gen → body.length = bodyLen s.gen size.toNat → s.holds .tx 0 body →
    exec (.encode size) s = .next t → frame.length = t.frlen.toNat → t.holds .frame 0 frame →
    u.params = s.params → u.gen = s.gen → u.holds .rx 0 frame →
    ∃ v, exec (.decode t.frlen) u = .next v ∧ v.err = .ok ∧ v.rxsize = size ∧
      t.lastck = some (v.rxck.setWidth 8) ∧ v.rxck.toNat < 256 ∧
      v.msgend = decide (size.toNat < maxPayload s.params s.gen) ∧ v.holds .rx (1 + sizeLen s.gen) body

/-- 40_checksum.md R124 (c) for DECODE: with CKEN = 1 and the size field intact, a frame ENCODE built with exactly one
byte of its body or trailer changed is rejected with PROT_ERROR. `k` is the index of the changed byte. -/
def Obligations.SingleByteErrorDetected : Prop :=
  ∀ (s t u : State) (size : Half) (body frame bad : List Byte) (k : Nat), s.params.Valid →
    size.toNat ≤ maxPayload s.params s.gen → body.length = bodyLen s.gen size.toNat → s.holds .tx 0 body →
    exec (.encode size) s = .next t → frame.length = t.frlen.toNat → t.holds .frame 0 frame →
    1 + sizeLen s.gen ≤ k → bad.length = frame.length → (∀ j : Nat, j ≠ k → bad[j]? = frame[j]?) →
    bad[k]? ≠ frame[k]? →
    u.params = s.params → u.gen = s.gen → u.cken = true → u.holds .rx 0 bad →
    ∃ v, exec (.decode t.frlen) u = .next v ∧ v.err = .protError ∧ v.rxck = u.rxck ∧ v.msgend = false

/-- 60_exceptions.md R276, 41_codec.md R155, 70_reset_and_hazards.md R321: NOP, SETGEN, SETTMO, SETCK, CKSUM, ENCODE and
DECODE make no clock or PHY event, consume no move of the environment, and always complete or fault. -/
def Obligations.CodecAndConfigMakeNoEvent : Prop :=
  ∀ (s t : State) (i : Instr), i ≠ .seek → i ≠ .rdbody → i ≠ .recv → i ≠ .rxack →
    exec i s = .next t →
    t.history = s.history ∧ t.inputs = s.inputs ∧ t.drawn = s.drawn ∧ t.busy = false ∧ t.phase = .idle

/-! ### Receiving -/

/-- 42_transceiver.md R180, R176: SEEK skips every poll without the marker, accounting each, and ends at the poll that
brings the marker, whatever that poll's clock samples: the marker is stored in RXBUF[0], RXLEN is 1, ELAPSED is the
accounted time of the polls before it, no flush is made and no further move is consumed. So it is when the command begins,
and when its SEEK phase goes on, wherever in a poll it stands. -/
def Obligations.SeekFindsMarker : Prop :=
  ∀ (s : State) (skipped : List Poll) (hit : Poll) (rest : List Input),
    (∀ q ∈ skipped, q.missesMarker (startMarker s.params s.gen) = true) →
    hit.answer = .bytes [startMarker s.params s.gen] →
    (withinBudget (tmoEff s) 0 skipped = true → s.inputs = pollMoves (skipped ++ [hit]) ++ rest →
      ∃ t, exec .seek s = .next t ∧
        t = { s with mem := t.mem, rxlen := 1, elapsed := elapsedAfter 0 skipped, phase := .idle, err := .ok,
                     busy := false, cmd := none, rx := none, epoch := s.epoch + 1, inputs := rest,
                     history := pollsOnto 1 (skipped ++ [hit]) s.history } ∧
        t.bufByte .rx 0 = some (startMarker s.params s.gen) ∧
        (∀ a, a ≠ 0x3000 → Memory.read t.mem a = Memory.read s.mem a)) ∧
    (∀ r : Rx, s.Inv → s.rx = some r → s.phase = .seek → r.thenBody = false →
      resumePolls r.stage (skipped ++ [hit]) → withinBudget (tmoEff s) s.elapsed skipped = true →
      s.inputs = leftMoves r.stage (skipped ++ [hit]) ++ rest →
      ∃ t, step s = .next t ∧
        t = { s with mem := t.mem, rxlen := 1, elapsed := elapsedAfter s.elapsed skipped, phase := .idle, err := .ok,
                     busy := false, rx := none, epoch := s.epoch + 1, inputs := rest,
                     history := leftOnto 1 r.stage (skipped ++ [hit]) s.history } ∧
        t.bufByte .rx 0 = some (startMarker s.params s.gen) ∧
        (∀ a, a ≠ 0x3000 → Memory.read t.mem a = Memory.read s.mem a))

/-- 42_transceiver.md R192: when every read returns zero bytes after p >= 1 ms, SEEK times out at poll
k = ceil(TMO_EFF / p) with ELAPSED = k * p < TMO_EFF + p, and flushes once. -/
def Obligations.SeekTimesOutOnSilence : Prop :=
  ∀ (s : State) (silent : List Poll) (p : Nat) (rest : List Input), s.params.Valid → 1 ≤ p → p < 2 ^ 31 →
    (∀ q ∈ silent, q.answer = .bytes [] ∧ clockDelta q.t0 q.t1 = (p : Int)) →
    silent.length = (tmoEff s + p - 1) / p →
    s.inputs = pollMoves silent ++ rest →
    exec .seek s =
        .next { s with rxlen := 0, elapsed := BitVec.ofNat 32 (silent.length * p), phase := .idle,
                       err := .timeoutError, busy := false, cmd := none, rx := none, epoch := s.epoch + 1,
                       inputs := rest, history := .phyFlush :: pollsOnto 1 silent s.history } ∧
      tmoEff s ≤ silent.length * p ∧ silent.length * p < tmoEff s + p

/-- 42_transceiver.md R192, 44_ack.md R234: the same timeout discipline in the SEEK, BODY and ACK phases: a running phase
whose budget is fresh, wherever in a poll it stands, and whose every read returns zero bytes after p >= 1 ms fails with
TIMEOUT_ERROR at poll k = ceil(TMO_EFF / p), with one flush, and changes nothing else. -/
def Obligations.SilentPhaseTimesOut : Prop :=
  ∀ (s : State) (r : Rx) (silent : List Poll) (p : Nat) (rest : List Input), s.Inv → s.rx = some r →
    resumePolls r.stage silent → s.elapsed = 0 → 1 ≤ p → p < 2 ^ 31 →
    (∀ q ∈ silent, q.answer = .bytes [] ∧ clockDelta q.t0 q.t1 = (p : Int)) →
    silent.length = (tmoEff s + p - 1) / p →
    s.inputs = leftMoves r.stage silent ++ rest →
    step s =
      .next { s with elapsed := BitVec.ofNat 32 (silent.length * p), phase := .idle, err := .timeoutError,
                     busy := false, rx := none, epoch := s.epoch + 1, inputs := rest,
                     history := .phyFlush :: leftOnto (s.request r) r.stage silent s.history }

/-- 42_transceiver.md R193, 60_exceptions.md R290: a SEEK whose polls all bring nothing with non-positive time deltas
never completes, however many there are: it is still busy in its SEEK phase with ELAPSED 0. -/
def Obligations.SilentSeekWithoutTimeNeverEnds : Prop :=
  ∀ (s : State) (silent : List Poll), s.params.Valid → s.busy = true →
    (∀ q ∈ silent, q.answer = .bytes [] ∧ clockDelta q.t0 q.t1 ≤ 0) →
    s.inputs = pollMoves silent →
    ∃ t, exec .seek s = .next t ∧ t.busy = true ∧ t.phase = .seek ∧ t.elapsed = 0 ∧ t.rx.isSome = true ∧
      t.inputs = [] ∧ t.err = s.err ∧ t.history = pollsOnto 1 silent s.history

/-- 42_transceiver.md R172, R173, R176: a poll of a running SEEK phase that does not bring the marker is accounted:
ELAPSED is reset by a non-positive delta and else advanced by it without overflow; at or above the effective timeout
the command flushes and fails with TIMEOUT_ERROR, else the phase goes on with the next poll. -/
def Obligations.SeekPollIsAccounted : Prop :=
  ∀ (s : State) (r : Rx) (q : Poll) (rest : List Input), s.Inv → s.rx = some r → s.phase = .seek →
    q.resumes r.stage → q.missesMarker (startMarker s.params s.gen) = true → s.inputs = q.left r.stage ++ rest →
    ∃ e : Word,
      ((e.toNat : Int) = if clockDelta q.t0 q.t1 ≤ 0 then 0 else (s.elapsed.toNat : Int) + clockDelta q.t0 q.t1) ∧
      step s =
        if tmoEff s ≤ e.toNat then
          .next { s with elapsed := e, phase := .idle, err := .timeoutError, busy := false, rx := none,
                         epoch := s.epoch + 1, inputs := rest,
                         history := .phyFlush :: (q.leftEvents 1 r.stage ++ s.history) }
        else
          State.runRx rest { s with elapsed := e, rx := some { r with stage := .start },
                                    history := q.leftEvents 1 r.stage ++ s.history }

/-- 42_transceiver.md R172, R173, R176, R179, R183, R185, R193: a poll of a running BODY phase that does not end it,
with or without bytes, stores its bytes, counts them in RXLEN, parses a size field it completes, and is accounted: at or
above the effective timeout the command flushes and fails with TIMEOUT_ERROR, the bytes received standing in RXBUF and
counted in RXLEN; else the phase goes on with a smaller request. The first part is a poll that leaves the size field, or
the frame, incomplete; the second a poll that completes a size field within MAX[g]. -/
def Obligations.BodyPollIsAccounted : Prop :=
  ∀ (s : State) (r : Rx) (q : Poll) (bs : List Byte) (rest : List Input), s.Inv → s.rx = some r → s.phase = .body →
    q.resumes r.stage → q.answer = .bytes bs → s.inputs = q.left r.stage ++ rest →
    ∃ (e : Word) (m : Memory),
      ((e.toNat : Int) = if clockDelta q.t0 q.t1 ≤ 0 then 0 else (s.elapsed.toNat : Int) + clockDelta q.t0 q.t1) ∧
      (∀ k, ∀ h : k < bs.length, Memory.read m (0x3001 + r.got + k) = some bs[k]) ∧
      (∀ a, ¬ (0x3001 + r.got ≤ a ∧ a < 0x3001 + r.got + bs.length) → Memory.read m a = Memory.read s.mem a) ∧
      (∀ (size : Half) (target : Option Nat),
        (r.target = none ∧ r.got + bs.length < sizeLen s.gen ∧ size = s.rxsize ∧ target = none) ∨
        (∃ n, r.target = some n ∧ r.got + bs.length < n ∧ size = s.rxsize ∧ target = some n) ∨
        (∃ pre, r.target = none ∧ pre.length = r.got ∧ s.holds .rx 1 pre ∧ r.got + bs.length = sizeLen s.gen ∧
          size = fieldValue s.gen (pre ++ bs) ∧ size.toNat ≤ maxPayload s.params s.gen ∧
          target = some (frameLen s.gen size.toNat - 1)) →
        step s =
          if tmoEff s ≤ e.toNat then
            .next { s with mem := m, rxlen := BitVec.ofNat 16 (1 + r.got + bs.length), rxsize := size, elapsed := e,
                           phase := .idle, err := .timeoutError, busy := false, rx := none, epoch := s.epoch + 1,
                           inputs := rest,
                           history := .phyFlush :: (q.leftEvents (s.request r) r.stage ++ s.history) }
          else
            State.runRx rest
              { s with mem := m, rxlen := BitVec.ofNat 16 (1 + r.got + bs.length), rxsize := size, elapsed := e,
                       rx := some { r with got := r.got + bs.length, target := target, stage := .start },
                       history := q.leftEvents (s.request r) r.stage ++ s.history })

/-- 44_ack.md R231, R234, R235 with 42_transceiver.md R172, R173, R176: a poll of a running ACK phase that leaves the record
incomplete keeps its bytes and is accounted: at or above the effective timeout the command flushes and fails with
TIMEOUT_ERROR, nothing of the record stored in a register and NAK 0; else the phase goes on with a smaller request. -/
def Obligations.AckPollIsAccounted : Prop :=
  ∀ (s : State) (r : Rx) (q : Poll) (bs : List Byte) (rest : List Input), s.Inv → s.rx = some r → s.phase = .ack →
    q.resumes r.stage → q.answer = .bytes bs → r.got + bs.length < 3 → s.inputs = q.left r.stage ++ rest →
    ∃ e : Word,
      ((e.toNat : Int) = if clockDelta q.t0 q.t1 ≤ 0 then 0 else (s.elapsed.toNat : Int) + clockDelta q.t0 q.t1) ∧
      step s =
        if tmoEff s ≤ e.toNat then
          .next { s with nak := false, elapsed := e, phase := .idle, err := .timeoutError, busy := false, rx := none,
                         epoch := s.epoch + 1, inputs := rest,
                         history := .phyFlush :: (q.leftEvents (s.request r) r.stage ++ s.history) }
        else
          State.runRx rest
            { s with nak := false, elapsed := e,
                     rx := some { r with got := r.got + bs.length, ack := r.ack ++ bs, stage := .start },
                     history := q.leftEvents (s.request r) r.stage ++ s.history }

/-- 42_transceiver.md R175: in the SEEK, BODY or ACK phase a negative answer is PHY_ERROR at once: no further read is made,
the PHY is flushed and the command completes, ELAPSED and everything else unchanged. -/
def Obligations.NegativeAnswerIsPhyError : Prop :=
  ∀ (s : State) (r : Rx) (q : Poll) (rest : List Input), s.rx = some r → s.cmd = none → q.resumes r.stage →
    q.answer = .negative → s.inputs = q.left r.stage ++ rest →
    step s =
      .next { s with phase := .idle, err := .phyError, busy := false, rx := none, epoch := s.epoch + 1,
                     inputs := rest,
                     history := .phyFlush :: (q.leftEvents (s.request r) r.stage ++ s.history) }

/-- 10_state.md R40, 60_exceptions.md R285: an answer of the PHY with more bytes than the read in progress asked for is
outside the PHY's contract and faults PHY_CONTRACT, in every receive phase; an answer within the request, negative or not,
does not: the phase takes it, one event of the history with its request. -/
def Obligations.PhyAnswerContract : Prop :=
  ∀ (s : State) (r : Rx) (t0 : Word) (rest : List Input), s.rx = some r → r.stage = .reading t0 →
    (∀ bs : List Byte, s.inputs = .phy (.bytes bs) :: rest → s.request r < bs.length →
      step s = .fault .phyContract) ∧
    (∀ answer : PhyAnswer, s.inputs = .phy answer :: rest →
      (answer = .negative ∨ ∃ bs, answer = .bytes bs ∧ bs.length ≤ s.request r) →
      step s =
          State.runRx rest { s with rx := some { r with stage := .answered t0 answer },
                                    history := .phyRead (s.request r) answer :: s.history } ∧
        (rest = [] →
          step s = .next { s with rx := some { r with stage := .answered t0 answer }, inputs := [],
                                  history := .phyRead (s.request r) answer :: s.history }))

/-- 42_transceiver.md R170, 00_scope.md R13, 70_reset_and_hazards.md R300: a poll goes event by event: the clock is sampled;
the PHY answers the read; the clock is sampled again; then the FCB's turn processes it. Each primitive is one event of the
history, and between any two of them, and after the last sample with no flush made yet, a host access or a reset may come:
a host load leaves the phase where it stands, a reset ends it with no event. The model's grain between these moves is
notes/assumptions/29.md. -/
def Obligations.PollGoesMoveByMove : Prop :=
  ∀ (s : State) (r : Rx) (rest : List Input), s.rx = some r → s.cmd = none →
    (∀ i ∈ rest.head?, interrupts i = true) →
    (∀ t0, r.stage = .start → s.inputs = .clock t0 :: rest →
      step s = .next { s with rx := some { r with stage := .reading t0 }, inputs := rest,
                              history := .clock t0 :: s.history }) ∧
    (∀ t0 answer, r.stage = .reading t0 → answerFits (s.request r) answer = true → s.inputs = .phy answer :: rest →
      step s = .next { s with rx := some { r with stage := .answered t0 answer }, inputs := rest,
                              history := .phyRead (s.request r) answer :: s.history }) ∧
    (∀ t0 answer t1, r.stage = .answered t0 answer → s.inputs = .clock t1 :: rest →
      step s = .next { s with rx := some { r with stage := .ended t0 t1 answer }, inputs := rest,
                              history := .clock t1 :: s.history }) ∧
    (∀ t0 t1 answer more, r.stage = .ended t0 t1 answer → s.inputs = .fcb :: more →
      step s = State.runRx more (s.finishPoll r t0 t1 answer)) ∧
    (∀ width addr t more, s.inputs = .host (.load width addr) :: more → step s = .next t →
      t.rx = some r ∧ t.phase = s.phase ∧ t.history = s.history ∧ t.inputs = more) ∧
    (∀ more, s.inputs = .reset :: more →
      ∃ t, step s = .next t ∧ t.rx = none ∧ t.phase = .idle ∧ t.busy = false ∧ t.err = .ok ∧
        t.history = s.history ∧ t.inputs = more)

/-- 42_transceiver.md R183 to R185: RDBODY, the PHY delivering the size field and then the rest of the frame in any
pieces within the requests and the budget, stores exactly the frame's bytes in RXBUF from index 1, parses RXSIZE, sets
RXLEN to the frame's length and completes at the poll that brings the last byte, with no flush. `frame` is the frame
from byte 1 on; its first `k` polls bring exactly the size field. So it is when the command begins, and when a BODY phase
(of RDBODY or RECV) goes on, wherever in a poll it stands, with the bytes `pre` of the frame already received. -/
def Obligations.RdbodyReceivesFrame : Prop :=
  ∀ (s : State) (ps : List Poll) (last : Poll) (k : Nat) (frame : List Byte) (size : Half) (rest : List Input),
    s.params.Valid → size.toNat ≤ maxPayload s.params s.gen →
    frame.length + 1 = frameLen s.gen size.toNat → (∀ q ∈ ps ++ [last], q.succeeded = true) → last.chunk ≠ [] →
    (fieldValue s.gen (frame.take (sizeLen s.gen)) = size → chunks (ps ++ [last]) = frame →
      chunks (ps.take k) = frame.take (sizeLen s.gen) →
      withinBudget (tmoEff s) 0 ps = true → s.inputs = pollMoves (ps ++ [last]) ++ rest →
      ∃ t added, exec .rdbody s = .next t ∧
        t = { s with mem := t.mem, rxlen := BitVec.ofNat 16 (frameLen s.gen size.toNat), rxsize := size,
                     elapsed := elapsedAfter 0 ps, phase := .idle, err := .ok, busy := false, cmd := none,
                     rx := none, epoch := s.epoch + 1, inputs := rest, history := added ++ s.history } ∧
        flushes added = 0 ∧ t.holds .rx 1 frame ∧
        (∀ a, ¬ (0x3001 ≤ a ∧ a < 0x3001 + frame.length) → Memory.read t.mem a = Memory.read s.mem a)) ∧
    (∀ (r : Rx) (pre : List Byte), s.Inv → s.rx = some r → s.phase = .body → pre.length = r.got →
      s.holds .rx 1 pre → pre ++ chunks (ps ++ [last]) = frame →
      (r.target = none →
        fieldValue s.gen (frame.take (sizeLen s.gen)) = size ∧ pre ++ chunks (ps.take k) = frame.take (sizeLen s.gen)) →
      (r.target ≠ none → s.rxsize = size) →
      resumePolls r.stage (ps ++ [last]) → withinBudget (tmoEff s) s.elapsed ps = true →
      s.inputs = leftMoves r.stage (ps ++ [last]) ++ rest →
      ∃ t added, step s = .next t ∧
        t = { s with mem := t.mem, rxlen := BitVec.ofNat 16 (frameLen s.gen size.toNat), rxsize := size,
                     elapsed := elapsedAfter s.elapsed ps, phase := .idle, err := .ok, busy := false,
                     rx := none, epoch := s.epoch + 1, inputs := rest, history := added ++ s.history } ∧
        flushes added = 0 ∧ t.holds .rx 1 frame ∧
        (∀ a, ¬ (0x3001 + r.got ≤ a ∧ a < 0x3001 + frame.length) → Memory.read t.mem a = Memory.read s.mem a))

/-- 42_transceiver.md R186, R190: a size field above MAX[g], in one read or in short ones, fails the BODY phase with
PROT_ERROR before any body byte is requested: RXSIZE holds the bad size, RXLEN is 1 + SIZE_LEN[g], the field's bytes stand
in RXBUF, and the PHY is flushed. So it is for RDBODY, for RECV once it has found the start marker, and for a BODY phase (of
either) that goes on with the bytes `pre` of the size field already received. -/
def Obligations.OversizeSizeFieldFails : Prop :=
  ∀ (s : State) (ps : List Poll) (last : Poll) (field : List Byte) (size : Half) (rest : List Input),
    field.length = sizeLen s.gen → fieldValue s.gen field = size → maxPayload s.params s.gen < size.toNat →
    (∀ q ∈ ps ++ [last], q.succeeded = true) → last.chunk ≠ [] →
    (chunks (ps ++ [last]) = field → withinBudget (tmoEff s) 0 ps = true →
      s.inputs = pollMoves (ps ++ [last]) ++ rest →
      ∃ t added, exec .rdbody s = .next t ∧
        t = { s with mem := t.mem, rxlen := BitVec.ofNat 16 (1 + sizeLen s.gen), rxsize := size,
                     elapsed := elapsedAfter 0 ps, phase := .idle, err := .protError, busy := false, cmd := none,
                     rx := none, epoch := s.epoch + 1, inputs := rest, history := .phyFlush :: (added ++ s.history) } ∧
        flushes added = 0 ∧ (∀ n answer, .phyRead n answer ∈ added → n ≤ sizeLen s.gen) ∧ t.holds .rx 1 field ∧
        (∀ a, ¬ (0x3001 ≤ a ∧ a < 0x3001 + sizeLen s.gen) → Memory.read t.mem a = Memory.read s.mem a)) ∧
    (∀ (skipped : List Poll) (hit : Poll), (∀ q ∈ skipped, q.missesMarker (startMarker s.params s.gen) = true) →
      withinBudget (tmoEff s) 0 skipped = true → hit.answer = .bytes [startMarker s.params s.gen] →
      chunks (ps ++ [last]) = field → withinBudget (tmoEff s) 0 ps = true →
      s.inputs = pollMoves (skipped ++ [hit] ++ ps ++ [last]) ++ rest →
      ∃ t added, exec .recv s = .next t ∧
        t = { s with mem := t.mem, rxlen := BitVec.ofNat 16 (1 + sizeLen s.gen), rxsize := size,
                     elapsed := elapsedAfter 0 ps, phase := .idle, err := .protError, busy := false, cmd := none,
                     rx := none, epoch := s.epoch + 1, inputs := rest, history := .phyFlush :: (added ++ s.history) } ∧
        flushes added = 0 ∧ (∀ n answer, .phyRead n answer ∈ added → n ≤ sizeLen s.gen) ∧
        t.holds .rx 0 (startMarker s.params s.gen :: field) ∧
        (∀ a, ¬ (0x3000 ≤ a ∧ a < 0x3001 + sizeLen s.gen) → Memory.read t.mem a = Memory.read s.mem a)) ∧
    (∀ (r : Rx) (pre : List Byte), s.Inv → s.rx = some r → s.phase = .body → r.target = none →
      pre.length = r.got → s.holds .rx 1 pre → pre ++ chunks (ps ++ [last]) = field →
      resumePolls r.stage (ps ++ [last]) → withinBudget (tmoEff s) s.elapsed ps = true →
      s.inputs = leftMoves r.stage (ps ++ [last]) ++ rest →
      ∃ t added, step s = .next t ∧
        t = { s with mem := t.mem, rxlen := BitVec.ofNat 16 (1 + sizeLen s.gen), rxsize := size,
                     elapsed := elapsedAfter s.elapsed ps, phase := .idle, err := .protError, busy := false,
                     rx := none, epoch := s.epoch + 1, inputs := rest, history := .phyFlush :: (added ++ s.history) } ∧
        flushes added = 0 ∧ (∀ n answer, .phyRead n answer ∈ added → n ≤ sizeLen s.gen) ∧ t.holds .rx 1 field ∧
        (∀ a, ¬ (0x3001 + r.got ≤ a ∧ a < 0x3001 + sizeLen s.gen) → Memory.read t.mem a = Memory.read s.mem a))

/-- 42_transceiver.md R190, R177: RECV skips to the start marker and then receives the frame as RDBODY does, the budget
restarting at the BODY phase: RXBUF[0 .. RXLEN-1] is the frame, start marker included. So it is when the command begins, and
when its SEEK phase goes on, wherever in a poll it stands; a BODY phase of RECV that goes on is RdbodyReceivesFrame's. -/
def Obligations.RecvReceivesFrame : Prop :=
  ∀ (s : State) (skipped ps : List Poll) (hit last : Poll) (k : Nat) (frame : List Byte) (size : Half)
    (rest : List Input),
    s.params.Valid → size.toNat ≤ maxPayload s.params s.gen →
    (∀ q ∈ skipped, q.missesMarker (startMarker s.params s.gen) = true) →
    hit.answer = .bytes [startMarker s.params s.gen] →
    frame.length + 1 = frameLen s.gen size.toNat → fieldValue s.gen (frame.take (sizeLen s.gen)) = size →
    (∀ q ∈ ps ++ [last], q.succeeded = true) → chunks (ps ++ [last]) = frame →
    chunks (ps.take k) = frame.take (sizeLen s.gen) → last.chunk ≠ [] →
    withinBudget (tmoEff s) 0 ps = true →
    (withinBudget (tmoEff s) 0 skipped = true → s.inputs = pollMoves (skipped ++ [hit] ++ ps ++ [last]) ++ rest →
      ∃ t added, exec .recv s = .next t ∧
        t = { s with mem := t.mem, rxlen := BitVec.ofNat 16 (frameLen s.gen size.toNat), rxsize := size,
                     elapsed := elapsedAfter 0 ps, phase := .idle, err := .ok, busy := false, cmd := none,
                     rx := none, epoch := s.epoch + 1, inputs := rest, history := added ++ s.history } ∧
        flushes added = 0 ∧ t.holds .rx 0 (startMarker s.params s.gen :: frame) ∧
        (∀ a, ¬ (0x3000 ≤ a ∧ a < 0x3001 + frame.length) → Memory.read t.mem a = Memory.read s.mem a)) ∧
    (∀ r : Rx, s.Inv → s.rx = some r → s.phase = .seek → r.thenBody = true →
      resumePolls r.stage (skipped ++ [hit]) → withinBudget (tmoEff s) s.elapsed skipped = true →
      s.inputs = leftMoves r.stage (skipped ++ [hit] ++ ps ++ [last]) ++ rest →
      ∃ t added, step s = .next t ∧
        t = { s with mem := t.mem, rxlen := BitVec.ofNat 16 (frameLen s.gen size.toNat), rxsize := size,
                     elapsed := elapsedAfter 0 ps, phase := .idle, err := .ok, busy := false,
                     rx := none, epoch := s.epoch + 1, inputs := rest, history := added ++ s.history } ∧
        flushes added = 0 ∧ t.holds .rx 0 (startMarker s.params s.gen :: frame) ∧
        (∀ a, ¬ (0x3000 ≤ a ∧ a < 0x3001 + frame.length) → Memory.read t.mem a = Memory.read s.mem a))

/-- 44_ack.md R231 to R233: RXACK reads a three-byte record in any pieces within the budget. With a checksum field equal
to LASTCK it completes with ERR 0, ACKCK and ACKCODE written and NAK telling whether the code is not ACK_OK[g]; with
any other it flushes and fails with PROT_ERROR, ACKCK written, ACKCODE unchanged and NAK 0. Nothing else changes. So it is
when the command begins, and when its ACK phase goes on, wherever in a poll it stands, with part of the record received. -/
def Obligations.RxackReceivesRecord : Prop :=
  ∀ (s : State) (ps : List Poll) (last : Poll) (a0 a1 a2 ck : Byte) (rest : List Input),
    s.lastck = some ck → (∀ q ∈ ps ++ [last], q.succeeded = true) → last.chunk ≠ [] →
    (s.gen ≠ .g1 → chunks (ps ++ [last]) = [a0, a1, a2] → withinBudget (tmoEff s) 0 ps = true →
      s.inputs = pollMoves (ps ++ [last]) ++ rest →
      ∃ t added, exec .rxack s = .next t ∧ flushes added = 0 ∧
        (a0 = ck ∧ a1 = 0 →
          t = { s with ackck := a1 ++ a0, ackcode := a2, nak := decide (ackOk s.params s.gen ≠ some a2),
                       elapsed := elapsedAfter 0 ps, phase := .idle, err := .ok, busy := false, cmd := none,
                       rx := none, epoch := s.epoch + 1, inputs := rest, history := added ++ s.history }) ∧
        (¬ (a0 = ck ∧ a1 = 0) →
          t = { s with ackck := a1 ++ a0, nak := false, elapsed := elapsedAfter 0 ps, phase := .idle,
                       err := .protError, busy := false, cmd := none, rx := none, epoch := s.epoch + 1,
                       inputs := rest, history := .phyFlush :: (added ++ s.history) })) ∧
    (∀ r : Rx, s.Inv → s.rx = some r → s.phase = .ack → r.ack ++ chunks (ps ++ [last]) = [a0, a1, a2] →
      resumePolls r.stage (ps ++ [last]) → withinBudget (tmoEff s) s.elapsed ps = true →
      s.inputs = leftMoves r.stage (ps ++ [last]) ++ rest →
      ∃ t added, step s = .next t ∧ flushes added = 0 ∧
        (a0 = ck ∧ a1 = 0 →
          t = { s with ackck := a1 ++ a0, ackcode := a2, nak := decide (ackOk s.params s.gen ≠ some a2),
                       elapsed := elapsedAfter s.elapsed ps, phase := .idle, err := .ok, busy := false,
                       rx := none, epoch := s.epoch + 1, inputs := rest, history := added ++ s.history }) ∧
        (¬ (a0 = ck ∧ a1 = 0) →
          t = { s with ackck := a1 ++ a0, nak := false, elapsed := elapsedAfter s.elapsed ps, phase := .idle,
                       err := .protError, busy := false, rx := none, epoch := s.epoch + 1,
                       inputs := rest, history := .phyFlush :: (added ++ s.history) }))

/-- 44_ack.md R236: RXACK in generation 1 is ILLEGAL: no PHY event, and nothing but STATUS.ERR and BUSY changes. -/
def Obligations.RxackIllegalInGeneration1 : Prop :=
  ∀ s : State, s.phase = .idle → s.rx = none → s.gen = .g1 →
    exec .rxack s = .next { s with err := .illegal, busy := false, cmd := none, epoch := s.epoch + 1 }

/-- 10_state.md R33: RXACK before LASTCK holds a value faults UNWRITTEN (in generations 2 and 3). -/
def Obligations.RxackNeedsLastck : Prop :=
  ∀ s : State, s.gen ≠ .g1 → s.lastck = none → exec .rxack s = .fault .unwritten

/-- 44_ack.md R235 and R231, 10_state.md R30: a step that begins or continues an RXACK and does not complete it, or completes
it with PHY_ERROR, TIMEOUT_ERROR or ILLEGAL, leaves ACKCK and ACKCODE unchanged: no field of the record is compared or stored
before all three bytes have come. An RXACK refused in generation 1 leaves NAK unchanged; any other has cleared it while it
runs and when it fails. RXACK writes no buffer and no register but PHASE, ELAPSED, ACKCK, ACKCODE, NAK and STATUS.ERR and
BUSY. -/
def Obligations.RxackFrame : Prop :=
  ∀ s t : State, s.Inv → step s = .next t → interrupts (nextMove s) = false →
    begins s .rxack ∨ running s [.ack] →
    (t.busy = true ∨ t.err ∈ [ErrCode.phyError, .timeoutError, .illegal] →
      t.ackck = s.ackck ∧ t.ackcode = s.ackcode) ∧
    (begins s .rxack → s.gen = .g1 → t.nak = s.nak) ∧
    (s.gen ≠ .g1 → t.busy = true ∨ t.err ≠ .ok → t.nak = false) ∧
    t.mem = s.mem ∧ t.params = s.params ∧ t.gen = s.gen ∧ t.timeout = s.timeout ∧ t.cken = s.cken ∧
    t.msgend = s.msgend ∧ t.cksum = s.cksum ∧ t.lastck = s.lastck ∧ t.frlen = s.frlen ∧ t.rxlen = s.rxlen ∧
    t.rxsize = s.rxsize ∧ t.rxck = s.rxck ∧ t.hostData = s.hostData

/-- 42_transceiver.md R180, R183, R185, R190: a step that begins or continues SEEK, RDBODY or RECV stores only to the bytes
of RXBUF that RXLEN then counts (RDBODY and a BODY phase not to RXBUF[0]) and writes no register but PHASE, ELAPSED, RXLEN,
RXSIZE and STATUS.ERR and BUSY; SEEK, when it begins and when it goes on, does not write RXSIZE; RXLEN never passes the
buffer. -/
def Obligations.ReceiveFrame : Prop :=
  ∀ s t : State, s.Inv → step s = .next t → interrupts (nextMove s) = false →
    begins s .seek ∨ begins s .rdbody ∨ begins s .recv ∨ running s [.seek, .body] →
    (∀ a, ¬ (0x3000 ≤ a ∧ a < 0x3000 + t.rxlen.toNat) → Memory.read t.mem a = Memory.read s.mem a) ∧
    (begins s .rdbody ∨ running s [.body] → Memory.read t.mem 0x3000 = Memory.read s.mem 0x3000) ∧
    (begins s .seek ∨ (running s [.seek] ∧ s.rx.any (fun r => r.thenBody) = false) → t.rxsize = s.rxsize) ∧
    t.rxlen.toNat ≤ s.params.bufBytes ∧
    t.params = s.params ∧ t.gen = s.gen ∧ t.timeout = s.timeout ∧ t.cken = s.cken ∧ t.msgend = s.msgend ∧
    t.nak = s.nak ∧ t.cksum = s.cksum ∧ t.lastck = s.lastck ∧ t.frlen = s.frlen ∧ t.rxck = s.rxck ∧
    t.ackcode = s.ackcode ∧ t.ackck = s.ackck ∧ t.hostData = s.hostData

/-- 60_exceptions.md R279: the step in which a receive command completes with PHY_ERROR, PROT_ERROR or TIMEOUT_ERROR flushes
the PHY exactly once, as its last event; no other step flushes, be it any other completion, a DECODE PROT_ERROR, a host
access or a reset. -/
def Obligations.FlushExactlyOnError : Prop :=
  ∀ s t : State, s.Inv → step s = .next t →
    (receives s ∧ t.busy = false ∧ t.err.flushed = true →
      ∃ added, t.history = .phyFlush :: (added ++ s.history) ∧ flushes added = 0) ∧
    (¬ (receives s ∧ t.busy = false ∧ t.err.flushed = true) →
      ∃ added, t.history = added ++ s.history ∧ flushes added = 0)

/-- 42_transceiver.md R184, and R170, R182 and 44_ack.md R231 for the other phases: the request of a poll is at least 1; in
the BODY phase it is the size bytes still missing, or, once the size field is complete and within `MAX[g]`, the frame bytes
still missing; it is 1 in the SEEK phase and the record bytes still missing in the ACK phase. -/
def Obligations.RequestsWhatIsMissing : Prop :=
  ∀ (s : State) (r : Rx), s.Inv → s.rx = some r →
    1 ≤ s.request r ∧
    (s.phase = .seek → s.request r = 1) ∧
    (s.phase = .body → r.target = none → r.got < sizeLen s.gen ∧ r.got + s.request r = sizeLen s.gen) ∧
    (s.phase = .body → r.target ≠ none →
      sizeLen s.gen ≤ r.got ∧ 1 + r.got + s.request r = frameLen s.gen s.rxsize.toNat ∧
        s.rxsize.toNat ≤ maxPayload s.params s.gen) ∧
    (s.phase = .ack → r.got + s.request r = 3)

/-! ### The whole machine -/

/-- Every step keeps the invariant, from every state that meets it. -/
def Obligations.StepKeepsInv : Prop :=
  ∀ s t : State, s.Inv → step s = .next t → t.Inv

/-- The state after reset meets the invariant, whatever the OPEN parameters are. -/
def Obligations.ResetMeetsInv : Prop := State.reset.Inv

/-- 10_state.md R23 to R41 (the "written only by" clauses), 41_codec.md R141: but for hardware reset, a step changes GEN only
when it begins SETGEN, TIMEOUT only SETTMO, CKEN only SETCK, CKSUM only CKSUM, LASTCK and FRLEN only ENCODE, MSGEND and RXCK
only DECODE, NAK, ACKCODE and ACKCK only RXACK, RXLEN only SEEK, RDBODY and RECV, RXSIZE only RDBODY, RECV and DECODE,
ELAPSED and PHASE only the receive commands; the parameters never. STATUS.ERR and STATUS.BUSY are
StatusBitsWrittenOnlyByTheirCauses's. -/
def Obligations.RegistersWrittenOnlyByTheirCommands : Prop :=
  ∀ s t : State, s.Inv → step s = .next t → nextMove s ≠ .reset →
    t.params = s.params ∧
    (t.gen ≠ s.gen → ∃ gen, begins s (.setgen gen)) ∧
    (t.timeout ≠ s.timeout → ∃ ms, begins s (.settmo ms)) ∧
    (t.cken ≠ s.cken → ∃ en, begins s (.setck en)) ∧
    (t.cksum ≠ s.cksum → ∃ sel n, begins s (.cksum sel n)) ∧
    (t.lastck ≠ s.lastck ∨ t.frlen ≠ s.frlen → ∃ size, begins s (.encode size)) ∧
    (t.msgend ≠ s.msgend ∨ t.rxck ≠ s.rxck → ∃ n, begins s (.decode n)) ∧
    (t.nak ≠ s.nak ∨ t.ackcode ≠ s.ackcode ∨ t.ackck ≠ s.ackck → begins s .rxack ∨ running s [.ack]) ∧
    (t.rxlen ≠ s.rxlen → begins s .seek ∨ begins s .rdbody ∨ begins s .recv ∨ running s [.seek, .body]) ∧
    (t.rxsize ≠ s.rxsize →
      (∃ n, begins s (.decode n)) ∨ begins s .rdbody ∨ begins s .recv ∨ running s [.seek, .body]) ∧
    (t.elapsed ≠ s.elapsed ∨ t.phase ≠ s.phase →
      begins s .seek ∨ begins s .rdbody ∨ begins s .recv ∨ begins s .rxack ∨ running s [.seek, .body, .ack])

/-- 10_state.md R27 to R30: but for hardware reset, STATUS.ERR changes only in a step in which a command completes;
STATUS.BUSY is set only by a host write to CMD while it is 0, which captures the command, and cleared only by the completion
of a captured command on the FCB's turn or of a running receive command; MSGEND is written only by a DECODE that is not
refused as ILLEGAL, 1 only where it accepts a frame whose size is less than MAX[g]; NAK is written only by an RXACK that is
not refused, 1 only where it completes with OK. -/
def Obligations.StatusBitsWrittenOnlyByTheirCauses : Prop :=
  ∀ s t : State, s.Inv → step s = .next t → nextMove s ≠ .reset →
    (t.err ≠ s.err → s.busy = true ∧ t.busy = false) ∧
    (s.busy = false → t.busy = true →
      ∃ w, nextMove s = .host (.store 4 0 w) ∧ t = { s with busy := true, cmd := some w, inputs := t.inputs,
                                                            drawn := t.drawn }) ∧
    (s.busy = true → t.busy = false →
      interrupts (nextMove s) = false ∧ t.phase = .idle ∧ t.cmd = none ∧ t.rx = none ∧
        ((nextMove s = .fcb ∧ s.cmd ≠ none) ∨ s.rx ≠ none)) ∧
    (t.msgend ≠ s.msgend → (∃ n, begins s (.decode n)) ∧ t.busy = false ∧ t.err ≠ .illegal ∧
      (t.msgend = true → t.err = .ok ∧ t.rxsize.toNat < maxPayload s.params s.gen)) ∧
    (t.nak ≠ s.nak → (begins s .rxack ∨ running s [.ack]) ∧ s.gen ≠ .g1 ∧
      (t.nak = true → t.busy = false ∧ t.err = .ok ∧ ackOk s.params s.gen ≠ some t.ackcode))

/-- 20_memory.md R62: but for hardware reset, a step changes what a buffer byte holds only if the host stores to that
byte, or ENCODE begins and the byte is in FRAMEBUF's frame, or a receive command begins or runs and the byte is in
RXBUF. -/
def Obligations.BuffersWrittenOnlyByTheirWriters : Prop :=
  ∀ (s t : State) (a : Nat), s.Inv → step s = .next t → nextMove s ≠ .reset →
    Memory.read t.mem a ≠ Memory.read s.mem a →
    (∃ width addr v, nextMove s = .host (.store width addr v) ∧ addr.toNat ≤ a ∧ a < addr.toNat + width ∧
      isBufferByte s.params a = true ∧ s.busy = false) ∨
    (∃ size, begins s (.encode size) ∧ 0x2000 ≤ a ∧ a < 0x2000 + frameLen s.gen size.toNat) ∨
    ((begins s .seek ∨ begins s .rdbody ∨ begins s .recv ∨ running s [.seek, .body]) ∧
      0x3000 ≤ a ∧ a < 0x3000 + s.params.bufBytes)

/-- 60_exceptions.md R285, 10_state.md R40: from a state that meets the invariant a step faults only as the spec's table says:
HOST_ACCESS for a host access R64 does not allow; HOST_RACE for a host store to a buffer while BUSY; UNWRITTEN when a CKSUM,
ENCODE or DECODE begins that is not refused and a byte it reads holds no value, or an RXACK that is not refused begins and
LASTCK holds none; PHY_CONTRACT when a move the step comes to is an answer of the PHY with more bytes than the read in
progress asked for. `u` is the state in which that answer comes: `s` itself, or where the step stands after the moves `pre`
before it. -/
def Obligations.FaultsOnlyForListedCauses : Prop :=
  ∀ (s : State) (f : Fault), s.Inv → step s = .fault f →
    match f with
    | .hostAccess =>
      (∃ width addr, nextMove s = .host (.load width addr) ∧ accessAllowed width addr = false) ∨
      (∃ width addr v, nextMove s = .host (.store width addr v) ∧ accessAllowed width addr = false)
    | .hostRace =>
      s.busy = true ∧ ∃ width addr v, nextMove s = .host (.store width addr v) ∧
        touchesBuffer s.params width addr.toNat = true
    | .unwritten =>
      (∃ (sel : BitVec 1) (n : Half), begins s (.cksum sel n) ∧ n.toNat ≤ s.params.bufBytes ∧
        s.lacks (if sel = 0 then .tx else .rx) 0 n.toNat) ∨
      (∃ size : Half, begins s (.encode size) ∧ size.toNat ≤ maxPayload s.params s.gen ∧
        s.lacks .tx 0 (bodyLen s.gen size.toNat)) ∨
      (∃ n : Half, begins s (.decode n) ∧ n.toNat ≤ s.params.bufBytes ∧ 1 + sizeLen s.gen ≤ n.toNat ∧
        (s.lacks .rx 1 (sizeLen s.gen) ∨
          ∃ field : List Byte, field.length = sizeLen s.gen ∧ s.holds .rx 1 field ∧
            (fieldValue s.gen field).toNat ≤ maxPayload s.params s.gen ∧
            frameLen s.gen (fieldValue s.gen field).toNat ≤ n.toNat ∧
            s.lacks .rx 1 (frameLen s.gen (fieldValue s.gen field).toNat - 1))) ∨
      (begins s .rxack ∧ s.gen ≠ .g1 ∧ s.lastck = none)
    | .phyContract =>
      ∃ (pre post : List Input) (bs : List Byte) (u : State) (r : Rx) (t0 : Word),
        nextMove s :: s.inputs.tail = pre ++ .phy (.bytes bs) :: post ∧
        ((pre = [] ∧ u = s) ∨ (pre ≠ [] ∧ step { s with inputs := pre } = .next u)) ∧
        u.rx = some r ∧ r.stage = .reading t0 ∧ u.request r < bs.length

/-- No step of the machine is refused: every command has its meaning. -/
def Obligations.NoStepIsRefused : Prop :=
  ∀ (s : State) (e : Refusal), step s ≠ .refused e

/-! ### Host port and reset -/

/-- 20_memory.md R64: a host access is allowed exactly when it is 32 bits wide at a multiple of 4 in the register window,
or 8, 16 or 32 bits wide at a multiple of its width elsewhere; any other access faults HOST_ACCESS. That reserved ranges take
the widths of the buffer windows is the model's reading (notes/assumptions/9.md, DEDUCED). -/
def Obligations.AccessRule : Prop :=
  ∀ (s : State) (width : Nat) (addr : BitVec 16) (v : Word) (rest : List Input),
    let allowed := (addr.toNat < 0x40 ∧ width = 4 ∧ 4 ∣ addr.toNat) ∨
      (0x40 ≤ addr.toNat ∧ width ∈ [1, 2, 4] ∧ width ∣ addr.toNat)
    (¬ allowed →
      step { s with inputs := .host (.load width addr) :: rest } = .fault .hostAccess ∧
      step { s with inputs := .host (.store width addr v) :: rest } = .fault .hostAccess) ∧
    (allowed →
      (∃ t, step { s with inputs := .host (.load width addr) :: rest } = .next t) ∧
      (s.busy = false → ∃ t, step { s with inputs := .host (.store width addr v) :: rest } = .next t))

/-- 20_memory.md R66: an allowed store to buffer bytes while idle puts byte v[8i+7:8i] at address a + i and changes no other
byte and no register; a load of n bytes that hold values returns the sum of byte i times 2^(8i), zero-extended, and changes
nothing but what the host sees. -/
def Obligations.LittleEndianStoreLoad : Prop :=
  ∀ (s : State) (width : Nat) (addr : BitVec 16), s.busy = false →
    accessAllowed width addr = true → (∀ i, i < width → isBufferByte s.params (addr.toNat + i) = true) →
    (∀ v : Word, ∃ t, hostAccess s (.store width addr v) = .next t ∧ t = { s with mem := t.mem } ∧
      (∀ i, i < width → Memory.read t.mem (addr.toNat + i) = some (v.extractLsb' (8 * i) 8)) ∧
      (∀ a, ¬ (addr.toNat ≤ a ∧ a < addr.toNat + width) → Memory.read t.mem a = Memory.read s.mem a)) ∧
    (∀ bs : List Byte, bs.length = width →
      (∀ i, ∀ h : i < bs.length, Memory.read s.mem (addr.toNat + i) = some bs[i]) →
      ∃ u, hostAccess s (.load width addr) = .next u ∧ u = { s with hostData := u.hostData } ∧
        u.hostData.toNat = ((List.range width).map (fun i => (bs.getD i 0).toNat * 2 ^ (8 * i))).sum)

/-- 20_memory.md R61, R63 and 10_state.md R22: reserved addresses and offset 0x3C read 0 and ignore writes; a register other
than CMD ignores writes. That offset 0x3C reads 0 also while BUSY is the model's reading (notes/assumptions/7.md, DEDUCED), and
so is that a reserved range outside the register window answers 8-, 16- and 32-bit accesses (notes/assumptions/9.md,
DEDUCED). -/
def Obligations.ReservedAndReadOnly : Prop :=
  ∀ (s : State) (width : Nat) (addr : BitVec 16) (v : Word), accessAllowed width addr = true →
    ((∀ i, i < width → regionOf s.params (addr.toNat + i) = .reserved) ∨ addr.toNat = 0x3C →
      hostAccess s (.load width addr) = .next { s with hostData := 0 } ∧
      hostAccess s (.store width addr v) = .next s) ∧
    (0 < addr.toNat → addr.toNat < 0x40 → hostAccess s (.store width addr v) = .next s)

/-- 10_state.md R31: a write of w to CMD while BUSY = 0 sets BUSY and starts the command w; while BUSY = 1 it changes nothing;
a read of CMD returns 0. That the command begins on the FCB's turn is the model's move (notes/assumptions/2.md), and that CMD
reads 0 also while BUSY is its reading of R31 beside R74's draw (notes/assumptions/7.md, DEDUCED). -/
def Obligations.CmdWrite : Prop :=
  ∀ (s : State) (w : Word),
    (s.busy = false →
      hostAccess s (.store 4 0 w) = .next { s with busy := true, cmd := some w } ∧
      (∀ rest, step { s with busy := true, cmd := some w, inputs := .fcb :: rest } =
        startCommand { s with busy := true, cmd := some w, inputs := rest } w)) ∧
    (s.busy = true → hostAccess s (.store 4 0 w) = .next s) ∧
    hostAccess s (.load 4 0) = .next { s with hostData := 0 }

/-- 10_state.md R22, R27 to R30 and 20_memory.md R74: a load of STATUS returns ERR in bits 2:0, BUSY in bit 3, MSGEND in
bit 4 and NAK in bit 5, all other bits 0, idle or while a receive command runs. -/
def Obligations.StatusLayout : Prop :=
  ∀ s : State, s.cmd = none →
    ∃ t, hostAccess s (.load 4 4) = .next t ∧ t = { s with hostData := t.hostData } ∧
      t.hostData.toNat = s.err.code.toNat + 8 * s.busy.toNat + 16 * s.msgend.toNat + 32 * s.nak.toNat

/-- 20_memory.md R74 with 41_codec.md R150 and 44_ack.md R231: while a captured DECODE that is not refused runs, a load of
STATUS shows MSGEND 0, and while such an RXACK runs it shows NAK 0; while a DECODE or RXACK that will be refused, an illegal
word or any other command is there, both flags show as they stand; ERR and BUSY always do. That the flag shows cleared, or
standing, from the CMD write on, before the command's turn has come, is the model's reading (notes/assumptions/5.md,
DEDUCED). -/
def Obligations.StatusWhileStarting : Prop :=
  ∀ (s : State) (w : Word), s.busy = true → s.cmd = some w →
    ∃ t, hostAccess s (.load 4 4) = .next t ∧ t = { s with hostData := t.hostData } ∧
      (∀ n : Half, decode w = .ok (.decode n) → n.toNat ≤ s.params.bufBytes →
        t.hostData.toNat = s.err.code.toNat + 8 + 32 * s.nak.toNat) ∧
      (decode w = .ok .rxack → s.gen ≠ .g1 → s.lastck ≠ none →
        t.hostData.toNat = s.err.code.toNat + 8 + 16 * s.msgend.toNat) ∧
      ((∃ e, decode w = .error e) ∨ (∃ n : Half, decode w = .ok (.decode n) ∧ s.params.bufBytes < n.toNat) ∨
          (decode w = .ok .rxack ∧ (s.gen = .g1 ∨ s.lastck = none)) ∨
          (∃ i : Instr, decode w = .ok i ∧ (∀ n : Half, i ≠ .decode n) ∧ i ≠ .rxack) →
        t.hostData.toNat = s.err.code.toNat + 8 + 16 * s.msgend.toNat + 32 * s.nak.toNat)

/-- 20_memory.md R74, 70_reset_and_hazards.md R310: a host store that touches a buffer byte while BUSY = 1 faults
HOST_RACE. -/
def Obligations.BufferStoreWhileBusyRaces : Prop :=
  ∀ (s : State) (width i : Nat) (addr : BitVec 16) (v : Word), s.busy = true → accessAllowed width addr = true →
    i < width → isBufferByte s.params (addr.toNat + i) = true →
    hostAccess s (.store width addr v) = .fault .hostRace

/-- 20_memory.md R65: a host load changes nothing but what it returns (and the index of the model's fresh free values);
two loads of one address in a row return the same value, except ELAPSED and PHASE read while BUSY = 1. -/
def Obligations.LoadsHaveNoSideEffect : Prop :=
  ∀ (s t u : State) (width : Nat) (addr : BitVec 16),
    hostAccess s (.load width addr) = .next t → hostAccess t (.load width addr) = .next u →
    t = { s with hostData := t.hostData, draws := t.draws } ∧
    (s.busy = false ∨ (addr.toNat ≠ 0x34 ∧ addr.toNat ≠ 0x38) → u.hostData = t.hostData ∧ t.draws = s.draws)

/-- 10_state.md R22: the idle register map: a load of each register's offset returns its field. -/
def Obligations.RegisterMap : Prop :=
  ∀ s : State, s.busy = false →
    (∀ (addr : BitVec 16) (v : Word),
      (addr, v) ∈ [(0x08, (genCode s.gen).setWidth 32), (0x0C, s.timeout.setWidth 32),
        (0x10, if s.cken then 1 else 0), (0x14, s.cksum.setWidth 32), (0x1C, s.frlen.setWidth 32),
        (0x20, s.rxlen.setWidth 32), (0x24, s.rxsize.setWidth 32), (0x28, s.rxck.setWidth 32),
        (0x2C, s.ackcode.setWidth 32), (0x30, s.ackck.setWidth 32), (0x34, s.elapsed),
        (0x38, s.phase.code.setWidth 32)] →
      hostAccess s (.load 4 addr) = .next { s with hostData := v }) ∧
    (∀ c : Byte, s.lastck = some c → hostAccess s (.load 4 0x18) = .next { s with hostData := c.setWidth 32 })

/-- 70_reset_and_hazards.md R300 to R302: hardware reset, from any state and with any command running, leaves every
register at the table's value, no buffer byte with a value, no hidden state, and makes no clock or PHY event; an answer
that comes afterwards is not seen; LASTCK has no value. -/
def Obligations.HardwareReset : Prop :=
  ∀ (s : State) (rest : List Input), s.inputs = .reset :: rest →
    ∃ t, step s = .next t ∧
      t.err = .ok ∧ t.busy = false ∧ t.msgend = false ∧ t.nak = false ∧ t.gen = .g1 ∧ t.timeout = 0 ∧
      t.cken = true ∧ t.cksum = 0 ∧ t.lastck = none ∧ t.frlen = 0 ∧ t.rxlen = 0 ∧ t.rxsize = 0 ∧ t.rxck = 0 ∧
      t.ackcode = 0 ∧ t.ackck = 0 ∧ t.elapsed = 0 ∧ t.phase = .idle ∧ t.cmd = none ∧ t.rx = none ∧
      (∀ a, Memory.read t.mem a = none) ∧ t.params = s.params ∧ t.history = s.history ∧ t.inputs = rest ∧
      (∀ answer more, step { t with inputs := .phy answer :: more } = .next { t with inputs := more }) ∧
      (∀ g, g ≠ Gen.g1 → exec .rxack { t with gen := g } = .fault .unwritten)

/-- 70_reset_and_hazards.md R300, R301: the registers and buffers of the state after reset. -/
def Obligations.ResetRegisters : Prop :=
  State.reset.err = .ok ∧ State.reset.busy = false ∧ State.reset.msgend = false ∧ State.reset.nak = false ∧
  State.reset.gen = .g1 ∧ State.reset.timeout = 0 ∧ State.reset.cken = true ∧ State.reset.cksum = 0 ∧
  State.reset.lastck = none ∧ State.reset.frlen = 0 ∧ State.reset.rxlen = 0 ∧ State.reset.rxsize = 0 ∧
  State.reset.rxck = 0 ∧ State.reset.ackcode = 0 ∧ State.reset.ackck = 0 ∧ State.reset.elapsed = 0 ∧
  State.reset.phase = .idle ∧ (∀ a, Memory.read State.reset.mem a = none) ∧
  tmoEff State.reset = State.reset.params.defaultTimeoutMs

/-! ### Messages -/

/-- 43_message.md R210, R211: a message of n bytes is cut into floor(n / MAX[g]) full frames and exactly one short frame,
in order, whose bytes together are the message; the end-of-message predicate holds of the last frame only. -/
def Obligations.SegmentationSound : Prop :=
  ∀ (p : Params) (g : Gen) (msg : List Byte), p.Valid →
    ∃ full short, segmentMessage p g msg = full ++ [short] ∧
      full.length = msg.length / maxPayload p g ∧
      (∀ f ∈ full, f.length = maxPayload p g ∧ endsMessage p g f.length = false) ∧
      short.length = msg.length % maxPayload p g ∧ endsMessage p g short.length = true ∧
      (segmentMessage p g msg).flatten = msg

/-- 43_message.md R213, R214: reassembling the frames of a message gives the message back when the caller has room for
it, and its first `room` bytes otherwise; frames after the short one are not read. -/
def Obligations.ReassemblyGivesMessage : Prop :=
  ∀ (p : Params) (g : Gen) (msg : List Byte) (room : Nat) (more : List (List Byte)), p.Valid →
    reassemble p g room (segmentMessage p g msg ++ more) = msg.take room
end

