-- ==== Sys2Proof/Laws/Decode.lean ====
section
/-! SUPPORT. The decoder's and encoder's small lemmas (30_encoding.md R90 to R92). -/

namespace Sys2Proof

@[simp] theorem opOfCode_code (op : Op) : opOfCode op.code = some op := by cases op <;> rfl

/-- An OP field names an opcode exactly when it is that opcode's number. -/
theorem opOfCode_eq_some {c : Byte} {op : Op} (h : opOfCode c = some op) : c = op.code := by
  unfold opOfCode at h
  repeat' split at h
  all_goals first
    | (cases h; assumption)
    | cases h

/-- The fields of a word put together from them. -/
@[simp] theorem opField_append (arg : Arg) (op : Byte) : opField (arg ++ op : Word) = op := by
  apply BitVec.eq_of_toNat_eq
  simp only [opField, BitVec.extractLsb'_toNat, BitVec.toNat_append, Nat.shiftRight_zero, Nat.shiftLeft_eq]
  rw [Nat.mul_comm, ← Nat.two_pow_add_eq_or_of_lt op.isLt]
  have := op.isLt
  omega

@[simp] theorem argField_append (arg : Arg) (op : Byte) : argField (arg ++ op : Word) = arg := by
  apply BitVec.eq_of_toNat_eq
  simp only [argField, BitVec.extractLsb'_toNat, BitVec.toNat_append, Nat.shiftLeft_eq, Nat.shiftRight_eq_div_pow]
  rw [Nat.mul_comm, ← Nat.two_pow_add_eq_or_of_lt op.isLt]
  have := op.isLt
  have := arg.isLt
  omega

/-- A word is its fields put together (30_encoding.md R90). -/
theorem append_fields (w : Word) : (argField w ++ opField w : Word) = w := by
  apply BitVec.eq_of_toNat_eq
  simp only [opField, argField, BitVec.extractLsb'_toNat, BitVec.toNat_append, Nat.shiftLeft_eq,
    Nat.shiftRight_eq_div_pow]
  rw [Nat.mul_comm, ← Nat.two_pow_add_eq_or_of_lt (by omega)]
  have := w.isLt
  omega

/-- The operand fields of a CKSUM ARG put together from them (30_encoding.md R92). -/
theorem cksumArg_fields (sel : BitVec 1) (n : Half) :
    argSel (0#7 ++ sel ++ n) = sel ∧ argHalf (0#7 ++ sel ++ n) = n ∧
      (0#7 ++ sel ++ n : Arg).extractLsb' 17 7 = 0 := by
  have h1 := sel.isLt
  have h2 := n.isLt
  have h : (0#7 ++ sel ++ n : Arg).toNat = 2 ^ 16 * sel.toNat + n.toNat := by
    simp only [BitVec.toNat_append, Nat.shiftLeft_eq, BitVec.toNat_zero, Nat.zero_mul, Nat.zero_or]
    rw [Nat.mul_comm, ← Nat.two_pow_add_eq_or_of_lt n.isLt]
  refine ⟨?_, ?_, ?_⟩ <;> apply BitVec.eq_of_toNat_eq <;>
    simp only [argSel, argHalf, BitVec.extractLsb'_toNat, h, Nat.shiftRight_eq_div_pow, BitVec.ofNat_eq_ofNat,
      BitVec.toNat_zero] <;> omega

/-- The operand field of an ENCODE or DECODE ARG put together from it (30_encoding.md R92). -/
theorem halfArg_fields (n : Half) :
    argHalf (0#8 ++ n) = n ∧ (0#8 ++ n : Arg).extractLsb' 16 8 = 0 := by
  have h2 := n.isLt
  have h : (0#8 ++ n : Arg).toNat = n.toNat := by
    simp only [BitVec.toNat_append, Nat.shiftLeft_eq, BitVec.toNat_zero, Nat.zero_mul, Nat.zero_or]
  refine ⟨?_, ?_⟩ <;> apply BitVec.eq_of_toNat_eq <;>
    simp only [argHalf, BitVec.extractLsb'_toNat, h, Nat.shiftRight_eq_div_pow, BitVec.ofNat_eq_ofNat,
      BitVec.toNat_zero] <;> omega

/-- A CKSUM ARG whose reserved bits are 0 is its operand fields put together (30_encoding.md R92). -/
theorem cksumArg_of_fields {arg : Arg} (h : arg.extractLsb' 17 7 = 0) : 0#7 ++ argSel arg ++ argHalf arg = arg := by
  have h1 := congrArg BitVec.toNat h
  have h2 := arg.isLt
  have h3 := (argHalf arg).isLt
  simp only [BitVec.extractLsb'_toNat, Nat.shiftRight_eq_div_pow, BitVec.ofNat_eq_ofNat, BitVec.toNat_ofNat] at h1
  apply BitVec.eq_of_toNat_eq
  simp only [BitVec.toNat_append, Nat.shiftLeft_eq, BitVec.toNat_ofNat, Nat.zero_mod, Nat.zero_mul, Nat.zero_or]
  rw [Nat.mul_comm, ← Nat.two_pow_add_eq_or_of_lt h3]
  simp only [argSel, argHalf, BitVec.extractLsb'_toNat, Nat.shiftRight_eq_div_pow]
  omega

/-- An ENCODE or DECODE ARG whose reserved bits are 0 is its operand field extended (30_encoding.md R92). -/
theorem halfArg_of_fields {arg : Arg} (h : arg.extractLsb' 16 8 = 0) : 0#8 ++ argHalf arg = arg := by
  have h1 := congrArg BitVec.toNat h
  have h2 := arg.isLt
  simp only [BitVec.extractLsb'_toNat, Nat.shiftRight_eq_div_pow, BitVec.ofNat_eq_ofNat, BitVec.toNat_ofNat] at h1
  apply BitVec.eq_of_toNat_eq
  simp only [BitVec.toNat_append, Nat.shiftLeft_eq, BitVec.toNat_ofNat, Nat.zero_mod, Nat.zero_mul, Nat.zero_or]
  simp only [argHalf, BitVec.extractLsb'_toNat, Nat.shiftRight_eq_div_pow]
  omega

end Sys2Proof
end

