-- ==== Sys2Proof/Laws/State.lean ====
section
/-! SUPPORT. What each named update of the state leaves in each field: one lemma a field, true by rfl. -/

namespace Sys2Proof.Machine

/-! ### `s.complete e` -/

@[simp] theorem complete_params (s : State) (e : ErrCode) : (s.complete e).params = s.params := rfl
@[simp] theorem complete_gen (s : State) (e : ErrCode) : (s.complete e).gen = s.gen := rfl
@[simp] theorem complete_timeout (s : State) (e : ErrCode) : (s.complete e).timeout = s.timeout := rfl
@[simp] theorem complete_cken (s : State) (e : ErrCode) : (s.complete e).cken = s.cken := rfl
@[simp] theorem complete_err (s : State) (e : ErrCode) : (s.complete e).err = e := rfl
@[simp] theorem complete_busy (s : State) (e : ErrCode) : (s.complete e).busy = false := rfl
@[simp] theorem complete_msgend (s : State) (e : ErrCode) : (s.complete e).msgend = s.msgend := rfl
@[simp] theorem complete_nak (s : State) (e : ErrCode) : (s.complete e).nak = s.nak := rfl
@[simp] theorem complete_cksum (s : State) (e : ErrCode) : (s.complete e).cksum = s.cksum := rfl
@[simp] theorem complete_lastck (s : State) (e : ErrCode) : (s.complete e).lastck = s.lastck := rfl
@[simp] theorem complete_frlen (s : State) (e : ErrCode) : (s.complete e).frlen = s.frlen := rfl
@[simp] theorem complete_rxlen (s : State) (e : ErrCode) : (s.complete e).rxlen = s.rxlen := rfl
@[simp] theorem complete_rxsize (s : State) (e : ErrCode) : (s.complete e).rxsize = s.rxsize := rfl
@[simp] theorem complete_rxck (s : State) (e : ErrCode) : (s.complete e).rxck = s.rxck := rfl
@[simp] theorem complete_ackcode (s : State) (e : ErrCode) : (s.complete e).ackcode = s.ackcode := rfl
@[simp] theorem complete_ackck (s : State) (e : ErrCode) : (s.complete e).ackck = s.ackck := rfl
@[simp] theorem complete_elapsed (s : State) (e : ErrCode) : (s.complete e).elapsed = s.elapsed := rfl
@[simp] theorem complete_phase (s : State) (e : ErrCode) : (s.complete e).phase = .idle := rfl
@[simp] theorem complete_mem (s : State) (e : ErrCode) : (s.complete e).mem = s.mem := rfl
@[simp] theorem complete_cmd (s : State) (e : ErrCode) : (s.complete e).cmd = none := rfl
@[simp] theorem complete_rx (s : State) (e : ErrCode) : (s.complete e).rx = none := rfl
@[simp] theorem complete_inputs (s : State) (e : ErrCode) : (s.complete e).inputs = s.inputs := rfl
@[simp] theorem complete_drawn (s : State) (e : ErrCode) : (s.complete e).drawn = s.drawn := rfl
@[simp] theorem complete_epoch (s : State) (e : ErrCode) : (s.complete e).epoch = s.epoch + 1 := rfl
@[simp] theorem complete_draws (s : State) (e : ErrCode) : (s.complete e).draws = s.draws := rfl
@[simp] theorem complete_hostData (s : State) (e : ErrCode) : (s.complete e).hostData = s.hostData := rfl
@[simp] theorem complete_history (s : State) (e : ErrCode) : (s.complete e).history = s.history := rfl

/-! ### `s.note e` -/

@[simp] theorem note_params (s : State) (e : Event) : (s.note e).params = s.params := rfl
@[simp] theorem note_gen (s : State) (e : Event) : (s.note e).gen = s.gen := rfl
@[simp] theorem note_timeout (s : State) (e : Event) : (s.note e).timeout = s.timeout := rfl
@[simp] theorem note_cken (s : State) (e : Event) : (s.note e).cken = s.cken := rfl
@[simp] theorem note_err (s : State) (e : Event) : (s.note e).err = s.err := rfl
@[simp] theorem note_busy (s : State) (e : Event) : (s.note e).busy = s.busy := rfl
@[simp] theorem note_msgend (s : State) (e : Event) : (s.note e).msgend = s.msgend := rfl
@[simp] theorem note_nak (s : State) (e : Event) : (s.note e).nak = s.nak := rfl
@[simp] theorem note_cksum (s : State) (e : Event) : (s.note e).cksum = s.cksum := rfl
@[simp] theorem note_lastck (s : State) (e : Event) : (s.note e).lastck = s.lastck := rfl
@[simp] theorem note_frlen (s : State) (e : Event) : (s.note e).frlen = s.frlen := rfl
@[simp] theorem note_rxlen (s : State) (e : Event) : (s.note e).rxlen = s.rxlen := rfl
@[simp] theorem note_rxsize (s : State) (e : Event) : (s.note e).rxsize = s.rxsize := rfl
@[simp] theorem note_rxck (s : State) (e : Event) : (s.note e).rxck = s.rxck := rfl
@[simp] theorem note_ackcode (s : State) (e : Event) : (s.note e).ackcode = s.ackcode := rfl
@[simp] theorem note_ackck (s : State) (e : Event) : (s.note e).ackck = s.ackck := rfl
@[simp] theorem note_elapsed (s : State) (e : Event) : (s.note e).elapsed = s.elapsed := rfl
@[simp] theorem note_phase (s : State) (e : Event) : (s.note e).phase = s.phase := rfl
@[simp] theorem note_mem (s : State) (e : Event) : (s.note e).mem = s.mem := rfl
@[simp] theorem note_cmd (s : State) (e : Event) : (s.note e).cmd = s.cmd := rfl
@[simp] theorem note_rx (s : State) (e : Event) : (s.note e).rx = s.rx := rfl
@[simp] theorem note_inputs (s : State) (e : Event) : (s.note e).inputs = s.inputs := rfl
@[simp] theorem note_drawn (s : State) (e : Event) : (s.note e).drawn = s.drawn := rfl
@[simp] theorem note_epoch (s : State) (e : Event) : (s.note e).epoch = s.epoch := rfl
@[simp] theorem note_draws (s : State) (e : Event) : (s.note e).draws = s.draws := rfl
@[simp] theorem note_hostData (s : State) (e : Event) : (s.note e).hostData = s.hostData := rfl
@[simp] theorem note_history (s : State) (e : Event) : (s.note e).history = e :: s.history := rfl

/-! ### `s.failRx e` -/

@[simp] theorem failRx_params (s : State) (e : ErrCode) : (s.failRx e).params = s.params := rfl
@[simp] theorem failRx_gen (s : State) (e : ErrCode) : (s.failRx e).gen = s.gen := rfl
@[simp] theorem failRx_timeout (s : State) (e : ErrCode) : (s.failRx e).timeout = s.timeout := rfl
@[simp] theorem failRx_cken (s : State) (e : ErrCode) : (s.failRx e).cken = s.cken := rfl
@[simp] theorem failRx_err (s : State) (e : ErrCode) : (s.failRx e).err = e := rfl
@[simp] theorem failRx_busy (s : State) (e : ErrCode) : (s.failRx e).busy = false := rfl
@[simp] theorem failRx_msgend (s : State) (e : ErrCode) : (s.failRx e).msgend = s.msgend := rfl
@[simp] theorem failRx_nak (s : State) (e : ErrCode) : (s.failRx e).nak = s.nak := rfl
@[simp] theorem failRx_cksum (s : State) (e : ErrCode) : (s.failRx e).cksum = s.cksum := rfl
@[simp] theorem failRx_lastck (s : State) (e : ErrCode) : (s.failRx e).lastck = s.lastck := rfl
@[simp] theorem failRx_frlen (s : State) (e : ErrCode) : (s.failRx e).frlen = s.frlen := rfl
@[simp] theorem failRx_rxlen (s : State) (e : ErrCode) : (s.failRx e).rxlen = s.rxlen := rfl
@[simp] theorem failRx_rxsize (s : State) (e : ErrCode) : (s.failRx e).rxsize = s.rxsize := rfl
@[simp] theorem failRx_rxck (s : State) (e : ErrCode) : (s.failRx e).rxck = s.rxck := rfl
@[simp] theorem failRx_ackcode (s : State) (e : ErrCode) : (s.failRx e).ackcode = s.ackcode := rfl
@[simp] theorem failRx_ackck (s : State) (e : ErrCode) : (s.failRx e).ackck = s.ackck := rfl
@[simp] theorem failRx_elapsed (s : State) (e : ErrCode) : (s.failRx e).elapsed = s.elapsed := rfl
@[simp] theorem failRx_phase (s : State) (e : ErrCode) : (s.failRx e).phase = .idle := rfl
@[simp] theorem failRx_mem (s : State) (e : ErrCode) : (s.failRx e).mem = s.mem := rfl
@[simp] theorem failRx_cmd (s : State) (e : ErrCode) : (s.failRx e).cmd = none := rfl
@[simp] theorem failRx_rx (s : State) (e : ErrCode) : (s.failRx e).rx = none := rfl
@[simp] theorem failRx_inputs (s : State) (e : ErrCode) : (s.failRx e).inputs = s.inputs := rfl
@[simp] theorem failRx_drawn (s : State) (e : ErrCode) : (s.failRx e).drawn = s.drawn := rfl
@[simp] theorem failRx_epoch (s : State) (e : ErrCode) : (s.failRx e).epoch = s.epoch + 1 := rfl
@[simp] theorem failRx_draws (s : State) (e : ErrCode) : (s.failRx e).draws = s.draws := rfl
@[simp] theorem failRx_hostData (s : State) (e : ErrCode) : (s.failRx e).hostData = s.hostData := rfl
@[simp] theorem failRx_history (s : State) (e : ErrCode) : (s.failRx e).history = .phyFlush :: s.history := rfl

/-! ### `s.putBuf b i bs` -/

@[simp] theorem putBuf_params (s : State) (b : Buf) (i : Nat) (bs : List Byte) : (s.putBuf b i bs).params = s.params := rfl
@[simp] theorem putBuf_gen (s : State) (b : Buf) (i : Nat) (bs : List Byte) : (s.putBuf b i bs).gen = s.gen := rfl
@[simp] theorem putBuf_timeout (s : State) (b : Buf) (i : Nat) (bs : List Byte) : (s.putBuf b i bs).timeout = s.timeout := rfl
@[simp] theorem putBuf_cken (s : State) (b : Buf) (i : Nat) (bs : List Byte) : (s.putBuf b i bs).cken = s.cken := rfl
@[simp] theorem putBuf_err (s : State) (b : Buf) (i : Nat) (bs : List Byte) : (s.putBuf b i bs).err = s.err := rfl
@[simp] theorem putBuf_busy (s : State) (b : Buf) (i : Nat) (bs : List Byte) : (s.putBuf b i bs).busy = s.busy := rfl
@[simp] theorem putBuf_msgend (s : State) (b : Buf) (i : Nat) (bs : List Byte) : (s.putBuf b i bs).msgend = s.msgend := rfl
@[simp] theorem putBuf_nak (s : State) (b : Buf) (i : Nat) (bs : List Byte) : (s.putBuf b i bs).nak = s.nak := rfl
@[simp] theorem putBuf_cksum (s : State) (b : Buf) (i : Nat) (bs : List Byte) : (s.putBuf b i bs).cksum = s.cksum := rfl
@[simp] theorem putBuf_lastck (s : State) (b : Buf) (i : Nat) (bs : List Byte) : (s.putBuf b i bs).lastck = s.lastck := rfl
@[simp] theorem putBuf_frlen (s : State) (b : Buf) (i : Nat) (bs : List Byte) : (s.putBuf b i bs).frlen = s.frlen := rfl
@[simp] theorem putBuf_rxlen (s : State) (b : Buf) (i : Nat) (bs : List Byte) : (s.putBuf b i bs).rxlen = s.rxlen := rfl
@[simp] theorem putBuf_rxsize (s : State) (b : Buf) (i : Nat) (bs : List Byte) : (s.putBuf b i bs).rxsize = s.rxsize := rfl
@[simp] theorem putBuf_rxck (s : State) (b : Buf) (i : Nat) (bs : List Byte) : (s.putBuf b i bs).rxck = s.rxck := rfl
@[simp] theorem putBuf_ackcode (s : State) (b : Buf) (i : Nat) (bs : List Byte) : (s.putBuf b i bs).ackcode = s.ackcode := rfl
@[simp] theorem putBuf_ackck (s : State) (b : Buf) (i : Nat) (bs : List Byte) : (s.putBuf b i bs).ackck = s.ackck := rfl
@[simp] theorem putBuf_elapsed (s : State) (b : Buf) (i : Nat) (bs : List Byte) : (s.putBuf b i bs).elapsed = s.elapsed := rfl
@[simp] theorem putBuf_phase (s : State) (b : Buf) (i : Nat) (bs : List Byte) : (s.putBuf b i bs).phase = s.phase := rfl
@[simp] theorem putBuf_mem (s : State) (b : Buf) (i : Nat) (bs : List Byte) : (s.putBuf b i bs).mem = Memory.writeRange s.mem (b.base + i) bs := rfl
@[simp] theorem putBuf_cmd (s : State) (b : Buf) (i : Nat) (bs : List Byte) : (s.putBuf b i bs).cmd = s.cmd := rfl
@[simp] theorem putBuf_rx (s : State) (b : Buf) (i : Nat) (bs : List Byte) : (s.putBuf b i bs).rx = s.rx := rfl
@[simp] theorem putBuf_inputs (s : State) (b : Buf) (i : Nat) (bs : List Byte) : (s.putBuf b i bs).inputs = s.inputs := rfl
@[simp] theorem putBuf_drawn (s : State) (b : Buf) (i : Nat) (bs : List Byte) : (s.putBuf b i bs).drawn = s.drawn := rfl
@[simp] theorem putBuf_epoch (s : State) (b : Buf) (i : Nat) (bs : List Byte) : (s.putBuf b i bs).epoch = s.epoch := rfl
@[simp] theorem putBuf_draws (s : State) (b : Buf) (i : Nat) (bs : List Byte) : (s.putBuf b i bs).draws = s.draws := rfl
@[simp] theorem putBuf_hostData (s : State) (b : Buf) (i : Nat) (bs : List Byte) : (s.putBuf b i bs).hostData = s.hostData := rfl
@[simp] theorem putBuf_history (s : State) (b : Buf) (i : Nat) (bs : List Byte) : (s.putBuf b i bs).history = s.history := rfl

/-! ### `s.beginSeek b` -/

@[simp] theorem beginSeek_params (s : State) (b : Bool) : (s.beginSeek b).params = s.params := rfl
@[simp] theorem beginSeek_gen (s : State) (b : Bool) : (s.beginSeek b).gen = s.gen := rfl
@[simp] theorem beginSeek_timeout (s : State) (b : Bool) : (s.beginSeek b).timeout = s.timeout := rfl
@[simp] theorem beginSeek_cken (s : State) (b : Bool) : (s.beginSeek b).cken = s.cken := rfl
@[simp] theorem beginSeek_err (s : State) (b : Bool) : (s.beginSeek b).err = s.err := rfl
@[simp] theorem beginSeek_busy (s : State) (b : Bool) : (s.beginSeek b).busy = s.busy := rfl
@[simp] theorem beginSeek_msgend (s : State) (b : Bool) : (s.beginSeek b).msgend = s.msgend := rfl
@[simp] theorem beginSeek_nak (s : State) (b : Bool) : (s.beginSeek b).nak = s.nak := rfl
@[simp] theorem beginSeek_cksum (s : State) (b : Bool) : (s.beginSeek b).cksum = s.cksum := rfl
@[simp] theorem beginSeek_lastck (s : State) (b : Bool) : (s.beginSeek b).lastck = s.lastck := rfl
@[simp] theorem beginSeek_frlen (s : State) (b : Bool) : (s.beginSeek b).frlen = s.frlen := rfl
@[simp] theorem beginSeek_rxlen (s : State) (b : Bool) : (s.beginSeek b).rxlen = 0 := rfl
@[simp] theorem beginSeek_rxsize (s : State) (b : Bool) : (s.beginSeek b).rxsize = s.rxsize := rfl
@[simp] theorem beginSeek_rxck (s : State) (b : Bool) : (s.beginSeek b).rxck = s.rxck := rfl
@[simp] theorem beginSeek_ackcode (s : State) (b : Bool) : (s.beginSeek b).ackcode = s.ackcode := rfl
@[simp] theorem beginSeek_ackck (s : State) (b : Bool) : (s.beginSeek b).ackck = s.ackck := rfl
@[simp] theorem beginSeek_elapsed (s : State) (b : Bool) : (s.beginSeek b).elapsed = 0 := rfl
@[simp] theorem beginSeek_phase (s : State) (b : Bool) : (s.beginSeek b).phase = .seek := rfl
@[simp] theorem beginSeek_mem (s : State) (b : Bool) : (s.beginSeek b).mem = s.mem := rfl
@[simp] theorem beginSeek_cmd (s : State) (b : Bool) : (s.beginSeek b).cmd = s.cmd := rfl
@[simp] theorem beginSeek_rx (s : State) (b : Bool) : (s.beginSeek b).rx = some { thenBody := b, got := 0, target := none, ack := [], stage := .start } := rfl
@[simp] theorem beginSeek_inputs (s : State) (b : Bool) : (s.beginSeek b).inputs = s.inputs := rfl
@[simp] theorem beginSeek_drawn (s : State) (b : Bool) : (s.beginSeek b).drawn = s.drawn := rfl
@[simp] theorem beginSeek_epoch (s : State) (b : Bool) : (s.beginSeek b).epoch = s.epoch := rfl
@[simp] theorem beginSeek_draws (s : State) (b : Bool) : (s.beginSeek b).draws = s.draws := rfl
@[simp] theorem beginSeek_hostData (s : State) (b : Bool) : (s.beginSeek b).hostData = s.hostData := rfl
@[simp] theorem beginSeek_history (s : State) (b : Bool) : (s.beginSeek b).history = s.history := rfl

/-! ### `s.beginBody` -/

@[simp] theorem beginBody_params (s : State) : (s.beginBody).params = s.params := rfl
@[simp] theorem beginBody_gen (s : State) : (s.beginBody).gen = s.gen := rfl
@[simp] theorem beginBody_timeout (s : State) : (s.beginBody).timeout = s.timeout := rfl
@[simp] theorem beginBody_cken (s : State) : (s.beginBody).cken = s.cken := rfl
@[simp] theorem beginBody_err (s : State) : (s.beginBody).err = s.err := rfl
@[simp] theorem beginBody_busy (s : State) : (s.beginBody).busy = s.busy := rfl
@[simp] theorem beginBody_msgend (s : State) : (s.beginBody).msgend = s.msgend := rfl
@[simp] theorem beginBody_nak (s : State) : (s.beginBody).nak = s.nak := rfl
@[simp] theorem beginBody_cksum (s : State) : (s.beginBody).cksum = s.cksum := rfl
@[simp] theorem beginBody_lastck (s : State) : (s.beginBody).lastck = s.lastck := rfl
@[simp] theorem beginBody_frlen (s : State) : (s.beginBody).frlen = s.frlen := rfl
@[simp] theorem beginBody_rxlen (s : State) : (s.beginBody).rxlen = 1 := rfl
@[simp] theorem beginBody_rxsize (s : State) : (s.beginBody).rxsize = s.rxsize := rfl
@[simp] theorem beginBody_rxck (s : State) : (s.beginBody).rxck = s.rxck := rfl
@[simp] theorem beginBody_ackcode (s : State) : (s.beginBody).ackcode = s.ackcode := rfl
@[simp] theorem beginBody_ackck (s : State) : (s.beginBody).ackck = s.ackck := rfl
@[simp] theorem beginBody_elapsed (s : State) : (s.beginBody).elapsed = 0 := rfl
@[simp] theorem beginBody_phase (s : State) : (s.beginBody).phase = .body := rfl
@[simp] theorem beginBody_mem (s : State) : (s.beginBody).mem = s.mem := rfl
@[simp] theorem beginBody_cmd (s : State) : (s.beginBody).cmd = s.cmd := rfl
@[simp] theorem beginBody_rx (s : State) : (s.beginBody).rx = some { thenBody := false, got := 0, target := none, ack := [], stage := .start } := rfl
@[simp] theorem beginBody_inputs (s : State) : (s.beginBody).inputs = s.inputs := rfl
@[simp] theorem beginBody_drawn (s : State) : (s.beginBody).drawn = s.drawn := rfl
@[simp] theorem beginBody_epoch (s : State) : (s.beginBody).epoch = s.epoch := rfl
@[simp] theorem beginBody_draws (s : State) : (s.beginBody).draws = s.draws := rfl
@[simp] theorem beginBody_hostData (s : State) : (s.beginBody).hostData = s.hostData := rfl
@[simp] theorem beginBody_history (s : State) : (s.beginBody).history = s.history := rfl

/-! ### `s.beginAck` -/

@[simp] theorem beginAck_params (s : State) : (s.beginAck).params = s.params := rfl
@[simp] theorem beginAck_gen (s : State) : (s.beginAck).gen = s.gen := rfl
@[simp] theorem beginAck_timeout (s : State) : (s.beginAck).timeout = s.timeout := rfl
@[simp] theorem beginAck_cken (s : State) : (s.beginAck).cken = s.cken := rfl
@[simp] theorem beginAck_err (s : State) : (s.beginAck).err = s.err := rfl
@[simp] theorem beginAck_busy (s : State) : (s.beginAck).busy = s.busy := rfl
@[simp] theorem beginAck_msgend (s : State) : (s.beginAck).msgend = s.msgend := rfl
@[simp] theorem beginAck_nak (s : State) : (s.beginAck).nak = false := rfl
@[simp] theorem beginAck_cksum (s : State) : (s.beginAck).cksum = s.cksum := rfl
@[simp] theorem beginAck_lastck (s : State) : (s.beginAck).lastck = s.lastck := rfl
@[simp] theorem beginAck_frlen (s : State) : (s.beginAck).frlen = s.frlen := rfl
@[simp] theorem beginAck_rxlen (s : State) : (s.beginAck).rxlen = s.rxlen := rfl
@[simp] theorem beginAck_rxsize (s : State) : (s.beginAck).rxsize = s.rxsize := rfl
@[simp] theorem beginAck_rxck (s : State) : (s.beginAck).rxck = s.rxck := rfl
@[simp] theorem beginAck_ackcode (s : State) : (s.beginAck).ackcode = s.ackcode := rfl
@[simp] theorem beginAck_ackck (s : State) : (s.beginAck).ackck = s.ackck := rfl
@[simp] theorem beginAck_elapsed (s : State) : (s.beginAck).elapsed = 0 := rfl
@[simp] theorem beginAck_phase (s : State) : (s.beginAck).phase = .ack := rfl
@[simp] theorem beginAck_mem (s : State) : (s.beginAck).mem = s.mem := rfl
@[simp] theorem beginAck_cmd (s : State) : (s.beginAck).cmd = s.cmd := rfl
@[simp] theorem beginAck_rx (s : State) : (s.beginAck).rx = some { thenBody := false, got := 0, target := none, ack := [], stage := .start } := rfl
@[simp] theorem beginAck_inputs (s : State) : (s.beginAck).inputs = s.inputs := rfl
@[simp] theorem beginAck_drawn (s : State) : (s.beginAck).drawn = s.drawn := rfl
@[simp] theorem beginAck_epoch (s : State) : (s.beginAck).epoch = s.epoch := rfl
@[simp] theorem beginAck_draws (s : State) : (s.beginAck).draws = s.draws := rfl
@[simp] theorem beginAck_hostData (s : State) : (s.beginAck).hostData = s.hostData := rfl
@[simp] theorem beginAck_history (s : State) : (s.beginAck).history = s.history := rfl

/-! ### `s.hardReset` -/

@[simp] theorem hardReset_params (s : State) : (s.hardReset).params = s.params := rfl
@[simp] theorem hardReset_gen (s : State) : (s.hardReset).gen = State.reset.gen := rfl
@[simp] theorem hardReset_timeout (s : State) : (s.hardReset).timeout = State.reset.timeout := rfl
@[simp] theorem hardReset_cken (s : State) : (s.hardReset).cken = State.reset.cken := rfl
@[simp] theorem hardReset_err (s : State) : (s.hardReset).err = State.reset.err := rfl
@[simp] theorem hardReset_busy (s : State) : (s.hardReset).busy = State.reset.busy := rfl
@[simp] theorem hardReset_msgend (s : State) : (s.hardReset).msgend = State.reset.msgend := rfl
@[simp] theorem hardReset_nak (s : State) : (s.hardReset).nak = State.reset.nak := rfl
@[simp] theorem hardReset_cksum (s : State) : (s.hardReset).cksum = State.reset.cksum := rfl
@[simp] theorem hardReset_lastck (s : State) : (s.hardReset).lastck = State.reset.lastck := rfl
@[simp] theorem hardReset_frlen (s : State) : (s.hardReset).frlen = State.reset.frlen := rfl
@[simp] theorem hardReset_rxlen (s : State) : (s.hardReset).rxlen = State.reset.rxlen := rfl
@[simp] theorem hardReset_rxsize (s : State) : (s.hardReset).rxsize = State.reset.rxsize := rfl
@[simp] theorem hardReset_rxck (s : State) : (s.hardReset).rxck = State.reset.rxck := rfl
@[simp] theorem hardReset_ackcode (s : State) : (s.hardReset).ackcode = State.reset.ackcode := rfl
@[simp] theorem hardReset_ackck (s : State) : (s.hardReset).ackck = State.reset.ackck := rfl
@[simp] theorem hardReset_elapsed (s : State) : (s.hardReset).elapsed = State.reset.elapsed := rfl
@[simp] theorem hardReset_phase (s : State) : (s.hardReset).phase = State.reset.phase := rfl
@[simp] theorem hardReset_mem (s : State) : (s.hardReset).mem = State.reset.mem := rfl
@[simp] theorem hardReset_cmd (s : State) : (s.hardReset).cmd = State.reset.cmd := rfl
@[simp] theorem hardReset_rx (s : State) : (s.hardReset).rx = State.reset.rx := rfl
@[simp] theorem hardReset_inputs (s : State) : (s.hardReset).inputs = s.inputs := rfl
@[simp] theorem hardReset_drawn (s : State) : (s.hardReset).drawn = s.drawn := rfl
@[simp] theorem hardReset_epoch (s : State) : (s.hardReset).epoch = s.epoch + 1 := rfl
@[simp] theorem hardReset_draws (s : State) : (s.hardReset).draws = s.draws := rfl
@[simp] theorem hardReset_hostData (s : State) : (s.hardReset).hostData = s.hostData := rfl
@[simp] theorem hardReset_history (s : State) : (s.hardReset).history = s.history := rfl

/-! ### `s.storeMarker bs` -/

@[simp] theorem storeMarker_params (s : State) (bs : List Byte) : (s.storeMarker bs).params = s.params := rfl
@[simp] theorem storeMarker_gen (s : State) (bs : List Byte) : (s.storeMarker bs).gen = s.gen := rfl
@[simp] theorem storeMarker_timeout (s : State) (bs : List Byte) : (s.storeMarker bs).timeout = s.timeout := rfl
@[simp] theorem storeMarker_cken (s : State) (bs : List Byte) : (s.storeMarker bs).cken = s.cken := rfl
@[simp] theorem storeMarker_err (s : State) (bs : List Byte) : (s.storeMarker bs).err = s.err := rfl
@[simp] theorem storeMarker_busy (s : State) (bs : List Byte) : (s.storeMarker bs).busy = s.busy := rfl
@[simp] theorem storeMarker_msgend (s : State) (bs : List Byte) : (s.storeMarker bs).msgend = s.msgend := rfl
@[simp] theorem storeMarker_nak (s : State) (bs : List Byte) : (s.storeMarker bs).nak = s.nak := rfl
@[simp] theorem storeMarker_cksum (s : State) (bs : List Byte) : (s.storeMarker bs).cksum = s.cksum := rfl
@[simp] theorem storeMarker_lastck (s : State) (bs : List Byte) : (s.storeMarker bs).lastck = s.lastck := rfl
@[simp] theorem storeMarker_frlen (s : State) (bs : List Byte) : (s.storeMarker bs).frlen = s.frlen := rfl
@[simp] theorem storeMarker_rxlen (s : State) (bs : List Byte) : (s.storeMarker bs).rxlen = 1 := rfl
@[simp] theorem storeMarker_rxsize (s : State) (bs : List Byte) : (s.storeMarker bs).rxsize = s.rxsize := rfl
@[simp] theorem storeMarker_rxck (s : State) (bs : List Byte) : (s.storeMarker bs).rxck = s.rxck := rfl
@[simp] theorem storeMarker_ackcode (s : State) (bs : List Byte) : (s.storeMarker bs).ackcode = s.ackcode := rfl
@[simp] theorem storeMarker_ackck (s : State) (bs : List Byte) : (s.storeMarker bs).ackck = s.ackck := rfl
@[simp] theorem storeMarker_elapsed (s : State) (bs : List Byte) : (s.storeMarker bs).elapsed = s.elapsed := rfl
@[simp] theorem storeMarker_phase (s : State) (bs : List Byte) : (s.storeMarker bs).phase = s.phase := rfl
@[simp] theorem storeMarker_mem (s : State) (bs : List Byte) : (s.storeMarker bs).mem = Memory.writeRange s.mem Buf.rx.base bs := rfl
@[simp] theorem storeMarker_cmd (s : State) (bs : List Byte) : (s.storeMarker bs).cmd = s.cmd := rfl
@[simp] theorem storeMarker_rx (s : State) (bs : List Byte) : (s.storeMarker bs).rx = s.rx := rfl
@[simp] theorem storeMarker_inputs (s : State) (bs : List Byte) : (s.storeMarker bs).inputs = s.inputs := rfl
@[simp] theorem storeMarker_drawn (s : State) (bs : List Byte) : (s.storeMarker bs).drawn = s.drawn := rfl
@[simp] theorem storeMarker_epoch (s : State) (bs : List Byte) : (s.storeMarker bs).epoch = s.epoch := rfl
@[simp] theorem storeMarker_draws (s : State) (bs : List Byte) : (s.storeMarker bs).draws = s.draws := rfl
@[simp] theorem storeMarker_hostData (s : State) (bs : List Byte) : (s.storeMarker bs).hostData = s.hostData := rfl
@[simp] theorem storeMarker_history (s : State) (bs : List Byte) : (s.storeMarker bs).history = s.history := rfl

/-! ### `s.storeBody r bs` -/

@[simp] theorem storeBody_params (s : State) (r : Rx) (bs : List Byte) : (s.storeBody r bs).params = s.params := rfl
@[simp] theorem storeBody_gen (s : State) (r : Rx) (bs : List Byte) : (s.storeBody r bs).gen = s.gen := rfl
@[simp] theorem storeBody_timeout (s : State) (r : Rx) (bs : List Byte) : (s.storeBody r bs).timeout = s.timeout := rfl
@[simp] theorem storeBody_cken (s : State) (r : Rx) (bs : List Byte) : (s.storeBody r bs).cken = s.cken := rfl
@[simp] theorem storeBody_err (s : State) (r : Rx) (bs : List Byte) : (s.storeBody r bs).err = s.err := rfl
@[simp] theorem storeBody_busy (s : State) (r : Rx) (bs : List Byte) : (s.storeBody r bs).busy = s.busy := rfl
@[simp] theorem storeBody_msgend (s : State) (r : Rx) (bs : List Byte) : (s.storeBody r bs).msgend = s.msgend := rfl
@[simp] theorem storeBody_nak (s : State) (r : Rx) (bs : List Byte) : (s.storeBody r bs).nak = s.nak := rfl
@[simp] theorem storeBody_cksum (s : State) (r : Rx) (bs : List Byte) : (s.storeBody r bs).cksum = s.cksum := rfl
@[simp] theorem storeBody_lastck (s : State) (r : Rx) (bs : List Byte) : (s.storeBody r bs).lastck = s.lastck := rfl
@[simp] theorem storeBody_frlen (s : State) (r : Rx) (bs : List Byte) : (s.storeBody r bs).frlen = s.frlen := rfl
@[simp] theorem storeBody_rxlen (s : State) (r : Rx) (bs : List Byte) : (s.storeBody r bs).rxlen = BitVec.ofNat 16 (1 + (r.got + bs.length)) := rfl
@[simp] theorem storeBody_rxsize (s : State) (r : Rx) (bs : List Byte) : (s.storeBody r bs).rxsize = s.rxsize := rfl
@[simp] theorem storeBody_rxck (s : State) (r : Rx) (bs : List Byte) : (s.storeBody r bs).rxck = s.rxck := rfl
@[simp] theorem storeBody_ackcode (s : State) (r : Rx) (bs : List Byte) : (s.storeBody r bs).ackcode = s.ackcode := rfl
@[simp] theorem storeBody_ackck (s : State) (r : Rx) (bs : List Byte) : (s.storeBody r bs).ackck = s.ackck := rfl
@[simp] theorem storeBody_elapsed (s : State) (r : Rx) (bs : List Byte) : (s.storeBody r bs).elapsed = s.elapsed := rfl
@[simp] theorem storeBody_phase (s : State) (r : Rx) (bs : List Byte) : (s.storeBody r bs).phase = s.phase := rfl
@[simp] theorem storeBody_mem (s : State) (r : Rx) (bs : List Byte) : (s.storeBody r bs).mem = Memory.writeRange s.mem (Buf.rx.base + (1 + r.got)) bs := rfl
@[simp] theorem storeBody_cmd (s : State) (r : Rx) (bs : List Byte) : (s.storeBody r bs).cmd = s.cmd := rfl
@[simp] theorem storeBody_rx (s : State) (r : Rx) (bs : List Byte) : (s.storeBody r bs).rx = s.rx := rfl
@[simp] theorem storeBody_inputs (s : State) (r : Rx) (bs : List Byte) : (s.storeBody r bs).inputs = s.inputs := rfl
@[simp] theorem storeBody_drawn (s : State) (r : Rx) (bs : List Byte) : (s.storeBody r bs).drawn = s.drawn := rfl
@[simp] theorem storeBody_epoch (s : State) (r : Rx) (bs : List Byte) : (s.storeBody r bs).epoch = s.epoch := rfl
@[simp] theorem storeBody_draws (s : State) (r : Rx) (bs : List Byte) : (s.storeBody r bs).draws = s.draws := rfl
@[simp] theorem storeBody_hostData (s : State) (r : Rx) (bs : List Byte) : (s.storeBody r bs).hostData = s.hostData := rfl
@[simp] theorem storeBody_history (s : State) (r : Rx) (bs : List Byte) : (s.storeBody r bs).history = s.history := rfl

end Sys2Proof.Machine
end

