-- ==== Sys2Proof/Laws/Memory.lean ====
section
/-! SUPPORT. Buffer bytes: read after write, the canonical form, ranges, and the buffers seen through them. -/

namespace Sys2Proof.Machine

/-! ### One byte -/

theorem read_write_same (m : Memory) (a : Nat) (b : Byte) : Memory.read (Memory.write m a b) a = some b := by
  induction m with
  | nil => simp [Memory.write, Memory.read]
  | cons c m ih =>
    obtain ⟨k, v⟩ := c
    simp only [Memory.write]
    split
    · simp [Memory.read]
    · split
      · simp [Memory.read]
      · simp [Memory.read, ih, Ne.symm ‹_›]

theorem read_write_ne (m : Memory) {a c : Nat} (b : Byte) (h : c ≠ a) :
    Memory.read (Memory.write m a b) c = Memory.read m c := by
  induction m with
  | nil => simp [Memory.write, Memory.read, h.symm]
  | cons d m ih =>
    obtain ⟨k, v⟩ := d
    simp only [Memory.write]
    split
    · simp [Memory.read, h.symm]
    · split
      · subst_vars; simp [Memory.read, h.symm]
      · simp [Memory.read, ih]

theorem read_write (m : Memory) (a c : Nat) (b : Byte) :
    Memory.read (Memory.write m a b) c = if c = a then some b else Memory.read m c := by
  split
  · subst_vars; exact read_write_same ..
  · exact read_write_ne _ _ ‹_›

theorem mem_write_of_mem {m : Memory} {a : Nat} {b : Byte} {c : Host.Cell} (h : c ∈ Memory.write m a b) :
    c = (a, b) ∨ c ∈ m := by
  induction m with
  | nil => simpa [Memory.write] using h
  | cons d m ih =>
    obtain ⟨k, v⟩ := d
    simp only [Memory.write] at h
    split at h
    · simpa using h
    · split at h
      · simp only [List.mem_cons] at h ⊢; tauto
      · simp only [List.mem_cons] at h ⊢
        rcases h with h | h
        · exact .inr (.inl h)
        · rcases ih h with h | h
          · exact .inl h
          · exact .inr (.inr h)

theorem write_wf {m : Memory} (a : Nat) (b : Byte) (h : Memory.wf m) : Memory.wf (Memory.write m a b) := by
  induction m with
  | nil => simp [Memory.write]
  | cons d m ih =>
    obtain ⟨k, v⟩ := d
    obtain ⟨h1, h2⟩ := List.pairwise_cons.mp h
    simp only [Memory.write]
    split
    · refine List.pairwise_cons.mpr ⟨?_, h⟩
      intro c hc
      rcases List.mem_cons.mp hc with rfl | hc
      · simpa
      · have := h1 c hc; simp only at *; omega
    · split
      · subst_vars; exact List.pairwise_cons.mpr ⟨h1, h2⟩
      · refine List.pairwise_cons.mpr ⟨?_, ih h2⟩
        intro c hc
        rcases mem_write_of_mem hc with rfl | hc
        · simp only; omega
        · exact h1 c hc

/-- Two memories in canonical form that read alike are the same list. -/
theorem wf_ext {m n : Memory} (hm : Memory.wf m) (hn : Memory.wf n)
    (h : ∀ a, Memory.read m a = Memory.read n a) : m = n := by
  have low : ∀ (l : Memory) (a : Nat), (∀ c ∈ l, a < c.1) → Memory.read l a = none := by
    intro l a hl
    induction l with
    | nil => rfl
    | cons c l ih =>
      have h1 := hl c (by simp)
      simp only [Memory.read]
      rw [if_neg (by omega)]
      exact ih (fun d hd => hl d (by simp [hd]))
  induction m generalizing n with
  | nil =>
    cases n with
    | nil => rfl
    | cons c n => have := h c.1; simp [Memory.read, Memory.unlisted] at this
  | cons c m ih =>
    cases n with
    | nil => have := h c.1; simp [Memory.read, Memory.unlisted] at this
    | cons d n =>
      obtain ⟨k, v⟩ := c
      obtain ⟨k', v'⟩ := d
      obtain ⟨hm1, hm2⟩ := List.pairwise_cons.mp hm
      obtain ⟨hn1, hn2⟩ := List.pairwise_cons.mp hn
      have hk : k = k' := by
        rcases Nat.lt_trichotomy k k' with hlt | heq | hlt
        · have h0 := h k
          have h1 := low ((k', v') :: n) k (by
            intro c hc
            rcases List.mem_cons.mp hc with rfl | hc
            · exact hlt
            · have := hn1 c hc; simp only at this; omega)
          rw [h1] at h0
          simp [Memory.read] at h0
        · exact heq
        · have h0 := h k'
          have h1 := low ((k, v) :: m) k' (by
            intro c hc
            rcases List.mem_cons.mp hc with rfl | hc
            · exact hlt
            · have := hm1 c hc; simp only at this; omega)
          rw [h1] at h0
          simp [Memory.read] at h0
      subst hk
      have hv : v = v' := by simpa [Memory.read] using h k
      subst hv
      congr 1
      refine ih hm2 hn2 (fun a => ?_)
      by_cases ha : k = a
      · subst ha
        rw [low m k hm1, low n k hn1]
      · simpa [Memory.read, ha] using h a

/-! ### Ranges -/

theorem read_writeRange_outside (m : Memory) (a c : Nat) (bs : List Byte) (h : ¬ (a ≤ c ∧ c < a + bs.length)) :
    Memory.read (Memory.writeRange m a bs) c = Memory.read m c := by
  induction bs generalizing m a with
  | nil => rfl
  | cons b bs ih =>
    simp only [Memory.writeRange]
    rw [ih _ _ (by simp only [List.length_cons] at h; omega), read_write_ne]
    simp only [List.length_cons] at h; omega

theorem read_writeRange_inside (m : Memory) (a k : Nat) (bs : List Byte) (h : k < bs.length) :
    Memory.read (Memory.writeRange m a bs) (a + k) = some bs[k] := by
  induction bs generalizing m a k with
  | nil => simp at h
  | cons b bs ih =>
    simp only [Memory.writeRange]
    cases k with
    | zero =>
      rw [read_writeRange_outside _ _ _ _ (by omega)]
      simpa using read_write_same m a b
    | succ k =>
      rw [show a + (k + 1) = (a + 1) + k by omega]
      simpa using ih (Memory.write m a b) (a + 1) k (by simpa using h)

theorem writeRange_wf {m : Memory} (a : Nat) (bs : List Byte) (h : Memory.wf m) :
    Memory.wf (Memory.writeRange m a bs) := by
  induction bs generalizing m a with
  | nil => exact h
  | cons b bs ih => exact ih _ (write_wf a b h)

theorem mem_writeRange {m : Memory} {a : Nat} {bs : List Byte} {c : Host.Cell}
    (h : c ∈ Memory.writeRange m a bs) : c ∈ m ∨ (a ≤ c.1 ∧ c.1 < a + bs.length) := by
  induction bs generalizing m a with
  | nil => exact .inl h
  | cons b bs ih =>
    simp only [Memory.writeRange] at h
    rcases ih h with h | h
    · rcases mem_write_of_mem h with rfl | h
      · right; simp
      · exact .inl h
    · right; simp only [List.length_cons]; omega

/-- A range reads as `bs` exactly when it has its length and each byte holds its value. -/
theorem readRange_eq_some (m : Memory) (a n : Nat) (bs : List Byte) :
    Memory.readRange m a n = some bs ↔
      bs.length = n ∧ ∀ k, ∀ h : k < bs.length, Memory.read m (a + k) = some bs[k] := by
  induction n generalizing a bs with
  | zero =>
    simp only [Memory.readRange, Option.some.injEq]
    constructor
    · rintro rfl; simp
    · rintro ⟨h, -⟩; exact (List.eq_nil_of_length_eq_zero h).symm
  | succ n ih =>
    simp only [Memory.readRange]
    constructor
    · intro h
      split at h
      · rename_i b cs h1 h2
        obtain rfl := Option.some.inj h
        obtain ⟨h3, h4⟩ := (ih _ _).mp h2
        refine ⟨by simp [h3], fun k hk => ?_⟩
        cases k with
        | zero => simpa using h1
        | succ k =>
          rw [show a + (k + 1) = a + 1 + k by omega]
          simpa using h4 k (by simpa using hk)
      · cases h
    · rintro ⟨h1, h2⟩
      cases bs with
      | nil => simp at h1
      | cons b cs =>
        have hb : Memory.read m a = some b := h2 0 (by simp)
        have hcs : Memory.readRange m (a + 1) n = some cs := by
          refine (ih _ _).mpr ⟨by simpa using h1, fun k hk => ?_⟩
          have := h2 (k + 1) (by simpa using hk)
          rw [show a + (k + 1) = a + 1 + k by omega] at this
          simpa using this
        rw [hb, hcs]

/-- A range lacks a value exactly when one of its bytes does. -/
theorem readRange_eq_none (m : Memory) (a n : Nat) :
    Memory.readRange m a n = none ↔ ∃ k, k < n ∧ Memory.read m (a + k) = none := by
  induction n generalizing a with
  | zero => simp [Memory.readRange]
  | succ n ih =>
    simp only [Memory.readRange]
    constructor
    · intro h
      cases hb : Memory.read m a with
      | none => exact ⟨0, by omega, by simpa using hb⟩
      | some b =>
        cases hcs : Memory.readRange m (a + 1) n with
        | none =>
          obtain ⟨k, hk, h⟩ := (ih _).mp hcs
          exact ⟨k + 1, by omega, by rw [show a + (k + 1) = a + 1 + k by omega]; exact h⟩
        | some cs => simp [hb, hcs] at h
    · rintro ⟨k, hk, h⟩
      cases k with
      | zero => simp only [Nat.add_zero] at h; rw [h]
      | succ k =>
        have : Memory.readRange m (a + 1) n = none :=
          (ih _).mpr ⟨k, by omega, by rw [show a + 1 + k = a + (k + 1) by omega]; exact h⟩
        rw [this]
        cases Memory.read m a <;> rfl

/-! ### Buffers -/

theorem bufByte_putBuf_inside (s : State) (b : Buf) (i k : Nat) (bs : List Byte) (h : k < bs.length) :
    (s.putBuf b i bs).bufByte b (i + k) = some bs[k] := by
  have := read_writeRange_inside s.mem (b.base + i) k bs h
  simpa [State.bufByte, Nat.add_assoc] using this

theorem read_putBuf_outside (s : State) (b : Buf) (i a : Nat) (bs : List Byte)
    (h : ¬ (b.base + i ≤ a ∧ a < b.base + i + bs.length)) :
    Memory.read (s.putBuf b i bs).mem a = Memory.read s.mem a :=
  read_writeRange_outside _ _ _ _ h

/-- What a command reads from a buffer range: the bytes it holds. -/
theorem bufRange_eq_some (s : State) (b : Buf) (i n : Nat) (bs : List Byte) :
    s.bufRange b i n = some bs ↔
      bs.length = n ∧ ∀ k, ∀ h : k < bs.length, s.bufByte b (i + k) = some bs[k] := by
  simp only [State.bufRange, State.bufByte, readRange_eq_some, Nat.add_assoc]

theorem bufRange_eq_none (s : State) (b : Buf) (i n : Nat) :
    s.bufRange b i n = none ↔ ∃ k, k < n ∧ s.bufByte b (i + k) = none := by
  simp only [State.bufRange, State.bufByte, readRange_eq_none, Nat.add_assoc]

/-! ### Host stores -/

theorem storeRange_wf {p : Params} {m : Memory} (a : Nat) (bs : List Byte) (h : Memory.wf m) :
    Memory.wf (storeRange p m a bs) := by
  induction bs generalizing m a with
  | nil => exact h
  | cons b bs ih =>
    simp only [storeRange]
    split
    · exact ih _ (write_wf a b h)
    · exact ih _ h

theorem read_storeRange_outside (p : Params) (m : Memory) (a c : Nat) (bs : List Byte)
    (h : ¬ (a ≤ c ∧ c < a + bs.length)) : Memory.read (storeRange p m a bs) c = Memory.read m c := by
  induction bs generalizing m a with
  | nil => rfl
  | cons b bs ih =>
    simp only [storeRange]
    rw [ih _ _ (by simp only [List.length_cons] at h; omega)]
    split
    · exact read_write_ne _ _ (by simp only [List.length_cons] at h; omega)
    · rfl

/-- A store reaches exactly the buffer bytes of its range. -/
theorem read_storeRange_inside (p : Params) (m : Memory) (a k : Nat) (bs : List Byte) (h : k < bs.length) :
    Memory.read (storeRange p m a bs) (a + k) =
      if isBufferByte p (a + k) then some bs[k] else Memory.read m (a + k) := by
  induction bs generalizing m a k with
  | nil => simp at h
  | cons b bs ih =>
    simp only [storeRange]
    cases k with
    | zero =>
      rw [read_storeRange_outside _ _ _ _ _ (by omega)]
      simp only [Nat.add_zero, List.getElem_cons_zero]
      split
      · exact read_write_same ..
      · rfl
    | succ k =>
      rw [show a + (k + 1) = (a + 1) + k by omega, ih _ _ _ (by simpa using h)]
      simp only [List.getElem_cons_succ]
      split
      · rfl
      · split
        · exact read_write_ne _ _ (by omega)
        · rfl

theorem mem_storeRange {p : Params} {m : Memory} {a : Nat} {bs : List Byte} {c : Host.Cell}
    (h : c ∈ storeRange p m a bs) : c ∈ m ∨ isBufferByte p c.1 = true := by
  induction bs generalizing m a with
  | nil => exact .inl h
  | cons b bs ih =>
    simp only [storeRange] at h
    rcases ih h with h | h
    · split at h
      · rcases mem_write_of_mem h with rfl | h
        · exact .inr ‹_›
        · exact .inl h
      · exact .inl h
    · exact .inr h

/-- The address of byte `i` of a buffer is a buffer byte exactly when the index is in bounds. -/
theorem isBufferByte_base (p : Params) (b : Buf) (i : Nat) (h : i < p.bufBytes) (hp : p.bufBytes ≤ 4096) :
    isBufferByte p (b.base + i) = true := by
  have hr : regionOf p (b.base + i) = .buffer b i := by
    cases b
    · rw [Buf.base, regionOf, if_neg (by omega), if_neg (by omega), if_pos (by omega), windowOffset,
        Nat.add_sub_cancel_left, if_pos h]
    · rw [Buf.base, regionOf, if_neg (by omega), if_neg (by omega), if_neg (by omega), if_pos (by omega),
        windowOffset, Nat.add_sub_cancel_left, if_pos h]
    · rw [Buf.base, regionOf, if_neg (by omega), if_neg (by omega), if_neg (by omega), if_neg (by omega),
        if_pos (by omega), windowOffset, Nat.add_sub_cancel_left, if_pos h]
  rw [isBufferByte, hr]

/-- A buffer byte has a buffer and an index in bounds. -/
theorem isBufferByte_region {p : Params} {a : Nat} (h : isBufferByte p a = true) :
    ∃ b i, regionOf p a = .buffer b i ∧ a = b.base + i ∧ i < p.bufBytes := by
  simp only [isBufferByte] at h
  split at h
  · cases h
  · rename_i b i hr
    refine ⟨b, i, hr, ?_⟩
    simp only [regionOf, windowOffset] at hr
    repeat' split at hr
    all_goals first
      | (cases hr; done)
      | (simp only [Region.buffer.injEq] at hr
         obtain ⟨rfl, rfl⟩ := hr
         simp only [Buf.base]
         omega)
  · cases h

end Sys2Proof.Machine
end

