-- ==== Sys2Proof/Laws/Receive.lean ====
section
/-! SUPPORT. What the receive machinery can do: one poll, the end of a poll, and a run of moves. -/

namespace Sys2Proof.Machine

/-- Go on from a next state; a stop stays a stop. -/
def andThen (o : Result) (f : State → Result) : Result :=
  match o with
  | .next s => f s
  | .fault e => .fault e
  | .refused e => .refused e

@[simp] theorem andThen_next (s : State) (f : State → Result) : andThen (.next s) f = f s := rfl

@[simp] theorem andThen_fault (e : Fault) (f : State → Result) : andThen (.fault e) f = .fault e := rfl

theorem andThen_eq_next {o : Result} {f : State → Result} {t : State} :
    andThen o f = .next t ↔ ∃ s, o = .next s ∧ f s = .next t := by
  cases o <;> simp [andThen]

/-! ### Runs of moves -/

@[simp] theorem runRx_nil (s : State) : State.runRx [] s = .next { s with inputs := [] } := rfl

/-- With no receive command in progress nothing is consumed. -/
theorem runRx_idle (is : List Input) {s : State} (h : s.rx = none) :
    State.runRx is s = .next { s with inputs := is } := by
  cases is with
  | nil => rfl
  | cons i is => simp [State.runRx, h]

/-- A move of the clock, the PHY or the FCB is offered to the command in progress, and the run goes on. -/
theorem runRx_cons {s : State} {r : Rx} (i : Input) (is : List Input) (h : s.rx = some r)
    (hi : interrupts i = false) : State.runRx (i :: is) s = andThen (s.receiveInput r i) (State.runRx is) := by
  simp only [State.runRx, h, hi, andThen]
  rfl

/-- A move of the host or the reset pin is left for the next step. -/
theorem runRx_interrupted (s : State) (i : Input) (is : List Input) (hi : interrupts i = true) :
    State.runRx (i :: is) s = .next { s with inputs := i :: is } := by
  simp only [State.runRx]
  split <;> simp [hi]

/-- A property that an accepted move keeps, whatever is listed to come, holds after a run. -/
theorem runRx_keeps {P : State → Prop} (hin : ∀ s is, P s → P { s with inputs := is })
    (hmove : ∀ s r i t, P s → s.rx = some r → interrupts i = false → s.receiveInput r i = .next t → P t)
    (is : List Input) {s t : State} (hs : P s) (h : State.runRx is s = .next t) : P t := by
  induction is generalizing s with
  | nil => cases h; exact hin _ _ hs
  | cons i is ih =>
    cases hrx : s.rx with
    | none => rw [runRx_idle _ hrx] at h; cases h; exact hin _ _ hs
    | some r =>
      cases hi : interrupts i with
      | true => rw [runRx_interrupted _ _ _ hi] at h; cases h; exact hin _ _ hs
      | false =>
        rw [runRx_cons _ _ hrx hi] at h
        obtain ⟨u, hu, h⟩ := andThen_eq_next.mp h
        exact ih (hmove _ _ _ _ hs hrx hi hu) h

/-- A run stops with a fault only where a move it is offered does. -/
theorem runRx_fault {P : State → Prop} (hmove : ∀ s r i t, P s → s.rx = some r → interrupts i = false →
      s.receiveInput r i = .next t → P t)
    (is : List Input) {s : State} {f : Fault} (hs : P s) (h : State.runRx is s = .fault f) :
    ∃ u r i, P u ∧ u.rx = some r ∧ i ∈ is ∧ u.receiveInput r i = .fault f := by
  induction is generalizing s with
  | nil => cases h
  | cons i is ih =>
    cases hrx : s.rx with
    | none => rw [runRx_idle _ hrx] at h; cases h
    | some r =>
      cases hi : interrupts i with
      | true => rw [runRx_interrupted _ _ _ hi] at h; cases h
      | false =>
        rw [runRx_cons _ _ hrx hi] at h
        cases hu : s.receiveInput r i with
        | next u =>
          rw [hu] at h
          obtain ⟨u', r', i', h1, h2, h3, h4⟩ := ih (hmove _ _ _ _ hs hrx hi hu) h
          exact ⟨u', r', i', h1, h2, by simp [h3], h4⟩
        | fault f' => rw [hu] at h; cases h; exact ⟨s, r, i, hs, hrx, by simp, hu⟩
        | refused e => rw [hu] at h; cases h

/-! ### One move -/

/-- What an accepted move does: it is not what the FCB waits for and changes nothing; or the clock is sampled; or the
PHY's answer is taken; or the clock is sampled again; or the FCB's turn processes the poll. -/
theorem receiveInput_cases {s t : State} {r : Rx} {i : Input} (h : s.receiveInput r i = .next t) :
    t = s ∨
    (∃ t0, i = .clock t0 ∧ r.stage = .start ∧
      t = { s with history := .clock t0 :: s.history, rx := some { r with stage := .reading t0 } }) ∨
    (∃ t0 answer, i = .phy answer ∧ r.stage = .reading t0 ∧ answerFits (s.request r) answer = true ∧
      t = { s with history := .phyRead (s.request r) answer :: s.history,
                   rx := some { r with stage := .answered t0 answer } }) ∨
    (∃ t0 t1 answer, i = .clock t1 ∧ r.stage = .answered t0 answer ∧
      t = { s with history := .clock t1 :: s.history, rx := some { r with stage := .ended t0 t1 answer } }) ∨
    (∃ t0 t1 answer, i = .fcb ∧ r.stage = .ended t0 t1 answer ∧ t = s.finishPoll r t0 t1 answer) := by
  unfold State.receiveInput at h
  split at h
  · rename_i t0 hst
    cases h; exact .inr (.inl ⟨t0, rfl, hst, rfl⟩)
  · rename_i t0 answer hst
    split at h
    · rename_i hf
      cases h; exact .inr (.inr (.inl ⟨t0, answer, rfl, hst, hf, rfl⟩))
    · cases h
  · rename_i t0 answer t1 hst
    cases h; exact .inr (.inr (.inr (.inl ⟨t0, t1, answer, rfl, hst, rfl⟩)))
  · rename_i t0 t1 answer hst
    cases h; exact .inr (.inr (.inr (.inr ⟨t0, t1, answer, rfl, hst, rfl⟩)))
  · cases h; exact .inl rfl

/-- The only fault of a move is an answer longer than the request. -/
theorem receiveInput_fault {s : State} {r : Rx} {i : Input} {f : Fault} (h : s.receiveInput r i = .fault f) :
    f = .phyContract ∧ ∃ t0 bs, i = .phy (.bytes bs) ∧ r.stage = .reading t0 ∧ s.request r < bs.length := by
  unfold State.receiveInput at h
  split at h
  · cases h
  · rename_i t0 answer hst
    split at h
    · cases h
    · rename_i hf
      cases h
      cases answer with
      | negative => exact absurd rfl hf
      | bytes bs => exact ⟨rfl, t0, bs, rfl, hst, by simpa [answerFits] using hf⟩
  all_goals cases h

theorem pollMoves_cons (p : Poll) (ps : List Poll) : pollMoves (p :: ps) = p.moves ++ pollMoves ps := rfl

theorem pollMoves_append (ps qs : List Poll) : pollMoves (ps ++ qs) = pollMoves ps ++ pollMoves qs :=
  List.flatMap_append

/-- The state in which a poll is about to be processed, the events of what was left of it made. -/
def pollEnd (s : State) (r : Rx) (p : Poll) : State :=
  { s with history := p.leftEvents (s.request r) r.stage ++ s.history,
           rx := some { r with stage := .ended p.t0 p.t1 p.answer } }

theorem State.eta_rx {s : State} {r : Rx} (h : s.rx = some r) : { s with rx := some r } = s := by
  cases s
  simp only at h
  subst h
  rfl

theorem Rx.eta_stage {r : Rx} {st : PollStage} (h : r.stage = st) : { r with stage := st } = r := by
  cases r
  simp only at h
  subst h
  rfl

/-- What is left of a poll, its answer within the request: its moves are consumed and its end decides how to go on
(42_transceiver.md R170). -/
theorem runRx_left {s : State} {r : Rx} (p : Poll) (rest : List Input) (hrx : s.rx = some r)
    (hst : p.resumes r.stage) (hf : answerFits (s.request r) p.answer = true) :
    State.runRx (p.left r.stage ++ rest) s =
      State.runRx rest
        ((pollEnd s r p).finishPoll { r with stage := .ended p.t0 p.t1 p.answer } p.t0 p.t1 p.answer) := by
  have hended : ∀ hist, State.runRx (.fcb :: rest)
      { s with history := hist, rx := some { r with stage := .ended p.t0 p.t1 p.answer } } =
      State.runRx rest
        (State.finishPoll { s with history := hist, rx := some { r with stage := .ended p.t0 p.t1 p.answer } }
          { r with stage := .ended p.t0 p.t1 p.answer } p.t0 p.t1 p.answer) := fun hist => by
    rw [runRx_cons (r := { r with stage := .ended p.t0 p.t1 p.answer }) _ _ rfl rfl]
    rfl
  have hanswered : ∀ hist, State.runRx (.clock p.t1 :: .fcb :: rest)
      { s with history := hist, rx := some { r with stage := .answered p.t0 p.answer } } =
      State.runRx (.fcb :: rest)
        { s with history := .clock p.t1 :: hist, rx := some { r with stage := .ended p.t0 p.t1 p.answer } } :=
    fun hist => by
      rw [runRx_cons (r := { r with stage := .answered p.t0 p.answer }) _ _ rfl rfl]
      rfl
  have hreading : ∀ hist, State.runRx (.phy p.answer :: .clock p.t1 :: .fcb :: rest)
      { s with history := hist, rx := some { r with stage := .reading p.t0 } } =
      State.runRx (.clock p.t1 :: .fcb :: rest)
        { s with history := .phyRead (s.request r) p.answer :: hist,
                 rx := some { r with stage := .answered p.t0 p.answer } } := fun hist => by
    rw [runRx_cons (r := { r with stage := .reading p.t0 }) _ _ rfl rfl]
    have h1 : State.receiveInput { s with history := hist, rx := some { r with stage := .reading p.t0 } }
        { r with stage := .reading p.t0 } (.phy p.answer) =
        .next { s with history := .phyRead (s.request r) p.answer :: hist,
                       rx := some { r with stage := .answered p.t0 p.answer } } := by
      simp only [State.receiveInput]
      rw [if_pos (by exact hf)]
      rfl
    rw [h1, andThen_next]
  have hs : ∀ st, r.stage = st → { s with history := s.history, rx := some { r with stage := st } } = s :=
    fun st h => by rw [Rx.eta_stage h]; exact State.eta_rx hrx
  unfold pollEnd
  cases hr : r.stage with
  | start =>
    simp only [Poll.left, Poll.leftEvents, Poll.moves, Poll.events, List.cons_append, List.nil_append]
    have h1 : s.receiveInput r (.clock p.t0) =
        .next { s with history := .clock p.t0 :: s.history, rx := some { r with stage := .reading p.t0 } } := by
      simp only [State.receiveInput, hr]; rfl
    rw [runRx_cons _ _ hrx rfl, h1, andThen_next, hreading, hanswered, hended]
  | reading t0 =>
    simp only [hr, Poll.resumes] at hst
    subst hst
    simp only [Poll.left, Poll.leftEvents, List.cons_append, List.nil_append]
    conv_lhs => rw [← hs _ hr]
    rw [hreading, hanswered, hended]
  | answered t0 answer =>
    simp only [hr, Poll.resumes] at hst
    obtain ⟨rfl, rfl⟩ := hst
    simp only [Poll.left, Poll.leftEvents, List.cons_append, List.nil_append]
    conv_lhs => rw [← hs _ hr]
    rw [hanswered, hended]
  | ended t0 t1 answer =>
    simp only [hr, Poll.resumes] at hst
    obtain ⟨rfl, rfl, rfl⟩ := hst
    simp only [Poll.left, Poll.leftEvents, List.cons_append, List.nil_append]
    conv_lhs => rw [← hs _ hr]
    rw [hended]

/-- What is left of a poll begins with a move the FCB waits for. -/
theorem Poll.left_cons (p : Poll) (stage : PollStage) :
    ∃ i is, p.left stage = i :: is ∧ interrupts i = false := by
  cases stage <;> exact ⟨_, _, rfl, rfl⟩

/-- A whole poll, its answer within the request. -/
theorem runRx_poll {s : State} {r : Rx} (p : Poll) (rest : List Input) (hrx : s.rx = some r)
    (hst : r.stage = .start) (hf : answerFits (s.request r) p.answer = true) :
    State.runRx (p.moves ++ rest) s =
      State.runRx rest
        ((pollEnd s r p).finishPoll { r with stage := .ended p.t0 p.t1 p.answer } p.t0 p.t1 p.answer) := by
  have h := runRx_left p rest hrx (by rw [hst]; trivial) hf
  rwa [show p.left r.stage = p.moves by rw [hst]; rfl] at h

/-! ### The accounting step -/

/-- The accounting step either fails with TIMEOUT_ERROR, the budget used up, or goes on below it (42_transceiver.md
R172, R173). -/
theorem account_cases (s : State) (r : Rx) (t0 t1 : Word) :
    (tmoEff s ≤ (accountElapsed t0 t1 s.elapsed).toNat ∧
      s.account r t0 t1 = { s with elapsed := accountElapsed t0 t1 s.elapsed }.failRx .timeoutError) ∨
    ((accountElapsed t0 t1 s.elapsed).toNat < tmoEff s ∧
      s.account r t0 t1 =
        { s with elapsed := accountElapsed t0 t1 s.elapsed, rx := some { r with stage := .start } }) := by
  simp only [State.account]
  split
  · exact .inl ⟨‹_›, rfl⟩
  · exact .inr ⟨by omega, rfl⟩

theorem account_timeout {s : State} {t0 t1 : Word} (r : Rx)
    (h : tmoEff s ≤ (accountElapsed t0 t1 s.elapsed).toNat) :
    s.account r t0 t1 = { s with elapsed := accountElapsed t0 t1 s.elapsed }.failRx .timeoutError := by
  simp only [State.account, if_pos h]

theorem account_within {s : State} {t0 t1 : Word} (r : Rx)
    (h : (accountElapsed t0 t1 s.elapsed).toNat < tmoEff s) :
    s.account r t0 t1 =
      { s with elapsed := accountElapsed t0 t1 s.elapsed, rx := some { r with stage := .start } } := by
  simp only [State.account, if_neg (Nat.not_le.mpr h)]

/-- A positive delta advances the elapsed counter by itself, if 32 bits hold the sum (42_transceiver.md R172). -/
theorem accountElapsed_pos {t0 t1 e : Word} (h : 0 < clockDelta t0 t1) (hb : (e.toNat : Int) + clockDelta t0 t1 < 2 ^ 32) :
    ((accountElapsed t0 t1 e).toNat : Int) = e.toNat + clockDelta t0 t1 := by
  rw [accountElapsed, if_neg (by omega)]
  have hd : clockDelta t0 t1 = ((t1 - t0).toNat : Int) := by
    have h2 := BitVec.toInt_eq_toNat_cond (t1 - t0)
    simp only [clockDelta] at *
    split at h2 <;> omega
  rw [hd] at hb ⊢
  rw [BitVec.toNat_add]
  omega

theorem accountElapsed_nonpos {t0 t1 : Word} (e : Word) (h : clockDelta t0 t1 ≤ 0) : accountElapsed t0 t1 e = 0 := by
  rw [accountElapsed, if_pos h]

end Sys2Proof.Machine
end

