-- ==== Sys2Proof/Laws/Exec.lean ====
section
/-! SUPPORT. What each command can do when it answers a next state, and when it faults. -/

namespace Sys2Proof.Machine

/-- Completion of a command that runs with no phase in progress. -/
theorem complete_of_idle {s : State} (hp : s.phase = .idle) (hr : s.rx = none) (e : ErrCode) :
    s.complete e = { s with err := e, busy := false, cmd := none, epoch := s.epoch + 1 } := by
  cases s
  simp only at hp hr
  subst hp hr
  rfl

theorem execSetgen_cases (gen : Arg) (s : State) :
    (∃ g, genOfArg gen = some g ∧ execSetgen gen s = .next ({ s with gen := g }.complete .ok)) ∨
    (genOfArg gen = none ∧ execSetgen gen s = .next (s.complete .illegal)) := by
  unfold execSetgen
  cases h : genOfArg gen with
  | none => exact .inr ⟨rfl, rfl⟩
  | some g => exact .inl ⟨g, rfl, rfl⟩

theorem genOfArg_eq_some {gen : Arg} {g : Gen} : genOfArg gen = some g ↔ gen.toNat = (genCode g).toNat := by
  have hn : ∀ k : Nat, k < 2 ^ 24 → (gen = BitVec.ofNat 24 k ↔ gen.toNat = k) := fun k hk =>
    ⟨fun h => by rw [h, BitVec.toNat_ofNat, Nat.mod_eq_of_lt hk],
     fun h => BitVec.eq_of_toNat_eq (by rw [h, BitVec.toNat_ofNat, Nat.mod_eq_of_lt hk])⟩
  have h1 := hn 1 (by decide)
  have h2 := hn 2 (by decide)
  have h3 := hn 3 (by decide)
  unfold genOfArg
  simp only [BitVec.ofNat_eq_ofNat, h1, h2, h3]
  cases g <;> (repeat' split) <;> simp_all [genCode]

theorem genOfArg_eq_none {gen : Arg} : genOfArg gen = none ↔ gen.toNat = 0 ∨ 3 < gen.toNat := by
  constructor
  · intro h
    have h1 : ∀ g, gen.toNat ≠ (genCode g).toNat := fun g hg => by
      rw [genOfArg_eq_some.mpr hg] at h; cases h
    have := h1 .g1; have := h1 .g2; have := h1 .g3
    simp only [genCode, BitVec.ofNat_eq_ofNat, BitVec.toNat_ofNat] at *
    omega
  · intro h
    cases hg : genOfArg gen with
    | none => rfl
    | some g =>
      have := genOfArg_eq_some.mp hg
      cases g <;> simp [genCode] at this <;> omega

theorem execSetck_cases (en : Arg) (s : State) :
    (∃ b, execSetck en s = .next ({ s with cken := b }.complete .ok)) ∨
    execSetck en s = .next (s.complete .illegal) := by
  unfold execSetck
  split
  · exact .inl ⟨_, rfl⟩
  · split
    · exact .inl ⟨_, rfl⟩
    · exact .inr rfl

theorem execCksum_cases (sel : BitVec 1) (n : Half) (s : State) :
    (s.params.bufBytes < n.toNat ∧ execCksum sel n s = .next (s.complete .illegal)) ∨
    (n.toNat ≤ s.params.bufBytes ∧ s.bufRange (selectBuf sel) 0 n.toNat = none ∧
      execCksum sel n s = .fault .unwritten) ∨
    (∃ bs, n.toNat ≤ s.params.bufBytes ∧ s.bufRange (selectBuf sel) 0 n.toNat = some bs ∧
      execCksum sel n s = .next ({ s with cksum := xor8 bs }.complete .ok)) := by
  unfold execCksum
  split
  · exact .inl ⟨‹_›, rfl⟩
  · right
    cases h : s.bufRange (selectBuf sel) 0 n.toNat with
    | none => exact .inl ⟨by omega, rfl, rfl⟩
    | some bs => exact .inr ⟨bs, by omega, rfl, rfl⟩

theorem execEncode_cases (size : Half) (s : State) :
    (maxPayload s.params s.gen < size.toNat ∧ execEncode size s = .next (s.complete .illegal)) ∨
    (size.toNat ≤ maxPayload s.params s.gen ∧ s.bufRange .tx 0 (bodyLen s.gen size.toNat) = none ∧
      execEncode size s = .fault .unwritten) ∨
    (∃ body, size.toNat ≤ maxPayload s.params s.gen ∧
      s.bufRange .tx 0 (bodyLen s.gen size.toNat) = some body ∧
      execEncode size s =
        .next ({ s.putBuf .frame 0 (frameBytes s.params s.gen size body) with
                   lastck := some (frameChecksum s.gen size body),
                   frlen := BitVec.ofNat 16 (frameLen s.gen size.toNat) }.complete .ok)) := by
  unfold execEncode
  split
  · exact .inl ⟨‹_›, rfl⟩
  · right
    cases h : s.bufRange .tx 0 (bodyLen s.gen size.toNat) with
    | none => exact .inl ⟨by omega, rfl, rfl⟩
    | some bs => exact .inr ⟨bs, by omega, rfl, rfl⟩

/-- Whatever DECODE answers, it has written only MSGEND, RXSIZE, RXCK and completed, with OK, PROT_ERROR or
ILLEGAL. -/
theorem execDecode_cases {n : Half} {s t : State} (h : execDecode n s = .next t) :
    ∃ (m : Bool) (size ck : Half) (e : ErrCode),
      t = { s with msgend := m, rxsize := size, rxck := ck }.complete e ∧
      (e = .ok ∨ e = .protError ∨ (e = .illegal ∧ s.params.bufBytes < n.toNat)) := by
  unfold execDecode at h
  split at h
  · cases h; exact ⟨s.msgend, s.rxsize, s.rxck, .illegal, rfl, by simp; assumption⟩
  · split at h
    · cases h; exact ⟨false, s.rxsize, s.rxck, .protError, rfl, by simp⟩
    · split at h
      · cases h
      · rename_i field _
        unfold decodeBody at h
        split at h
        · cases h; exact ⟨false, fieldValue s.gen field, s.rxck, .protError, rfl, by simp⟩
        · split at h
          · cases h; exact ⟨false, fieldValue s.gen field, s.rxck, .protError, rfl, by simp⟩
          · split at h
            · cases h
            · cases h
              unfold decodeTrailer acceptFrame
              split
              · exact ⟨false, fieldValue s.gen field, s.rxck, .protError, rfl, by simp⟩
              · exact ⟨_, fieldValue s.gen field, _, .ok, rfl, by simp⟩

theorem execDecode_fault {n : Half} {s : State} {f : Fault} (h : execDecode n s = .fault f) : f = .unwritten := by
  unfold execDecode at h
  repeat' split at h
  all_goals first
    | (cases h; done)
    | (cases h; rfl)
    | (unfold decodeBody at h
       repeat' split at h
       all_goals first
         | (cases h; rfl)
         | cases h)

theorem execRxack_cases (s : State) :
    (s.gen = .g1 ∧ execRxack s = .next (s.complete .illegal)) ∨
    (s.gen ≠ .g1 ∧ s.lastck = none ∧ execRxack s = .fault .unwritten) ∨
    (s.gen ≠ .g1 ∧ s.lastck.isSome = true ∧ execRxack s = State.runRx s.inputs s.beginAck) := by
  unfold execRxack
  split
  · exact .inl ⟨‹_›, rfl⟩
  · right
    cases h : s.lastck with
    | none => exact .inl ⟨‹_›, rfl, rfl⟩
    | some c => exact .inr ⟨‹_›, rfl, rfl⟩

theorem receiveInput_not_refused (s : State) (r : Rx) (i : Input) (e : Refusal) :
    s.receiveInput r i ≠ .refused e := by
  unfold State.receiveInput
  split
  · nofun
  · split <;> nofun
  all_goals nofun

/-- A run of moves is never refused. -/
theorem runRx_not_refused (is : List Input) (s : State) (e : Refusal) : State.runRx is s ≠ .refused e := by
  induction is generalizing s with
  | nil => nofun
  | cons i is ih =>
    cases hrx : s.rx with
    | none => rw [runRx_idle _ hrx]; nofun
    | some r =>
      cases hi : interrupts i with
      | true => rw [runRx_interrupted _ _ _ hi]; nofun
      | false =>
        rw [runRx_cons _ _ hrx hi]
        cases hu : s.receiveInput r i with
        | next u => exact ih u
        | fault f => nofun
        | refused e' => exact absurd hu (receiveInput_not_refused _ _ _ _)

end Sys2Proof.Machine
end

