-- ==== Sys2Proof/Laws/Frame.lean ====
section
/-! SUPPORT. Frame lengths, the wire fields and the checksum. -/

namespace Sys2Proof.Machine

/-! ### Lengths (30_encoding.md R104) -/

theorem sizeLen_pos (g : Gen) : 1 ≤ sizeLen g := by cases g <;> decide

theorem sizeLen_le (g : Gen) : sizeLen g ≤ 2 := by cases g <;> decide

theorem ckLen_pos (g : Gen) : 1 ≤ ckLen g := by cases g <;> decide

theorem bodyLen_mono (g : Gen) {m n : Nat} (h : m ≤ n) : bodyLen g m ≤ bodyLen g n := by
  cases g <;> simp only [bodyLen, ceil16] <;> omega

theorem frameLen_mono (g : Gen) {m n : Nat} (h : m ≤ n) : frameLen g m ≤ frameLen g n := by
  have := bodyLen_mono g h
  simp only [frameLen]; omega

theorem frameLen_eq (g : Gen) (size : Nat) : frameLen g size = 1 + sizeLen g + bodyLen g size + ckLen g := rfl

/-- Every legal frame fits every buffer (00_scope.md R10). -/
theorem frameLen_le_bufBytes {p : Params} (hp : p.Valid) (g : Gen) {size : Nat} (h : size ≤ maxPayload p g) :
    frameLen g size ≤ p.bufBytes := by
  refine le_trans (frameLen_mono g h) ?_
  obtain ⟨-, -, -, -, -, -, h1, h2, h3⟩ := hp
  cases g <;> simp only [frameLen, sizeLen, bodyLen, ckLen, maxPayload, ivLen, ceil16] <;> omega

theorem maxPayload_pos {p : Params} (hp : p.Valid) (g : Gen) : 1 ≤ maxPayload p g := by
  obtain ⟨-, h1, h2, h3, -⟩ := hp
  cases g <;> simp only [maxPayload] <;> omega

/-! ### Wire fields -/

@[simp] theorem wire16_eq (x y : Byte) : wire16 x y = y ++ x := rfl

@[simp] theorem wireBytes_eq (v : Half) : wireBytes v = [v.extractLsb' 0 8, v.extractLsb' 8 8] := rfl

@[simp] theorem sizeBytes_length (g : Gen) (size : Half) : (sizeBytes g size).length = sizeLen g := by
  cases g <;> rfl

@[simp] theorem trailerBytes_length (g : Gen) (ck : Byte) : (trailerBytes g ck).length = ckLen g := by
  cases g <;> rfl

@[simp] theorem frameBytes_length (p : Params) (g : Gen) (size : Half) (body : List Byte)
    (h : body.length = bodyLen g size.toNat) : (frameBytes p g size body).length = frameLen g size.toNat := by
  simp only [frameBytes, List.length_cons, List.length_append, sizeBytes_length, trailerBytes_length, h, frameLen]
  omega

theorem wire16_of_bytes (v : Half) : (v.extractLsb' 8 8 ++ v.extractLsb' 0 8 : Half) = v := by
  ext i hi
  simp only [BitVec.getElem_append, BitVec.getElem_extractLsb']
  split
  · simp [BitVec.getLsbD_eq_getElem hi]
  · rw [show 8 + (i - 8) = i by omega]; simp [BitVec.getLsbD_eq_getElem hi]

/-- Reading back the size field of a legal frame gives the size (30_encoding.md R107). -/
theorem fieldValue_sizeBytes {p : Params} (hp : p.Valid) (g : Gen) {size : Half}
    (h : size.toNat ≤ maxPayload p g) (more : List Byte) : fieldValue g (sizeBytes g size ++ more) = size := by
  obtain ⟨-, ⟨-, h1⟩, -⟩ := hp
  cases g with
  | g1 =>
    simp only [maxPayload] at h
    simp only [fieldValue, sizeBytes, List.cons_append, List.nil_append, List.getD_cons_zero]
    apply BitVec.eq_of_toNat_eq
    simp only [BitVec.toNat_setWidth, BitVec.extractLsb'_toNat]
    omega
  | g2 => simpa [fieldValue, sizeBytes] using wire16_of_bytes size
  | g3 => simpa [fieldValue, sizeBytes] using wire16_of_bytes size

/-- The trailer ENCODE writes reads back as the checksum, zero-extended (40_checksum.md R122). -/
theorem fieldValue_trailerBytes (g : Gen) (ck : Byte) : fieldValue g (trailerBytes g ck) = ck.setWidth 16 := by
  cases g with
  | g1 => rfl
  | g2 => simpa [fieldValue, trailerBytes] using wire16_of_bytes (ck.setWidth 16)
  | g3 => simpa [fieldValue, trailerBytes] using wire16_of_bytes (ck.setWidth 16)

/-! ### Checksum (40_checksum.md R120) -/

theorem foldl_xor (acc : Byte) (bs : List Byte) : bs.foldl (fun a b => a ^^^ b) acc = acc ^^^ xor8 bs := by
  induction bs generalizing acc with
  | nil => simp [xor8]
  | cons b bs ih => simp only [xor8, List.foldl_cons] at *; rw [ih, ih (0 ^^^ b)]; simp [BitVec.xor_assoc]

@[simp] theorem xor8_nil : xor8 [] = 0 := rfl

@[simp] theorem xor8_cons (b : Byte) (bs : List Byte) : xor8 (b :: bs) = b ^^^ xor8 bs := by
  show bs.foldl (fun a b => a ^^^ b) (0 ^^^ b) = _
  rw [foldl_xor]; simp

@[simp] theorem xor8_append (as bs : List Byte) : xor8 (as ++ bs) = xor8 as ^^^ xor8 bs := by
  induction as with
  | nil => simp
  | cons a as ih => simp [ih, BitVec.xor_assoc]

theorem trailerMatches_iff (t : Half) (c : Byte) : trailerMatches t c = true ↔ t = c.setWidth 16 := by
  simp [trailerMatches]

end Sys2Proof.Machine
end

