-- ==== Sys2Proof/Laws/Invariant.lean ====
section
/-! SUPPORT. The invariant: it is kept by each shared operation. -/

namespace Sys2Proof.Machine

/-- The part of the invariant that does not speak of the command in progress. -/
structure State.Base (s : State) : Prop where
  params : s.params.Valid
  memWf : Memory.wf s.mem
  memInBuffers : ∀ c ∈ s.mem, isBufferByte s.params c.1 = true
  frlenFits : s.frlen.toNat ≤ s.params.bufBytes
  rxlenFits : s.rxlen.toNat ≤ s.params.bufBytes

theorem State.Inv.base {s : State} (h : s.Inv) : s.Base :=
  ⟨h.params, h.memWf, h.memInBuffers, h.frlenFits, h.rxlenFits⟩

theorem bufBytes_le {p : Params} (h : p.Valid) : p.bufBytes ≤ 4096 := h.2.2.2.2.2.1.2

theorem bufBytes_pos {p : Params} (h : p.Valid) : 1 ≤ p.bufBytes := h.2.2.2.2.2.1.1

theorem tmoEff_pos {s : State} (h : s.params.Valid) : 1 ≤ tmoEff s := by
  have h1 := h.2.2.2.2.1.1
  simp only [tmoEff]
  split
  · exact h1
  · rename_i h2
    have : s.timeout.toNat ≠ 0 := fun h3 => h2 (BitVec.eq_of_toNat_eq (by simpa using h3))
    omega

theorem tmoEff_lt {s : State} (h : s.params.Valid) : tmoEff s < 2 ^ 24 := by
  have h1 := h.2.2.2.2.1.2
  simp only [tmoEff]
  split
  · omega
  · exact s.timeout.isLt

/-- Below the effective timeout the accounting step cannot overflow (42_transceiver.md R172). -/
theorem accountElapsed_toNat {s : State} (hp : s.params.Valid) (t0 t1 : Word) (he : s.elapsed.toNat < tmoEff s) :
    ((accountElapsed t0 t1 s.elapsed).toNat : Int) =
      if clockDelta t0 t1 ≤ 0 then 0 else (s.elapsed.toNat : Int) + clockDelta t0 t1 := by
  split
  · rename_i h; rw [accountElapsed_nonpos _ h]; rfl
  · have h1 := tmoEff_lt hp
    have h2 := BitVec.toInt_lt (x := t1 - t0)
    refine accountElapsed_pos (by omega) ?_
    simp only [clockDelta]
    omega

/-- Storing bytes within a buffer keeps the base. -/
theorem putBuf_base {s : State} (h : s.Base) (b : Buf) (i : Nat) (bs : List Byte)
    (hb : i + bs.length ≤ s.params.bufBytes) : (s.putBuf b i bs).Base where
  params := h.params
  memWf := writeRange_wf _ _ h.memWf
  memInBuffers := by
    intro c hc
    rcases mem_writeRange hc with hc | hc
    · exact h.memInBuffers c hc
    · have := isBufferByte_base s.params b (c.1 - b.base) (by omega) (bufBytes_le h.params)
      rwa [show b.base + (c.1 - b.base) = c.1 by omega] at this
  frlenFits := h.frlenFits
  rxlenFits := h.rxlenFits

/-- Completion with any code the FCB produces establishes the invariant. -/
theorem complete_inv {s : State} (h : s.Base) {e : ErrCode} (he : e ≠ .devError) : (s.complete e).Inv where
  params := h.params
  memWf := h.memWf
  memInBuffers := h.memInBuffers
  busyIff := rfl
  oneCommand := .inl rfl
  phaseIdle := by simp
  errProduced := he
  frlenFits := h.frlenFits
  rxlenFits := h.rxlenFits
  phaseFits := by simp
  stageFits := by simp
  withinBudget := by simp

theorem failRx_inv {s : State} (h : s.Base) {e : ErrCode} (he : e ≠ .devError) : (s.failRx e).Inv :=
  complete_inv (s := s.note .phyFlush) ⟨h.params, h.memWf, h.memInBuffers, h.frlenFits, h.rxlenFits⟩ he

theorem beginSeek_inv {s : State} (h : s.Base) (hb : s.busy = true) (hc : s.cmd = none) (he : s.err ≠ .devError)
    (b : Bool) : (s.beginSeek b).Inv where
  params := h.params
  memWf := h.memWf
  memInBuffers := h.memInBuffers
  busyIff := by simp [hb]
  oneCommand := .inl hc
  phaseIdle := by simp
  errProduced := he
  frlenFits := h.frlenFits
  rxlenFits := by simp
  phaseFits := by intro r _; simp [phaseOk]
  stageFits := by intro r hr; cases hr; simp [stageOk]
  withinBudget := by intro r _; exact tmoEff_pos (s := s.beginSeek b) h.params

theorem beginBody_inv {s : State} (h : s.Base) (hb : s.busy = true) (hc : s.cmd = none) (he : s.err ≠ .devError) :
    s.beginBody.Inv where
  params := h.params
  memWf := h.memWf
  memInBuffers := h.memInBuffers
  busyIff := by simp [hb]
  oneCommand := .inl hc
  phaseIdle := by simp
  errProduced := he
  frlenFits := h.frlenFits
  rxlenFits := bufBytes_pos h.params
  phaseFits := by
    intro r hr; cases hr
    refine ⟨rfl, fun i hi => ?_, ?_⟩
    · simp at hi
    · exact sizeLen_pos s.gen
  stageFits := by intro r hr; cases hr; simp [stageOk]
  withinBudget := by intro r _; exact tmoEff_pos (s := s.beginBody) h.params

theorem beginAck_inv {s : State} (h : s.Base) (hb : s.busy = true) (hc : s.cmd = none) (he : s.err ≠ .devError)
    (hg : s.gen ≠ .g1) (hl : s.lastck.isSome = true) : s.beginAck.Inv where
  params := h.params
  memWf := h.memWf
  memInBuffers := h.memInBuffers
  busyIff := by simp [hb]
  oneCommand := .inl hc
  phaseIdle := by simp
  errProduced := he
  frlenFits := h.frlenFits
  rxlenFits := h.rxlenFits
  phaseFits := by
    intro r hr; cases hr
    exact ⟨hg, hl, rfl, rfl, by decide⟩
  stageFits := by intro r hr; cases hr; simp [stageOk]
  withinBudget := by intro r _; exact tmoEff_pos (s := s.beginAck) h.params

/-- The state a receive phase is in between two polls: the invariant but for the budget and the stage. -/
structure State.Running (s : State) (r : Rx) : Prop extends s.Base where
  busy : s.busy = true
  cmd : s.cmd = none
  notIdle : s.phase ≠ .idle
  err : s.err ≠ .devError
  phaseFits : phaseOk s r

theorem State.Inv.running {s : State} {r : Rx} (h : s.Inv) (hr : s.rx = some r) : s.Running r where
  toBase := h.base
  busy := by simp [h.busyIff, hr]
  cmd := h.oneCommand.resolve_right (by simp [hr])
  notIdle := fun hp => by simp [h.phaseIdle.mp hp] at hr
  err := h.errProduced
  phaseFits := h.phaseFits r hr

/-- A running phase with its stage and its budget in order meets the invariant. -/
theorem State.Running.inv {s : State} {r : Rx} (h : s.Running r) (hr : s.rx = some r) (hst : stageOk s r)
    (ht : s.elapsed.toNat < tmoEff s) : s.Inv where
  params := h.params
  memWf := h.memWf
  memInBuffers := h.memInBuffers
  busyIff := by simp [h.busy, hr]
  oneCommand := .inl h.cmd
  phaseIdle := by simp [h.notIdle, hr]
  errProduced := h.err
  frlenFits := h.frlenFits
  rxlenFits := h.rxlenFits
  phaseFits := by intro r' hr'; rw [hr] at hr'; cases hr'; exact h.phaseFits
  stageFits := by intro r' hr'; rw [hr] at hr'; cases hr'; exact hst
  withinBudget := by intro _ _; exact ht

/-- The hidden state but for the stage decides whether it fits the phase. -/
theorem phaseOk_stage (s : State) (r : Rx) (st : PollStage) : phaseOk s { r with stage := st } ↔ phaseOk s r :=
  Iff.rfl

/-- The accounting step of a running phase keeps the invariant. -/
theorem account_inv {s : State} {r : Rx} (h : s.Running r) (t0 t1 : Word) : (s.account r t0 t1).Inv := by
  rcases account_cases s r t0 t1 with ⟨-, he⟩ | ⟨hlt, he⟩
  · rw [he]
    refine failRx_inv ?_ (by simp)
    exact ⟨h.params, h.memWf, h.memInBuffers, h.frlenFits, h.rxlenFits⟩
  · rw [he]
    refine State.Running.inv (r := { r with stage := .start }) ?_ rfl (by simp [stageOk]) hlt
    exact { toBase := ⟨h.params, h.memWf, h.memInBuffers, h.frlenFits, h.rxlenFits⟩
            busy := h.busy, cmd := h.cmd, notIdle := h.notIdle, err := h.err, phaseFits := h.phaseFits }

theorem storeMarker_base {s : State} (h : s.Base) (b : Byte) : (s.storeMarker [b]).Base := by
  have := putBuf_base h .rx 0 [b] (by simpa using bufBytes_pos h.params)
  exact ⟨this.params, this.memWf, this.memInBuffers, this.frlenFits, bufBytes_pos h.params⟩

theorem seekBytes_inv {s : State} {r : Rx} (h : s.Running r) (t0 t1 : Word) (bs : List Byte) :
    (s.seekBytes r t0 t1 bs).Inv := by
  simp only [State.seekBytes]
  split
  · rename_i hbs
    subst hbs
    split
    · exact beginBody_inv (storeMarker_base h.toBase _) h.busy h.cmd h.err
    · exact complete_inv (storeMarker_base h.toBase _) (by simp)
  · exact account_inv h t0 t1

theorem bodyGoOn_inv {s : State} {r : Rx} (t0 t1 : Word) (hb : s.Base)
    (h : r.target ≠ some r.got → s.Running r) : (s.bodyGoOn r t0 t1).Inv := by
  simp only [State.bodyGoOn]
  split
  · exact complete_inv hb (by simp)
  · exact account_inv (h ‹_›) t0 t1

/-- Registers other than FRLEN and RXLEN play no part in the base. -/
theorem base_rxsize {s : State} (h : s.Base) (size : Half) : State.Base { s with rxsize := size } :=
  ⟨h.params, h.memWf, h.memInBuffers, h.frlenFits, h.rxlenFits⟩

/-- What a running BODY phase has received fits the buffer, a further answer within its request included. -/
theorem body_fits {s : State} {r : Rx} (h : s.Running r) (hp : s.phase = .body) {n : Nat} (hn : n ≤ s.request r) :
    1 + (r.got + n) ≤ s.params.bufBytes := by
  have htarget := h.phaseFits
  simp only [phaseOk, hp, bodyTargetOk] at htarget
  simp only [State.request, hp] at hn
  have h0 := frameLen_le_bufBytes h.params s.gen (size := 0) (Nat.zero_le _)
  rw [frameLen_eq] at h0
  cases htg : r.target with
  | none => simp only [htg] at hn htarget; omega
  | some tg =>
    simp only [htg] at hn htarget
    have h1 := frameLen_le_bufBytes h.params s.gen htarget.2.2.1
    omega

theorem storeBody_base {s : State} {r : Rx} {bs : List Byte} (h : s.Base)
    (hfit : 1 + (r.got + bs.length) ≤ s.params.bufBytes) : (s.storeBody r bs).Base := by
  have := putBuf_base h .rx (1 + r.got) bs (by omega)
  refine ⟨this.params, this.memWf, this.memInBuffers, this.frlenFits, ?_⟩
  simp only [storeBody_rxlen, storeBody_params, BitVec.toNat_ofNat]
  exact le_trans (Nat.mod_le _ _) hfit

/-- Storing the bytes of a poll extends the bytes of the frame held. -/
theorem storeBody_stored {s : State} {r : Rx} (bs : List Byte) (h : bodyStored s r.got) :
    bodyStored (s.storeBody r bs) (r.got + bs.length) := by
  intro i hi
  by_cases hlt : i < r.got
  · have h1 := read_putBuf_outside s .rx (1 + r.got) (Buf.rx.base + (1 + i)) bs (by omega)
    have h2 := h i hlt
    simp only [State.bufByte] at h2 ⊢
    exact h1 ▸ h2
  · have h1 := bufByte_putBuf_inside s .rx (1 + r.got) (i - r.got) bs (by omega)
    rw [show 1 + r.got + (i - r.got) = 1 + i by omega] at h1
    have h3 : (s.storeBody r bs).bufByte .rx (1 + i) = (s.putBuf .rx (1 + r.got) bs).bufByte .rx (1 + i) := rfl
    rw [h3, h1]; rfl

/-- The end of a poll of the BODY phase whose answer was within the request: it goes on under the invariant. -/
theorem bodyBytes_inv {s : State} {r : Rx} (h : s.Running r) (hp : s.phase = .body) (t0 t1 : Word)
    (bs : List Byte) (hf : bs.length ≤ s.request r) : (s.bodyBytes r t0 t1 bs).Inv := by
  have hfit := body_fits h hp hf
  have hbase := storeBody_base h.toBase hfit
  have hbuf := bufBytes_le h.params
  have hph := h.phaseFits
  simp only [phaseOk, hp] at hph
  obtain ⟨hlen, hstored, htarget⟩ := hph
  have hst1 := storeBody_stored bs hstored
  simp only [State.request, hp] at hf
  have hrxlen : (s.storeBody r bs).rxlen.toNat = 1 + (r.got + bs.length) := by
    simp only [storeBody_rxlen, BitVec.toNat_ofNat]; omega
  simp only [State.bodyBytes]
  split
  · rename_i hc
    simp only [State.bodySize]
    split
    · exact failRx_inv (base_rxsize hbase _) (by simp)
    · rename_i hle
      refine bodyGoOn_inv _ _ (base_rxsize hbase _) (fun hne => ?_)
      refine { toBase := base_rxsize hbase _, busy := h.busy, cmd := h.cmd, notIdle := h.notIdle, err := h.err,
               phaseFits := ?_ }
      simp only [phaseOk, storeBody_phase, hp]
      refine ⟨hrxlen, hst1, ?_⟩
      have hck := ckLen_pos s.gen
      refine ⟨Nat.not_lt.mp hle, ?_, le_of_eq hc.2.symm, ?_⟩
      · simp only [storeBody_gen, frameLen_eq]; omega
      · simp only [storeBody_gen]; rw [hc.2]; omega
  · rename_i hc
    refine bodyGoOn_inv _ _ hbase (fun hne => ?_)
    refine { toBase := hbase, busy := h.busy, cmd := h.cmd, notIdle := h.notIdle, err := h.err, phaseFits := ?_ }
    simp only [phaseOk, storeBody_phase, hp]
    refine ⟨hrxlen, hst1, ?_⟩
    simp only [bodyTargetOk, storeBody_params, storeBody_gen, storeBody_rxsize] at htarget ⊢
    cases htg : r.target with
    | none => simp only [htg] at htarget hf hc ⊢; simp only [true_and] at hc; omega
    | some tg =>
      simp only [htg] at htarget hf hne ⊢
      refine ⟨htarget.1, htarget.2.1, by omega, ?_⟩
      have : tg ≠ r.got + bs.length := fun h1 => hne (by simp [h1])
      omega

theorem ackBytes_inv {s : State} {r : Rx} (h : s.Running r) (hp : s.phase = .ack) (t0 t1 : Word)
    (bs : List Byte) (hf : bs.length ≤ s.request r) : (s.ackBytes r t0 t1 bs).Inv := by
  have hph := h.phaseFits
  simp only [phaseOk, hp] at hph
  obtain ⟨hg, hl, hn, hlen, hgot⟩ := hph
  simp only [State.request, hp] at hf
  simp only [State.ackBytes]
  have hbase := h.toBase
  split
  · simp only [State.ackRecord, State.ackCompare]
    split
    · refine complete_inv ?_ (by simp)
      exact ⟨hbase.params, hbase.memWf, hbase.memInBuffers, hbase.frlenFits, hbase.rxlenFits⟩
    · refine failRx_inv ?_ (by simp)
      exact ⟨hbase.params, hbase.memWf, hbase.memInBuffers, hbase.frlenFits, hbase.rxlenFits⟩
  · refine account_inv { toBase := hbase, busy := h.busy, cmd := h.cmd, notIdle := h.notIdle, err := h.err,
                         phaseFits := ?_ } t0 t1
    simp only [phaseOk, hp]
    exact ⟨hg, hl, hn, by simp [hlen], by omega⟩

/-- The end of a poll whose answer was within the request keeps the invariant. -/
theorem finishPoll_inv {s : State} {r : Rx} (h : s.Running r) (t0 t1 : Word) (answer : PhyAnswer)
    (hf : answerFits (s.request r) answer = true) :
    (s.finishPoll r t0 t1 answer).Inv := by
  cases answer with
  | negative => exact failRx_inv h.toBase (by simp)
  | bytes bs =>
    simp only [answerFits, decide_eq_true_eq] at hf
    simp only [State.finishPoll]
    split
    · exact absurd ‹_› h.notIdle
    · exact seekBytes_inv h t0 t1 bs
    · exact bodyBytes_inv h ‹_› t0 t1 bs hf
    · exact ackBytes_inv h ‹_› t0 t1 bs hf

/-- The invariant does not read the environment's moves, the history or the model's indices. -/
theorem Inv_env {s : State} (h : s.Inv) (inputs : List Input) (drawn draws : Nat) (hostData : Word)
    (history : List Event) :
    State.Inv { s with inputs := inputs, drawn := drawn, draws := draws, hostData := hostData,
                       history := history } where
  params := h.params
  memWf := h.memWf
  memInBuffers := h.memInBuffers
  busyIff := h.busyIff
  oneCommand := h.oneCommand
  phaseIdle := h.phaseIdle
  errProduced := h.errProduced
  frlenFits := h.frlenFits
  rxlenFits := h.rxlenFits
  phaseFits := h.phaseFits
  stageFits := h.stageFits
  withinBudget := h.withinBudget

/-- A move a receive command accepts keeps the invariant. -/
theorem receiveInput_inv {s t : State} {r : Rx} {i : Input} (h : s.Inv) (hr : s.rx = some r)
    (ht : s.receiveInput r i = .next t) : t.Inv := by
  have hrun := h.running hr
  have hbase := hrun.toBase
  have hmove : ∀ (st : PollStage) (hist : List Event), stageOk s { r with stage := st } →
      State.Inv { s with history := hist, rx := some { r with stage := st } } := fun st hist hst =>
    State.Running.inv (s := { s with history := hist, rx := some { r with stage := st } })
      (r := { r with stage := st })
      { toBase := ⟨hbase.params, hbase.memWf, hbase.memInBuffers, hbase.frlenFits, hbase.rxlenFits⟩
        busy := hrun.busy, cmd := hrun.cmd, notIdle := hrun.notIdle, err := hrun.err
        phaseFits := hrun.phaseFits } rfl hst (h.withinBudget r hr)
  have hheld : ∀ t0 answer, r.stage = .answered t0 answer → answerFits (s.request r) answer = true :=
    fun t0 answer hst => by simpa [stageOk, hst] using h.stageFits r hr
  have hended : ∀ t0 t1 answer, r.stage = .ended t0 t1 answer → answerFits (s.request r) answer = true :=
    fun t0 t1 answer hst => by simpa [stageOk, hst] using h.stageFits r hr
  rcases receiveInput_cases ht with rfl | ⟨t0, -, -, rfl⟩ | ⟨t0, answer, -, -, hf, rfl⟩ |
    ⟨t0, t1, answer, -, hst, rfl⟩ | ⟨t0, t1, answer, -, hst, rfl⟩
  · exact h
  · exact hmove _ _ (by simp [stageOk])
  · exact hmove _ _ hf
  · exact hmove _ _ (hheld _ _ hst)
  · exact finishPoll_inv hrun t0 t1 answer (hended _ _ _ hst)

/-- A run of moves keeps the invariant. -/
theorem runRx_inv (is : List Input) {s t : State} (h : s.Inv) (ht : State.runRx is s = .next t) : t.Inv :=
  runRx_keeps (P := State.Inv) (fun s is h => Inv_env h is s.drawn s.draws s.hostData s.history)
    (fun _ _ _ _ h hr _ ht => receiveInput_inv h hr ht) is h ht

/-- The parameters of this implementation keep the constraints of 00_scope.md R9 and R10. -/
theorem params_valid : Config.params.Valid := by
  unfold Config.params
  split
  · assumption
  · decide

/-- Hardware reset establishes the invariant. -/
theorem hardReset_inv {s : State} (h : s.params.Valid) : s.hardReset.Inv where
  params := h
  memWf := by simp [State.reset]
  memInBuffers := by simp [State.reset]
  busyIff := rfl
  oneCommand := .inl rfl
  phaseIdle := by simp [State.reset]
  errProduced := by simp [State.reset]
  frlenFits := by simp [State.reset]
  rxlenFits := by simp [State.reset]
  phaseFits := by simp [State.reset]
  stageFits := by simp [State.reset]
  withinBudget := by simp [State.reset]

end Sys2Proof.Machine
end

