-- ==== Sys2Proof/Laws/PerInstr.lean ====
section
/-! SUPPORT. Families of statements made for each command. -/

namespace Sys2Proof.Laws.EncodedFields

/-- The encoded word of a command holds its opcode's number in OP and its operands in ARG (30_encoding.md R90). -/
def Statement (i : Instr) : Prop := opField (encode i) = i.op.code ∧ argField (encode i) = i.arg

theorem nop : Statement .nop := ⟨opField_append _ _, argField_append _ _⟩
theorem setgen (gen : Arg) : Statement (.setgen gen) := ⟨opField_append _ _, argField_append _ _⟩
theorem settmo (ms : Arg) : Statement (.settmo ms) := ⟨opField_append _ _, argField_append _ _⟩
theorem setck (en : Arg) : Statement (.setck en) := ⟨opField_append _ _, argField_append _ _⟩
theorem cksum (sel : BitVec 1) (n : Half) : Statement (.cksum sel n) := ⟨opField_append _ _, argField_append _ _⟩
theorem encode (size : Half) : Statement (.encode size) := ⟨opField_append _ _, argField_append _ _⟩
theorem decode (n : Half) : Statement (.decode n) := ⟨opField_append _ _, argField_append _ _⟩
theorem seek : Statement .seek := ⟨opField_append _ _, argField_append _ _⟩
theorem rdbody : Statement .rdbody := ⟨opField_append _ _, argField_append _ _⟩
theorem recv : Statement .recv := ⟨opField_append _ _, argField_append _ _⟩
theorem rxack : Statement .rxack := ⟨opField_append _ _, argField_append _ _⟩

end Sys2Proof.Laws.EncodedFields
end

