-- ==== Sys2Proof/Laws/Step.lean ====
section
/-! SUPPORT. What one step can do. -/

namespace Sys2Proof.Machine

/-- A step is the reaction to the next move, whether it was listed or is drawn. -/
theorem step_eq_react (s : State) :
    (∃ rest, s.inputs = nextMove s :: rest ∧ step s = react s (nextMove s) rest) ∨
    (s.inputs = [] ∧ step s = react { s with drawn := s.drawn + 1 } (nextMove s) []) := by
  unfold step nextMove
  cases h : s.inputs with
  | nil => exact .inr ⟨rfl, rfl⟩
  | cons i rest => exact .inl ⟨rest, rfl, rfl⟩

/-- A listed turn of the FCB. -/
theorem step_fcb {s : State} {rest : List Input} (h : s.inputs = .fcb :: rest) : step s = fcbTurn s rest := by
  unfold step
  rw [h]
  rfl

/-- A listed sample, answer or turn of the FCB, while a receive command is in progress, is run with the moves after
it. -/
theorem step_port {s : State} {i : Input} {rest : List Input} (h : s.inputs = i :: rest) (hrx : s.rx ≠ none)
    (hc : s.cmd = none) (hi : interrupts i = false) : step s = State.runRx (i :: rest) s := by
  have hp : ∀ j, portOffer s j rest = State.runRx (j :: rest) s := fun j => by
    unfold portOffer
    split
    · rfl
    · contradiction
  unfold step
  rw [h]
  cases i with
  | fcb => simp only [react, fcbTurn, hc, hp]
  | clock t => simp only [react, hp]
  | phy answer => simp only [react, hp]
  | host a => cases hi
  | reset => cases hi

/-- A step of a running receive command on what is left of a poll. -/
theorem step_left {s : State} {r : Rx} {p : Poll} {rest : List Input} (hrx : s.rx = some r) (hc : s.cmd = none)
    (h : s.inputs = p.left r.stage ++ rest) : step s = State.runRx (p.left r.stage ++ rest) s := by
  obtain ⟨i, is, he, hi⟩ := p.left_cons r.stage
  rw [he] at h ⊢
  exact step_port h (by simp [hrx]) hc hi

/-! ### What a buffer holds -/

theorem bufRange_of_holds {s : State} {b : Buf} {i : Nat} {bs : List Byte} (h : s.holds b i bs) :
    s.bufRange b i bs.length = some bs := (bufRange_eq_some ..).mpr ⟨rfl, h⟩

/-- Bytes that hold values are read as they are. -/
theorem bytesOrFree_of_holds {s : State} {b : Buf} {i : Nat} {bs : List Byte} (h : s.holds b i bs) :
    s.bytesOrFree b i bs.length = bs := by
  refine List.ext_getElem (by simp [State.bytesOrFree]) (fun k h1 h2 => ?_)
  simp [State.bytesOrFree, h k h2]

theorem lastckOrFree_of_some {s : State} {c : Byte} (h : s.lastck = some c) : s.lastckOrFree = c := by
  simp [State.lastckOrFree, h]

theorem holds_putBuf (s : State) (b : Buf) (i : Nat) (bs : List Byte) : (s.putBuf b i bs).holds b i bs :=
  fun k h => bufByte_putBuf_inside s b i k bs h

theorem holds_left {s : State} {b : Buf} {i : Nat} {as bs : List Byte} (h : s.holds b i (as ++ bs)) :
    s.holds b i as := fun k hk => by
  rw [h k (by rw [List.length_append]; omega), List.getElem_append_left hk]

theorem holds_right {s : State} {b : Buf} {i : Nat} {as bs : List Byte} (h : s.holds b i (as ++ bs)) :
    s.holds b (i + as.length) bs := fun k hk => by
  rw [Nat.add_assoc, h (as.length + k) (by rw [List.length_append]; omega),
    List.getElem_append_right (Nat.le_add_right _ _)]
  simp

/-- An offer of the clock, the PHY or the FCB runs the receive command in progress, or is not seen. -/
theorem portOffer_cases (s : State) (i : Input) (rest : List Input) :
    (s.rx = none ∧ portOffer s i rest = .next { s with inputs := rest }) ∨
    (∃ r, s.rx = some r ∧ portOffer s i rest = State.runRx (i :: rest) s) := by
  unfold portOffer
  cases h : s.rx with
  | none => exact .inl ⟨rfl, rfl⟩
  | some r => exact .inr ⟨r, rfl, rfl⟩

/-- The FCB's turn goes on with what runs, begins a command, or completes an illegal word (30_encoding.md R93). -/
theorem fcbTurn_cases (s : State) (rest : List Input) :
    (s.cmd = none ∧ fcbTurn s rest = portOffer s .fcb rest) ∨
    (∃ w e, s.cmd = some w ∧ decode w = .error e ∧
      fcbTurn s rest = .next (State.complete { s with inputs := rest } .illegal)) ∨
    (∃ w i, s.cmd = some w ∧ decode w = .ok i ∧ fcbTurn s rest = exec i { s with cmd := none, inputs := rest }) := by
  unfold fcbTurn startCommand
  cases h : s.cmd with
  | none => exact .inl ⟨rfl, rfl⟩
  | some w =>
    right
    cases hd : decode w with
    | error e => exact .inl ⟨w, e, rfl, hd, by simp only [hd]⟩
    | ok i => exact .inr ⟨w, i, rfl, hd, by simp only [hd]⟩

/-- Everything a host access can do when it does not fault: a load changes only what the host sees; a CMD write
while idle captures a command; a store while idle, or to no buffer byte, writes buffer bytes; any other store changes
nothing. -/
theorem hostAccess_cases {s t : State} {a : Access} (h : hostAccess s a = .next t) :
    (∃ width addr, a = .load width addr ∧ t = { s with hostData := t.hostData, draws := t.draws }) ∨
    (∃ width addr v, a = .store width addr v ∧ addr.toNat = 0 ∧ s.busy = false ∧
      t = { s with busy := true, cmd := some v }) ∨
    (∃ width addr v, a = .store width addr v ∧ t = s) ∨
    (∃ width addr v, a = .store width addr v ∧ accessAllowed width addr = true ∧ 0x40 ≤ addr.toNat ∧
      (s.busy = false ∨ touchesBuffer s.params width addr.toNat = false) ∧
      t = { s with mem := storeRange s.params s.mem addr.toNat (storeBytes width v) }) := by
  cases a with
  | load width addr =>
    left
    refine ⟨width, addr, rfl, ?_⟩
    simp only [hostAccess] at h
    split at h
    · split at h
      · cases h
        simp only [loadRegister]
        split <;> rfl
      · cases h; rfl
    · cases h
  | store width addr v =>
    right
    simp only [hostAccess] at h
    split at h
    · rename_i hal
      split at h
      · rename_i h0
        cases h
        simp only [storeCmd]
        split
        · exact .inr (.inl ⟨width, addr, v, rfl, rfl⟩)
        · exact .inl ⟨width, addr, v, rfl, h0, by simpa using ‹¬ s.busy = true›, rfl⟩
      · split at h
        · cases h; exact .inr (.inl ⟨width, addr, v, rfl, rfl⟩)
        · simp only [storeBuffer] at h
          split at h
          · cases h
          · rename_i hb
            cases h
            refine .inr (.inr ⟨width, addr, v, rfl, hal, by omega, ?_, rfl⟩)
            cases hbusy : s.busy
            · exact .inl rfl
            · right; simpa [hbusy] using hb
    · cases h

/-- A store that touches no buffer byte writes nothing. -/
theorem storeRange_untouched {p : Params} {m : Memory} {a : Nat} {bs : List Byte}
    (h : ∀ k, k < bs.length → isBufferByte p (a + k) = false) : storeRange p m a bs = m := by
  induction bs generalizing m a with
  | nil => rfl
  | cons b bs ih =>
    have h0 : isBufferByte p a = false := by simpa using h 0 (by simp)
    simp only [storeRange, h0, Bool.false_eq_true, if_false]
    refine ih (fun k hk => ?_)
    have := h (k + 1) (by simpa using hk)
    rwa [show a + (k + 1) = a + 1 + k by omega] at this

@[simp] theorem storeBytes_length (width : Nat) (v : Word) : (storeBytes width v).length = width := by
  simp [storeBytes]

theorem touchesBuffer_eq_false {p : Params} {width a : Nat} :
    touchesBuffer p width a = false ↔ ∀ k, k < width → isBufferByte p (a + k) = false := by
  simp [touchesBuffer]

end Sys2Proof.Machine
end

