-- ==== Sys2Proof/Tests/Slice0.lean ====
section
/-! SUPPORT. Own tests: WellFormed and decoding on words of the spec, at most two steps of each command on the vectors
of 95_test_vectors.md (named V-…), host accesses, and for every statement with hypotheses a witness that meets them. -/

namespace Sys2Proof.Machine

/-! ### Small states -/

/-- The reset state under the spec's test configuration TC, in a generation. -/
def tc (g : Gen) : State := { State.reset with params := Config.testParams, gen := g }

/-- A TC state whose FCB begins the command word `w` next. -/
def begun (g : Gen) (w : Word) : State := { tc g with busy := true, cmd := some w, inputs := [.fcb] }

/-- A poll that brings bytes after `d` ms. -/
def brings (bs : List Byte) (d : Word) : Poll := { t0 := 0xFFFFFFF0, answer := .bytes bs, t1 := 0xFFFFFFF0 + d }

/-- A poll with a negative answer. -/
def fails : Poll := { t0 := 0, answer := .negative, t1 := 1 }

/-- A TC state with a timeout and coming polls. -/
def polled (g : Gen) (tmo : Arg) (ps : List Poll) : State :=
  { tc g with timeout := tmo, busy := true, inputs := pollMoves ps }

/-- Whether a step goes on, to a state with a property. -/
def goesOn (o : Result) (p : State → Bool) : Bool :=
  match o with
  | .next t => p t
  | .fault _ => false
  | .refused _ => false

/-- Whether a step stops with a fault. -/
def stopsWith (o : Result) (f : Fault) : Bool :=
  match o with
  | .next _ => false
  | .fault g => decide (g = f)
  | .refused _ => false

/-- The state a step goes on to, the reset state where it stops. -/
def after (o : Result) : State :=
  match o with
  | .next t => t
  | .fault _ => State.reset
  | .refused _ => State.reset

/-- The requests of the reads a history holds, oldest first. -/
def requests (h : List Event) : List Nat :=
  h.reverse.flatMap (fun e => match e with
    | .phyRead n _ => [n]
    | .clock _ => []
    | .phyFlush => [])

/-! ### WellFormed -/

/-- 30_encoding.md R91: SETGEN's operand is 1, 2 or 3. -/
theorem test_wellFormed_setgen_zero : (Instr.setgen 0).wellFormed = false := by decide

theorem test_wellFormed_setgen_four : (Instr.setgen 4).wellFormed = false := by decide

theorem test_wellFormed_setgen_ok : (Instr.setgen 1).wellFormed = true ∧ (Instr.setgen 3).wellFormed = true := by
  decide

/-- 30_encoding.md R91: SETCK's operand is 0 or 1. -/
theorem test_wellFormed_setck_two : (Instr.setck 2).wellFormed = false := by decide

/-! ### Decoding, words written out from 30_encoding.md R90 to R92 -/

theorem test_decode_nop : decode 0x00000000 = .ok .nop := by decide
theorem test_decode_setgen : decode 0x00000301 = .ok (.setgen 3) := by decide
theorem test_decode_settmo : decode 0xFFFFFF02 = .ok (.settmo 0xFFFFFF) := by decide
theorem test_decode_setck : decode 0x00000103 = .ok (.setck 1) := by decide
/-- ARG[16] is `sel`, ARG[15:0] is `n`. -/
theorem test_decode_cksum : decode 0x0101A510 = .ok (.cksum 1 0x01A5) := by decide
theorem test_decode_encode : decode 0x00100111 = .ok (.encode 0x1001) := by decide
theorem test_decode_decode : decode 0x00FFFF12 = .ok (.decode 0xFFFF) := by decide
theorem test_decode_seek : decode 0x00000020 = .ok .seek := by decide
theorem test_decode_rdbody : decode 0x00000021 = .ok .rdbody := by decide
theorem test_decode_recv : decode 0x00000022 = .ok .recv := by decide
theorem test_decode_rxack : decode 0x00000023 = .ok .rxack := by decide

/-- V-IL1, V-IL2, V-IL3, V-IL5, V-CK7. -/
theorem test_decode_illegal :
    decode 0x000000FF = .error (.unassignedOpcode 0xFF) ∧ decode 0x00000004 = .error (.unassignedOpcode 4) ∧
    decode 0x00000120 = .error (.reservedBits 1) ∧ decode 0x12345611 = .error (.reservedBits 0x123456) ∧
    decode 0x02000510 = .error (.reservedBits 0x020005) := by decide

/-- V-CF5, V-CF6, V-CF14: R94's verdict on operands out of range. -/
theorem test_classify_range :
    classify 0x00000001 = .error (.operandRange 0) ∧ classify 0x00000401 = .error (.operandRange 4) ∧
    classify 0x00000203 = .error (.operandRange 2) := by decide

theorem test_decodeTableWord : decodeTableWord 32 0x00000311 = some (.encode 3) ∧ decodeTableWord 8 0x20 = some .seek := by
  decide

/-! ### One step of each command -/

/-- V-CF1, V-CF2. -/
theorem test_nop : goesOn (step { begun .g1 0x00000000 with err := .timeoutError })
    (fun t => t.err == .ok && !t.busy) = true := by decide
theorem test_nop_reserved : goesOn (step (begun .g1 0x00000100)) (fun t => t.err == .illegal && !t.busy) = true := by
  decide

/-- V-CF3, V-CF6. -/
theorem test_setgen : goesOn (step (begun .g1 0x00000201)) (fun t => t.gen == .g2 && t.err == .ok) = true := by decide
theorem test_setgen_four : goesOn (step (begun .g2 0x00000401)) (fun t => t.gen == .g2 && t.err == .illegal) = true := by
  decide

/-- V-CF8, V-CF9. -/
theorem test_settmo : goesOn (step (begun .g1 0x0001F402)) (fun t => tmoEff t == 500 && t.err == .ok) = true := by decide
theorem test_settmo_default : goesOn (step { begun .g1 0x00000002 with timeout := 500 })
    (fun t => t.timeout == 0 && tmoEff t == 100) = true := by decide

/-- V-CF12, V-CF14. -/
theorem test_setck : goesOn (step (begun .g1 0x00000003)) (fun t => !t.cken && t.err == .ok) = true := by decide
theorem test_setck_two : goesOn (step (begun .g1 0x00000203)) (fun t => t.cken && t.err == .illegal) = true := by decide

/-- V-CK3, V-CK8. -/
theorem test_cksum_rx : goesOn (step ((begun .g2 0x01000810).putBuf .rx 0 [0xA2, 3, 0, 1, 2, 3, 3, 0]))
    (fun t => t.cksum == 0xA2 && t.err == .ok) = true := by decide
theorem test_cksum_unwritten : stopsWith (step (begun .g1 0x00000110)) .unwritten = true := by decide

/-- V-E5. -/
theorem test_encode_gen2 : goesOn (step ((begun .g2 0x00000311).putBuf .tx 0 [1, 2, 3]))
    (fun t => t.frlen == 8 && t.lastck == some 3 &&
      t.bufRange .frame 0 8 == some [0xA2, 3, 0, 1, 2, 3, 3, 0]) = true := by decide
/-- V-E2. -/
theorem test_encode_gen1 : goesOn (step ((begun .g1 0x00000311).putBuf .tx 0 [0x10, 0x11, 0x22]))
    (fun t => t.frlen == 6 && t.lastck == some 0x20 &&
      t.bufRange .frame 0 6 == some [0xA1, 3, 0x10, 0x11, 0x22, 0x20]) = true := by decide

/-- V-D4. -/
theorem test_decode_unchecked :
    goesOn (step ({ begun .g2 0x00000812 with cken := false }.putBuf .rx 0 [0xA2, 3, 0, 1, 2, 3, 4, 0]))
      (fun t => t.err == .ok && t.rxsize == 3 && t.rxck == 4 && t.msgend) = true := by decide
/-- V-D3: the high trailer byte counts. -/
theorem test_decode_high_byte : goesOn (step ((begun .g2 0x00000812).putBuf .rx 0 [0xA2, 3, 0, 1, 2, 3, 3, 1]))
    (fun t => t.err == .protError && t.rxsize == 3 && t.rxck == 0 && !t.msgend) = true := by decide

/-- V-SK7: the marker wins over its poll's delta. -/
theorem test_seek_marker : goesOn (exec .seek (polled .g1 50 [brings [] 49, brings [0xA1] 1000]))
    (fun t => t.err == .ok && t.rxlen == 1 && t.bufByte .rx 0 == some 0xA1 && t.elapsed == 49) = true := by decide
/-- V-SK6: a step back of the clock resets the budget. -/
theorem test_seek_timeout :
    goesOn (exec .seek (polled .g1 50 [brings [] 30, brings [] (-5), brings [] 30, brings [] 30]))
      (fun t => t.err == .timeoutError && t.rxlen == 0 && t.elapsed == 60 &&
        t.history.head? == some .phyFlush) = true := by decide

/-- V-B1. -/
theorem test_rdbody : goesOn (exec .rdbody (polled .g2 0 [brings [3] 1, brings [0] 1, brings [1, 2, 3, 3, 0] 1]))
    (fun t => t.err == .ok && t.rxlen == 8 && t.rxsize == 3 && t.elapsed == 2 &&
      t.bufRange .rx 1 7 == some [3, 0, 1, 2, 3, 3, 0] && requests t.history == [2, 1, 5]) = true := by decide
/-- V-B3. -/
theorem test_rdbody_timeout :
    goesOn (exec .rdbody (polled .g2 50 [brings [3, 0] 1, brings [1, 2] 20, brings [] 20, brings [3] 20]))
      (fun t => t.err == .timeoutError && t.rxlen == 6 && t.elapsed == 61 &&
        requests t.history == [2, 5, 3, 3]) = true := by decide

/-- V-RV1. -/
theorem test_recv :
    goesOn (exec .recv (polled .g1 0 [brings [0x55] 0, brings [0xA1] 0, brings [2] 0, brings [0x10] 0,
        brings [0x20] 0, brings [0x32] 0]))
      (fun t => t.err == .ok && t.rxlen == 5 && t.rxsize == 2 &&
        t.bufRange .rx 0 5 == some [0xA1, 2, 0x10, 0x20, 0x32] && requests t.history == [1, 1, 1, 3, 2, 1]) = true := by
  decide
/-- V-RV3: each phase has its own budget. -/
theorem test_recv_budgets :
    goesOn (exec .recv (polled .g2 50 [brings [] 30, brings [0xA2] 30, brings [] 30, brings [] 30]))
      (fun t => t.err == .timeoutError && t.rxlen == 1 && t.elapsed == 60) = true := by decide

/-- V-A2: a reject is no error. -/
theorem test_rxack_reject :
    goesOn (exec .rxack { polled .g2 0 [brings [3, 0, 0x15] 1] with lastck := some 3 })
      (fun t => t.err == .ok && t.ackck == 3 && t.ackcode == 0x15 && t.nak) = true := by decide
/-- V-A4: the high byte of the checksum field counts. -/
theorem test_rxack_mismatch :
    goesOn (exec .rxack { polled .g2 0 [brings [3, 1, 0x5A] 1] with lastck := some 3 })
      (fun t => t.err == .protError && t.ackck == 0x0103 && t.ackcode == 0 && !t.nak) = true := by decide

/-! ### Host accesses -/

/-- V-H6, V-H7. -/
theorem test_host_store_load :
    goesOn (hostAccess (after (hostAccess (after (hostAccess (tc .g1) (.store 4 0x1000 0x04030201)))
        (.store 1 0x1001 0xFF))) (.load 4 0x1000)) (fun t => t.hostData == 0x0403FF01) = true := by decide

/-- V-H8, V-H9, V-H10. -/
theorem test_host_faults :
    stopsWith (hostAccess (tc .g1) (.load 2 0x1001)) .hostAccess = true ∧
    stopsWith (hostAccess (tc .g1) (.load 2 4)) .hostAccess = true ∧
    stopsWith (hostAccess { tc .g1 with busy := true } (.store 1 0x3000 0)) .hostRace = true := by decide

/-- V-H11. -/
theorem test_host_status_busy : goesOn (hostAccess { tc .g1 with busy := true, err := .protError } (.load 4 4))
    (fun t => t.hostData == 0x0000000A) = true := by decide

/-- V-M4. -/
theorem test_segmentation :
    (segmentMessage Config.testParams .g2 (List.replicate 17 7)).map List.length = [8, 8, 1] := by decide

/-! ### Witnesses: states and operands that meet the hypotheses of the statements -/

theorem testParams_valid : Config.testParams.Valid := by decide

theorem begun_inv (g : Gen) (w : Word) : (begun g w).Inv where
  params := testParams_valid
  memWf := List.Pairwise.nil
  memInBuffers := nofun
  busyIff := rfl
  oneCommand := .inr rfl
  phaseIdle := ⟨fun _ => rfl, fun _ => rfl⟩
  errProduced := nofun
  frlenFits := Nat.zero_le _
  rxlenFits := Nat.zero_le _
  phaseFits := nofun
  stageFits := nofun
  withinBudget := nofun

theorem polled_base (g : Gen) (tmo : Arg) (ps : List Poll) : (polled g tmo ps).Base :=
  ⟨testParams_valid, List.Pairwise.nil, nofun, Nat.zero_le _, Nat.zero_le _⟩

/-- A running SEEK phase with coming polls. -/
def seeking (g : Gen) (tmo : Arg) (ps : List Poll) : State := (polled g tmo ps).beginSeek false

/-- A running BODY phase with coming polls. -/
def bodying (g : Gen) (tmo : Arg) (ps : List Poll) : State := (polled g tmo ps).beginBody

/-- A BODY phase of generation 2 that has received the size field 8 = MAX[2]. -/
def sized : State := after (exec .rdbody (polled .g2 0 [brings [8, 0] 1]))

/-- A running ACK phase with coming polls. -/
def acking (tmo : Arg) (ps : List Poll) : State := State.beginAck { polled .g2 tmo ps with lastck := some 3 }

/-- A state whose first `n` coming moves are made, `more` coming instead of the rest. -/
def cut (n : Nat) (more : List Input) (s : State) : State :=
  { after (step { s with inputs := s.inputs.take n }) with inputs := more ++ s.inputs.drop n }

/-- A state reached by part of a run of moves, with other moves to come. -/
theorem cut_inv {s t : State} {n : Nat} {more : List Input} (h : s.Inv) {i : Input} {is : List Input}
    (hi : s.inputs.take n = i :: is) (hrx : s.rx ≠ none) (hc : s.cmd = none) (hint : interrupts i = false)
    (ht : step { s with inputs := s.inputs.take n } = .next t) : (cut n more s).Inv := by
  have h1 : State.Inv { s with inputs := s.inputs.take n } := Inv_env h _ s.drawn s.draws s.hostData s.history
  have h2 := ht
  rw [step_port (s := { s with inputs := s.inputs.take n }) hi hrx hc hint] at h2
  have h3 := runRx_inv _ h1 h2
  unfold cut
  rw [ht]
  exact Inv_env h3 _ _ _ _ _

theorem seeking_inv (g : Gen) (tmo : Arg) (ps : List Poll) : (seeking g tmo ps).Inv :=
  beginSeek_inv (polled_base g tmo ps) rfl rfl nofun false

theorem bodying_inv (g : Gen) (tmo : Arg) (ps : List Poll) : (bodying g tmo ps).Inv :=
  beginBody_inv (polled_base g tmo ps) rfl rfl nofun

theorem sized_inv : sized.Inv :=
  runRx_inv (polled .g2 0 [brings [8, 0] 1]).inputs (bodying_inv .g2 0 [brings [8, 0] 1]) rfl

theorem acking_inv (tmo : Arg) (ps : List Poll) : (acking tmo ps).Inv :=
  beginAck_inv (s := { polled .g2 tmo ps with lastck := some 3 })
    ⟨testParams_valid, List.Pairwise.nil, nofun, Nat.zero_le _, Nat.zero_le _⟩ rfl rfl nofun nofun rfl

/-- A state whose phase stands at a stage of a run of polls that is to come, its budget fresh. -/
abbrev goesAt (st : PollStage) (s : State) (ps : List Poll) : Prop :=
  (∃ r, s.rx = some r ∧ r.stage = st) ∧ resumePolls st ps ∧ s.inputs = leftMoves st ps ∧ s.elapsed = 0

/-- Parameters whose buffers are as small as 00_scope.md R10 allows: 37 bytes. -/
def tight : Params := { Config.testParams with max1 := 1, max2 := 4, max3 := 1, bufBytes := 37 }

theorem tight_valid : tight.Valid := by decide

/-- A tight state in which every byte of TXBUF and RXBUF holds 0. -/
def filled (g : Gen) : State :=
  (({ tc g with params := tight }.putBuf .tx 0 (List.replicate 37 0)).putBuf .rx 0 (List.replicate 37 0))

theorem witness_DecodeEncodeRoundTrip :
    (Instr.setgen 1).wellFormed = true ∧ (Instr.setgen 3).wellFormed = true ∧
    (Instr.setck 0).wellFormed = true ∧ (Instr.cksum 1 0xFFFF).wellFormed = true := by decide

theorem witness_EveryWordIsOneCommandOrIllegal :
    opField 0x04 ∉ assignedOpcodes ∧ opField 0x24 ∉ assignedOpcodes := by decide

/-- Each kind of illegal word. -/
theorem badWord_witnesses : ∀ w ∈ [0x00000004, 0x00000120, 0x02000510, 0x01000311, 0x01000812, 0x00000001, 0x00000401,
    (0x00000203 : Word)], badWord w := by
  intro w hw
  simp only [List.mem_cons, List.not_mem_nil, or_false] at hw
  rcases hw with rfl | rfl | rfl | rfl | rfl | rfl | rfl | rfl <;> unfold badWord <;> decide

/-- Each kind of illegal word, and each value check one above its bound; and a refused RXACK for the converse. -/
theorem witness_IllegalExactlyForListedCauses :
    (∀ g w, (begun g w).Inv ∧ (begun g w).inputs = .fcb :: [] ∧ (begun g w).cmd = some w ∧
      nextMove (begun g w) = .fcb) ∧
    (∀ w ∈ [0x00000004, 0x00000120, 0x02000510, 0x01000311, 0x01000812, 0x00000001, 0x00000401, (0x00000203 : Word)],
      illegalCause (begun .g2 w) w) ∧
    illegalCause (begun .g1 0x00100110) 0x00100110 ∧
    illegalCause (begun .g1 0x00100112) 0x00100112 ∧ illegalCause (begun .g1 0x00000511) 0x00000511 ∧
    illegalCause (begun .g2 0x00000911) 0x00000911 ∧ illegalCause (begun .g3 0x00002111) 0x00002111 ∧
    illegalCause (begun .g1 0x00000023) 0x00000023 ∧
    step (begun .g1 0x00000023) = .next (after (step (begun .g1 0x00000023))) ∧
    (after (step (begun .g1 0x00000023))).busy = false ∧ (after (step (begun .g1 0x00000023))).err = .illegal :=
  ⟨fun g w => ⟨begun_inv g w, rfl, rfl, rfl⟩, fun w hw => .inl (badWord_witnesses w hw),
   .inr (.inl ⟨0, 0x1001, by decide⟩),
   .inr (.inr (.inl ⟨0x1001, by decide⟩)), .inr (.inr (.inr (.inl ⟨5, by decide⟩))),
   .inr (.inr (.inr (.inl ⟨9, by decide⟩))), .inr (.inr (.inr (.inl ⟨33, by decide⟩))),
   .inr (.inr (.inr (.inr (by decide)))), rfl, rfl, rfl⟩

theorem witness_StepRunsDecodedCommand :
    (begun .g2 0x00000311).inputs = .fcb :: [] ∧ (begun .g2 0x00000311).cmd = some 0x00000311 ∧
    decode 0x00000311 = .ok (.encode 3) ∧ (Instr.encode 3).wellFormed = true := by decide

/-- Also the first hypotheses of every statement about a command that starts with no phase running. -/
theorem witness_NopResult :
    (begun .g1 0).phase = .idle ∧ (begun .g1 0).rx = none ∧ opField 0x00000100 = 0x00 ∧ argField 0x00000100 ≠ 0 := by
  decide

theorem witness_SetgenResult :
    (begun .g1 0).phase = .idle ∧ (begun .g1 0).rx = none ∧ (1 : Arg).toNat = (genCode .g1).toNat ∧
    (2 : Arg).toNat = (genCode .g2).toNat ∧ (3 : Arg).toNat = (genCode .g3).toNat ∧ (0 : Arg).toNat = 0 ∧
    3 < (4 : Arg).toNat ∧ opField 0x00000301 = 0x01 ∧ opField 0x00000401 = 0x01 ∧
    (1 ≤ (argField 0x00000301).toNat ∧ (argField 0x00000301).toNat ≤ 3) ∧
    ¬ (1 ≤ (argField 0x00000401).toNat ∧ (argField 0x00000401).toNat ≤ 3) := by decide

theorem witness_SettmoResult :
    (begun .g1 0).phase = .idle ∧ (begun .g1 0).rx = none ∧ opField 0xFFFFFF02 = 0x02 ∧ opField 0x00000002 = 0x02 := by
  decide

theorem witness_SetckResult :
    (begun .g1 0).phase = .idle ∧ (begun .g1 0).rx = none ∧ 1 < (2 : Arg).toNat := by decide

theorem witness_ChecksumProperties : [1, 2].Perm [2, 1] ∧ (0 : Byte) ≠ 0x80 := by decide

/-- `n` = 0, `n` = BUF_BYTES with every byte written, a byte with no value, and `n` one above BUF_BYTES. -/
theorem witness_CksumResult :
    (filled .g1).phase = .idle ∧ (filled .g1).rx = none ∧
    (37 : Half).toNat ≤ (filled .g1).params.bufBytes ∧ (List.replicate 37 (0 : Byte)).length = (37 : Half).toNat ∧
    (filled .g1).holds .tx 0 (List.replicate 37 0) ∧ (filled .g1).holds .rx 0 [] ∧
    (tc .g1).phase = .idle ∧ (tc .g1).rx = none ∧ (1 : Half).toNat ≤ (tc .g1).params.bufBytes ∧
    (tc .g1).lacks .rx 0 1 ∧ (filled .g1).params.bufBytes < (38 : Half).toNat ∧
    opField 0x02000510 = 0x10 ∧ (argField 0x02000510).extractLsb' 17 7 ≠ 0 := by
  refine ⟨rfl, rfl, by decide, by decide, by decide, nofun, rfl, rfl, by decide, ⟨0, by decide⟩, by decide, by decide,
    by decide⟩

/-- A size of 0, of MAX[g] with its body written, of MAX[g] without, and one above MAX[g]. -/
theorem witness_EncodeResult :
    (filled .g2).params.Valid ∧ (filled .g2).phase = .idle ∧ (filled .g2).rx = none ∧
    (4 : Half).toNat ≤ maxPayload (filled .g2).params .g2 ∧
    (List.replicate 4 (0 : Byte)).length = bodyLen .g2 (4 : Half).toNat ∧
    (filled .g2).holds .tx 0 (List.replicate 4 0) ∧ (List.length ([] : List Byte)) = bodyLen .g2 (0 : Half).toNat ∧
    (tc .g2).params.Valid ∧ (tc .g2).phase = .idle ∧ (tc .g2).rx = none ∧
    (8 : Half).toNat ≤ maxPayload (tc .g2).params .g2 ∧ (tc .g2).lacks .tx 0 (bodyLen .g2 (8 : Half).toNat) ∧
    maxPayload (filled .g2).params .g2 < (5 : Half).toNat ∧
    opField 0x01000311 = 0x11 ∧ (argField 0x01000311).extractLsb' 16 8 ≠ 0 := by
  refine ⟨tight_valid, rfl, rfl, by decide, by decide, by decide, by decide, testParams_valid, rfl, rfl, by decide,
    ⟨7, by decide⟩, by decide, by decide, by decide⟩

/-- V-D1's frame in RXBUF. -/
def framed : State := (tc .g2).putBuf .rx 0 [0xA2, 3, 0, 1, 2, 3, 3, 0]

theorem witness_DecodeAccepts :
    framed.phase = .idle ∧ framed.rx = none ∧ (8 : Half).toNat ≤ framed.params.bufBytes ∧
    (3 : Half).toNat ≤ maxPayload framed.params framed.gen ∧ frameLen framed.gen (3 : Half).toNat ≤ (8 : Half).toNat ∧
    [3, 0, 1, 2, 3, 3, (0 : Byte)].length + 1 = frameLen framed.gen (3 : Half).toNat ∧
    framed.holds .rx 1 [3, 0, 1, 2, 3, 3, 0] ∧
    fieldValue framed.gen ([3, 0, 1, 2, 3, 3, (0 : Byte)].take (sizeLen framed.gen)) = 3 ∧
    [3, 0, 1, 2, 3, 3, (0 : Byte)] = [3, 0, 1, 2, 3] ++ [3, 0] ∧ [3, (0 : Byte)].length = ckLen framed.gen ∧
    fieldValue framed.gen [3, 0] = 3 ∧ (framed.cken = true → (3 : Half).toNat = (xor8 [3, 0, 1, 2, 3]).toNat) := by
  decide

/-- `n` above BUF_BYTES; a header one byte short; a header without its second size byte; a frame without its last byte;
a size one above MAX[2]; a frame one byte short; a trailer that does not match. -/
theorem witness_DecodeRejects :
    framed.phase = .idle ∧ framed.rx = none ∧ framed.params.bufBytes < (4097 : Half).toNat ∧
    ((2 : Half).toNat ≤ framed.params.bufBytes ∧ (2 : Half).toNat < 1 + sizeLen framed.gen) ∧
    ((8 : Half).toNat ≤ framed.params.bufBytes ∧ 1 + sizeLen framed.gen ≤ (3 : Half).toNat) ∧
    ((tc .g2).putBuf .rx 1 [3]).lacks .rx 1 (sizeLen .g2) ∧
    (((tc .g2).putBuf .rx 0 [0xA2, 3, 0, 1, 2, 3, 3]).holds .rx 1 [3, 0] ∧
      ((tc .g2).putBuf .rx 0 [0xA2, 3, 0, 1, 2, 3, 3]).lacks .rx 1 (frameLen .g2 (3 : Half).toNat - 1)) ∧
    ([9, (0 : Byte)].length = sizeLen framed.gen ∧ ((tc .g2).putBuf .rx 1 [9, 0]).holds .rx 1 [9, 0] ∧
      fieldValue .g2 [9, 0] = 9 ∧ maxPayload Config.testParams .g2 < (9 : Half).toNat) ∧
    (framed.holds .rx 1 [3, 0] ∧ fieldValue framed.gen [3, 0] = 3 ∧
      (7 : Half).toNat < frameLen framed.gen (3 : Half).toNat) ∧
    (((tc .g2).putBuf .rx 0 [0xA2, 3, 0, 1, 2, 3, 3, 1]).holds .rx 1 ([3, 0, 1, 2, 3] ++ [3, 1]) ∧
      (3 : Half).toNat ≤ maxPayload Config.testParams .g2 ∧ frameLen .g2 (3 : Half).toNat ≤ (8 : Half).toNat ∧
      (tc .g2).cken = true ∧ [3, (1 : Byte)].length = ckLen .g2 ∧
      [3, 0, 1, 2, (3 : Byte)].length + [3, (1 : Byte)].length + 1 = frameLen .g2 (3 : Half).toNat ∧
      (fieldValue .g2 [3, 1]).toNat ≠ (xor8 [3, 0, 1, 2, 3]).toNat) :=
  ⟨rfl, rfl, by decide, by decide, by decide, ⟨1, by decide⟩, ⟨by decide, ⟨6, by decide⟩⟩, by decide, by decide,
    by decide⟩

/-- V-E5's TXBUF. -/
def toSend : State := (tc .g2).putBuf .tx 0 [1, 2, 3]

theorem witness_EncodeThenDecode :
    toSend.params.Valid ∧ (3 : Half).toNat ≤ maxPayload toSend.params toSend.gen ∧
    [1, 2, (3 : Byte)].length = bodyLen toSend.gen (3 : Half).toNat ∧ toSend.holds .tx 0 [1, 2, 3] ∧
    exec (.encode 3) toSend = .next (after (exec (.encode 3) toSend)) ∧
    [0xA2, 3, 0, 1, 2, 3, 3, (0 : Byte)].length = (after (exec (.encode 3) toSend)).frlen.toNat ∧
    (after (exec (.encode 3) toSend)).holds .frame 0 [0xA2, 3, 0, 1, 2, 3, 3, 0] ∧
    framed.params = toSend.params ∧ framed.gen = toSend.gen ∧ framed.holds .rx 0 [0xA2, 3, 0, 1, 2, 3, 3, 0] :=
  ⟨testParams_valid, by decide, by decide, by decide, rfl, by decide, by decide, rfl, rfl, by decide⟩

/-- V-E5's frame, and the state that receives it with byte `k` changed to `b`. -/
def goodFrame : List Byte := [0xA2, 3, 0, 1, 2, 3, 3, 0]

def corrupted (k : Nat) (b : Byte) : State := (tc .g2).putBuf .rx 0 (goodFrame.set k b)

/-- The changed byte is the first of the body, and the last of the trailer. -/
theorem witness_SingleByteErrorDetected :
    toSend.params.Valid ∧ (3 : Half).toNat ≤ maxPayload toSend.params toSend.gen ∧
    [1, 2, (3 : Byte)].length = bodyLen toSend.gen (3 : Half).toNat ∧ toSend.holds .tx 0 [1, 2, 3] ∧
    exec (.encode 3) toSend = .next (after (exec (.encode 3) toSend)) ∧
    goodFrame.length = (after (exec (.encode 3) toSend)).frlen.toNat ∧
    (after (exec (.encode 3) toSend)).holds .frame 0 goodFrame ∧
    ∀ kb ∈ [(3, 9), (7, (1 : Byte))], 1 + sizeLen toSend.gen ≤ kb.1 ∧
      (goodFrame.set kb.1 kb.2).length = goodFrame.length ∧
      (∀ j : Nat, j ≠ kb.1 → (goodFrame.set kb.1 kb.2)[j]? = goodFrame[j]?) ∧
      (goodFrame.set kb.1 kb.2)[kb.1]? ≠ goodFrame[kb.1]? ∧
      (corrupted kb.1 kb.2).params = toSend.params ∧ (corrupted kb.1 kb.2).gen = toSend.gen ∧
      (corrupted kb.1 kb.2).cken = true ∧ (corrupted kb.1 kb.2).holds .rx 0 (goodFrame.set kb.1 kb.2) := by
  refine ⟨testParams_valid, by decide, by decide, by decide, rfl, by decide, by decide, fun kb hkb => ?_⟩
  simp only [List.mem_cons, List.not_mem_nil, or_false] at hkb
  have h : ∀ j : Nat, j ≠ kb.1 → (goodFrame.set kb.1 kb.2)[j]? = goodFrame[j]? :=
    fun j hj => List.getElem?_set_ne hj.symm
  rcases hkb with rfl | rfl <;> exact ⟨by decide, by decide, h, by decide, rfl, rfl, rfl, by decide⟩

theorem witness_CodecAndConfigMakeNoEvent :
    (Instr.encode 3 ≠ .seek ∧ Instr.encode 3 ≠ .rdbody ∧ Instr.encode 3 ≠ .recv ∧ Instr.encode 3 ≠ .rxack) ∧
    exec (.encode 3) toSend = .next (after (exec (.encode 3) toSend)) := ⟨by decide, rfl⟩

/-- V-SK2's polls, and no poll before the marker; a SEEK phase that stands before its first sample, one whose first poll is
under way, and one whose marker has come and is not yet processed. -/
theorem witness_SeekFindsMarker :
    (∀ q ∈ [brings [0] 1, brings [0x55] 1], q.missesMarker (startMarker (tc .g1).params .g1) = true) ∧
    withinBudget (tmoEff (tc .g1)) 0 [brings [0] 1, brings [0x55] 1] = true ∧
    (brings [0xA1] 1).answer = .bytes [startMarker (tc .g1).params .g1] ∧
    (polled .g1 0 [brings [0] 1, brings [0x55] 1, brings [0xA1] 1]).inputs =
      pollMoves ([brings [0] 1, brings [0x55] 1] ++ [brings [0xA1] 1]) ++ [] ∧
    withinBudget (tmoEff (tc .g1)) 0 [] = true ∧
    (seeking .g1 0 [brings [0xA1] 1]).Inv ∧ goesAt .start (seeking .g1 0 [brings [0xA1] 1]) [brings [0xA1] 1] ∧
    (seeking .g1 0 [brings [0xA1] 1]).rx.all (fun r => !r.thenBody) = true ∧
    (cut 1 [] (seeking .g1 0 [brings [0] 1, brings [0xA1] 1])).Inv ∧
    goesAt (.reading 0xFFFFFFF0) (cut 1 [] (seeking .g1 0 [brings [0] 1, brings [0xA1] 1]))
      ([brings [0] 1] ++ [brings [0xA1] 1]) ∧
    (cut 3 [] (seeking .g1 0 [brings [0xA1] 1])).Inv ∧
    goesAt (.ended 0xFFFFFFF0 0xFFFFFFF1 (.bytes [0xA1])) (cut 3 [] (seeking .g1 0 [brings [0xA1] 1]))
      ([] ++ [brings [0xA1] 1]) :=
  ⟨by decide, by decide, by decide, by decide, by decide, seeking_inv _ _ _, ⟨⟨_, rfl, rfl⟩, trivial, rfl, rfl⟩, rfl,
    cut_inv (seeking_inv _ _ _) rfl nofun rfl rfl rfl, ⟨⟨_, rfl, rfl⟩, rfl, rfl, rfl⟩,
    cut_inv (seeking_inv _ _ _) rfl nofun rfl rfl rfl, ⟨⟨_, rfl, rfl⟩, ⟨rfl, rfl, rfl⟩, rfl, rfl⟩⟩

/-- V-S2's rows T = 50, p = 7 and T = 1, p = 1. -/
theorem witness_SeekTimesOutOnSilence :
    (polled .g1 50 (List.replicate 8 (brings [] 7))).params.Valid ∧ 7 < 2 ^ 31 ∧
    (∀ q ∈ List.replicate 8 (brings [] 7), q.answer = .bytes [] ∧ clockDelta q.t0 q.t1 = 7) ∧
    (List.replicate 8 (brings [] 7)).length = (tmoEff (polled .g1 50 []) + 7 - 1) / 7 ∧
    (List.replicate 1 (brings [] 1)).length = (tmoEff (polled .g1 1 []) + 1 - 1) / 1 ∧
    (∀ q ∈ List.replicate 1 (brings [] 1), q.answer = .bytes [] ∧ clockDelta q.t0 q.t1 = 1) :=
  ⟨testParams_valid, by decide, by decide, by decide, by decide, by decide⟩

/-- In each of the three phases, before a poll and within it. -/
theorem witness_SilentPhaseTimesOut :
    (∀ ps, (seeking .g1 50 ps).Inv ∧ (bodying .g1 50 ps).Inv ∧ (acking 50 ps).Inv) ∧
    (∀ q ∈ List.replicate 5 (brings [] 10), q.answer = .bytes [] ∧ clockDelta q.t0 q.t1 = 10) ∧
    (List.replicate 5 (brings [] 10)).length = (50 + 10 - 1) / 10 ∧
    (∀ ps, tmoEff (seeking .g1 50 ps) = 50) ∧
    goesAt .start (seeking .g1 50 (List.replicate 5 (brings [] 10))) (List.replicate 5 (brings [] 10)) ∧
    goesAt .start (bodying .g1 50 (List.replicate 5 (brings [] 10))) (List.replicate 5 (brings [] 10)) ∧
    goesAt .start (acking 50 (List.replicate 5 (brings [] 10))) (List.replicate 5 (brings [] 10)) ∧
    (cut 2 [] (acking 50 (List.replicate 5 (brings [] 10)))).Inv ∧
    goesAt (.answered 0xFFFFFFF0 (.bytes [])) (cut 2 [] (acking 50 (List.replicate 5 (brings [] 10))))
      (List.replicate 5 (brings [] 10)) :=
  ⟨fun ps => ⟨seeking_inv _ _ ps, bodying_inv _ _ ps, acking_inv _ ps⟩, by decide, by decide, fun _ => rfl,
   ⟨⟨_, rfl, rfl⟩, trivial, rfl, rfl⟩, ⟨⟨_, rfl, rfl⟩, trivial, rfl, rfl⟩, ⟨⟨_, rfl, rfl⟩, trivial, rfl, rfl⟩,
   cut_inv (acking_inv _ _) rfl nofun rfl rfl rfl, ⟨⟨_, rfl, rfl⟩, ⟨rfl, rfl⟩, rfl, rfl⟩⟩

/-- Deltas 0 and -2^31. -/
theorem witness_SilentSeekWithoutTimeNeverEnds :
    (polled .g1 0 [brings [] 0, brings [] 0x80000000]).params.Valid ∧
    (polled .g1 0 [brings [] 0, brings [] 0x80000000]).busy = true ∧
    (∀ q ∈ [brings [] 0, brings [] 0x80000000], q.answer = .bytes [] ∧ clockDelta q.t0 q.t1 ≤ 0) :=
  ⟨testParams_valid, rfl, by decide⟩

/-- A poll that uses up the budget to the millisecond, and one that leaves one. -/
theorem witness_SeekPollIsAccounted :
    (∀ q ∈ [brings [0x55] 50, brings [] 49], (seeking .g1 50 [q]).Inv ∧ goesAt .start (seeking .g1 50 [q]) [q] ∧
      (seeking .g1 50 [q]).phase = .seek ∧ q.missesMarker (startMarker Config.testParams .g1) = true) :=
  fun q hq => ⟨seeking_inv _ _ _, ⟨⟨_, rfl, rfl⟩, trivial, rfl, rfl⟩, rfl, by
    revert q; decide⟩

/-- Generation 2, MAX[2] = 8: one byte of the size field; the whole of it; and a byte of the body after it. -/
theorem witness_BodyPollIsAccounted :
    ((bodying .g2 50 [brings [8] 50]).Inv ∧ goesAt .start (bodying .g2 50 [brings [8] 50]) [brings [8] 50] ∧
      (bodying .g2 50 [brings [8] 50]).rx.all (fun r => r.target.isNone && r.got + 1 < sizeLen .g2) = true) ∧
    ((bodying .g2 50 [brings [8, 0] 1]).Inv ∧ goesAt .start (bodying .g2 50 [brings [8, 0] 1]) [brings [8, 0] 1] ∧
      (bodying .g2 50 []).holds .rx 1 [] ∧ (fieldValue .g2 ([] ++ [8, 0])).toNat ≤ maxPayload Config.testParams .g2 ∧
      (bodying .g2 50 [brings [8, 0] 1]).rx.all (fun r => r.target.isNone && r.got + 2 == sizeLen .g2) = true) ∧
    ((cut 4 [] (bodying .g2 50 [brings [8, 0] 0, brings [1] 50])).Inv ∧
      goesAt .start (cut 4 [] (bodying .g2 50 [brings [8, 0] 0, brings [1] 50])) [brings [1] 50] ∧
      (cut 4 [] (bodying .g2 50 [brings [8, 0] 0, brings [1] 50])).phase = .body ∧
      (cut 4 [] (bodying .g2 50 [brings [8, 0] 0, brings [1] 50])).rx.all
        (fun r => r.target.any (fun n => r.got + 1 < n)) = true) :=
  ⟨⟨bodying_inv _ _ _, ⟨⟨_, rfl, rfl⟩, trivial, rfl, rfl⟩, by decide⟩,
   ⟨bodying_inv _ _ _, ⟨⟨_, rfl, rfl⟩, trivial, rfl, rfl⟩, nofun, by decide, by decide⟩,
   ⟨cut_inv (bodying_inv _ _ _) rfl nofun rfl rfl rfl, ⟨⟨_, rfl, rfl⟩, trivial, rfl, rfl⟩, rfl, by decide⟩⟩

/-- Two bytes of three, and none. -/
theorem witness_AckPollIsAccounted :
    ∀ q ∈ [brings [3, 0] 50, brings [] 49], (acking 50 [q]).Inv ∧ goesAt .start (acking 50 [q]) [q] ∧
      (acking 50 [q]).phase = .ack ∧ q.chunk.length < 3 ∧ q.succeeded = true :=
  fun q hq => ⟨acking_inv _ _, ⟨⟨_, rfl, rfl⟩, trivial, rfl, rfl⟩, rfl, by revert q; decide⟩

theorem witness_NegativeAnswerIsPhyError :
    goesAt .start (seeking .g1 0 [fails]) [fails] ∧ (seeking .g1 0 [fails]).cmd = none ∧ fails.answer = .negative ∧
    goesAt (.answered 0 .negative) (cut 2 [] (acking 0 [fails])) [fails] ∧ (cut 2 [] (acking 0 [fails])).cmd = none :=
  ⟨⟨⟨_, rfl, rfl⟩, trivial, rfl, rfl⟩, rfl, rfl, ⟨⟨_, rfl, rfl⟩, ⟨rfl, rfl⟩, rfl, rfl⟩, rfl⟩

/-- A read of one byte: two come, one comes, none come, an error comes. -/
theorem witness_PhyAnswerContract :
    ∀ answer ∈ [PhyAnswer.bytes [1, 2], .bytes [1], .bytes [], .negative],
      (∃ r, (cut 1 [.phy answer] (seeking .g1 0 [fails])).rx = some r ∧ r.stage = .reading 0 ∧
        (cut 1 [.phy answer] (seeking .g1 0 [fails])).request r = 1) ∧
      (cut 1 [.phy answer] (seeking .g1 0 [fails])).inputs = .phy answer :: [.phy .negative, .clock 1, .fcb] :=
  fun _ _ => ⟨⟨_, rfl, rfl, rfl⟩, rfl⟩

/-- A poll interrupted after each of its moves. -/
theorem witness_PollGoesMoveByMove :
    (∀ i ∈ ([.reset] : List Input).head?, interrupts i = true) ∧ (∀ i ∈ ([] : List Input).head?, interrupts i = true) ∧
    (seeking .g1 0 [fails]).rx.all (fun r => r.stage == .start) = true ∧ (seeking .g1 0 [fails]).cmd = none ∧
    (cut 1 [] (seeking .g1 0 [fails])).rx.any (fun r => r.stage == .reading 0) = true ∧
    (cut 2 [] (seeking .g1 0 [fails])).rx.any (fun r => r.stage == .answered 0 .negative) = true ∧
    (cut 3 [] (seeking .g1 0 [fails])).rx.any (fun r => r.stage == .ended 0 1 .negative) = true ∧
    goesOn (step (cut 3 [.host (.load 4 4)] (seeking .g1 0 [fails]))) (fun t => t.busy) = true := by decide

/-- V-B1's BODY phase, its polls to come. -/
def bodyPolls : State := bodying .g2 0 [brings [3] 1, brings [0] 1, brings [1, 2, 3, 3, 0] 1]

/-- V-B1's polls: the size field comes in two pieces; the same BODY phase after its first piece is read and not yet
processed, and after its whole size field. -/
theorem witness_RdbodyReceivesFrame :
    (tc .g2).params.Valid ∧ (3 : Half).toNat ≤ maxPayload (tc .g2).params .g2 ∧
    [3, 0, 1, 2, 3, 3, (0 : Byte)].length + 1 = frameLen .g2 (3 : Half).toNat ∧
    fieldValue .g2 ([3, 0, 1, 2, 3, 3, (0 : Byte)].take (sizeLen .g2)) = 3 ∧
    (∀ q ∈ [brings [3] 1, brings [0] 1] ++ [brings [1, 2, 3, 3, 0] 1], q.succeeded = true) ∧
    chunks ([brings [3] 1, brings [0] 1] ++ [brings [1, 2, 3, 3, 0] 1]) = [3, 0, 1, 2, 3, 3, 0] ∧
    chunks ([brings [3] 1, brings [0] 1].take 2) = [3, 0, 1, 2, 3, 3, (0 : Byte)].take (sizeLen .g2) ∧
    (brings [1, 2, 3, 3, 0] 1).chunk ≠ [] ∧
    withinBudget (tmoEff (tc .g2)) 0 [brings [3] 1, brings [0] 1] = true ∧
    (polled .g2 0 [brings [3] 1, brings [0] 1, brings [1, 2, 3, 3, 0] 1]).inputs =
      pollMoves ([brings [3] 1, brings [0] 1] ++ [brings [1, 2, 3, 3, 0] 1]) ++ [] ∧
    ((cut 3 [] bodyPolls).Inv ∧
      goesAt (.ended 0xFFFFFFF0 0xFFFFFFF1 (.bytes [3])) (cut 3 [] bodyPolls)
        ([brings [3] 1, brings [0] 1] ++ [brings [1, 2, 3, 3, 0] 1]) ∧ (cut 3 [] bodyPolls).holds .rx 1 [] ∧
      (cut 3 [] bodyPolls).rx.all (fun r => r.got == 0 && r.target.isNone) = true) ∧
    ((cut 8 [] bodyPolls).Inv ∧ (cut 8 [] bodyPolls).holds .rx 1 [3, 0] ∧ (cut 8 [] bodyPolls).rxsize = 3 ∧
      (cut 8 [] bodyPolls).rx.all (fun r => r.stage == .start && r.got == 2 && r.target == some 7) = true ∧
      (cut 8 [] bodyPolls).inputs = leftMoves .start ([] ++ [brings [1, 2, 3, 3, 0] 1])) :=
  ⟨testParams_valid, by decide, by decide, by decide, by decide, by decide, by decide, by decide, by decide, by decide,
   ⟨cut_inv (bodying_inv _ _ _) rfl nofun rfl rfl rfl, ⟨⟨_, rfl, rfl⟩, ⟨rfl, rfl, rfl⟩, rfl, rfl⟩, nofun, by decide⟩,
   ⟨cut_inv (bodying_inv _ _ _) rfl nofun rfl rfl rfl, by decide, rfl, by decide, rfl⟩⟩

/-- V-B2 and V-B8: one above MAX[2] and MAX[1]; the field in two reads; after a start marker; and its second read left. -/
theorem witness_OversizeSizeFieldFails :
    ([9, (0 : Byte)].length = sizeLen .g2 ∧ fieldValue .g2 [9, 0] = 9 ∧
      maxPayload (tc .g2).params .g2 < (9 : Half).toNat ∧ chunks ([] ++ [brings [9, 0] 1]) = [9, 0] ∧
      chunks ([brings [9] 1] ++ [brings [0] 1]) = [9, 0] ∧ (brings [0] 1).chunk ≠ [] ∧
      (∀ q ∈ [brings [9] 1] ++ [brings [0] 1], q.succeeded = true) ∧
      withinBudget (tmoEff (tc .g2)) 0 [brings [9] 1] = true ∧
      (polled .g2 0 [brings [9] 1, brings [0] 1]).inputs = pollMoves ([brings [9] 1] ++ [brings [0] 1]) ++ [] ∧
      (brings [0xA2] 1).answer = .bytes [startMarker (tc .g2).params .g2]) ∧
    ([(5 : Byte)].length = sizeLen .g1 ∧ fieldValue .g1 [5] = 5 ∧
      maxPayload (tc .g1).params .g1 < (5 : Half).toNat) ∧
    ((cut 4 [] (bodying .g2 0 [brings [9] 0, brings [0] 1])).Inv ∧
      (cut 4 [] (bodying .g2 0 [brings [9] 0, brings [0] 1])).holds .rx 1 [9] ∧
      goesAt .start (cut 4 [] (bodying .g2 0 [brings [9] 0, brings [0] 1])) ([] ++ [brings [0] 1]) ∧
      (cut 4 [] (bodying .g2 0 [brings [9] 0, brings [0] 1])).rx.all (fun r => r.got == 1 && r.target.isNone) = true) :=
  ⟨by decide, by decide, cut_inv (bodying_inv _ _ _) rfl nofun rfl rfl rfl, by decide,
   ⟨⟨_, rfl, rfl⟩, trivial, rfl, rfl⟩, by decide⟩

/-- The SEEK phase of V-RV2's RECV, its polls to come. -/
def recvPolls : State :=
  (polled .g2 50 [brings [0] 9, brings [0xA2] 40, brings [3, 0] 40, brings [1, 2, 3, 3, 0] 40]).beginSeek true

/-- V-RV2's polls, one poll without the marker before them. -/
theorem witness_RecvReceivesFrame :
    (polled .g2 50 []).params.Valid ∧ (3 : Half).toNat ≤ maxPayload (polled .g2 50 []).params .g2 ∧
    (∀ q ∈ [brings [0] 9], q.missesMarker (startMarker (polled .g2 50 []).params .g2) = true) ∧
    withinBudget (tmoEff (polled .g2 50 [])) 0 [brings [0] 9] = true ∧
    (brings [0xA2] 40).answer = .bytes [startMarker (polled .g2 50 []).params .g2] ∧
    (∀ q ∈ [brings [3, 0] 40] ++ [brings [1, 2, 3, 3, 0] 40], q.succeeded = true) ∧
    chunks ([brings [3, 0] 40] ++ [brings [1, 2, 3, 3, 0] 40]) = [3, 0, 1, 2, 3, 3, 0] ∧
    chunks ([brings [3, 0] 40].take 1) = [3, 0, 1, 2, 3, 3, (0 : Byte)].take (sizeLen .g2) ∧
    withinBudget (tmoEff (polled .g2 50 [])) 0 [brings [3, 0] 40] = true ∧
    (polled .g2 50 [brings [0] 9, brings [0xA2] 40, brings [3, 0] 40, brings [1, 2, 3, 3, 0] 40]).inputs =
      pollMoves ([brings [0] 9] ++ [brings [0xA2] 40] ++ [brings [3, 0] 40] ++ [brings [1, 2, 3, 3, 0] 40]) ++ [] ∧
    (cut 1 [] recvPolls).Inv ∧ (cut 1 [] recvPolls).rx.all (fun r => r.thenBody) = true ∧
    goesAt (.reading 0xFFFFFFF0) (cut 1 [] recvPolls)
      ([brings [0] 9] ++ [brings [0xA2] 40] ++ [brings [3, 0] 40] ++ [brings [1, 2, 3, 3, 0] 40]) :=
  ⟨testParams_valid, by decide, by decide, by decide, by decide, by decide, by decide, by decide, by decide, by decide,
   cut_inv (beginSeek_inv (polled_base _ _ _) rfl rfl nofun true) rfl nofun rfl rfl rfl, rfl,
   ⟨⟨_, rfl, rfl⟩, rfl, rfl, rfl⟩⟩

/-- V-A5's polls: a matching record; V-A4's: the high byte differs. -/
theorem witness_RxackReceivesRecord :
    (acking 50 []).gen ≠ .g1 ∧ (acking 50 []).lastck = some 3 ∧
    (∀ q ∈ [brings [3] 10, brings [] 10, brings [0] 10] ++ [brings [0x5A] 10], q.succeeded = true) ∧
    chunks ([brings [3] 10, brings [] 10, brings [0] 10] ++ [brings [0x5A] 10]) = [3, 0, 0x5A] ∧
    (brings [0x5A] 10).chunk ≠ [] ∧
    withinBudget (tmoEff (acking 50 [])) 0 [brings [3] 10, brings [] 10, brings [0] 10] = true ∧
    chunks ([] ++ [brings [3, 1, 0x5A] 1]) = [3, 1, 0x5A] ∧ (brings [3, 1, 0x5A] 1).succeeded = true ∧
    ((cut 5 [] (acking 50 [brings [3] 0, brings [0, 0x5A] 10])).Inv ∧
      goesAt (.reading 0xFFFFFFF0) (cut 5 [] (acking 50 [brings [3] 0, brings [0, 0x5A] 10]))
        ([] ++ [brings [0, 0x5A] 10]) ∧
      (cut 5 [] (acking 50 [brings [3] 0, brings [0, 0x5A] 10])).rx.all
        (fun r => r.ack ++ chunks ([] ++ [brings [0, 0x5A] 10]) == [3, 0, 0x5A]) = true) :=
  ⟨by decide, by decide, by decide, by decide, by decide, by decide, by decide, by decide,
   cut_inv (acking_inv _ _) rfl nofun rfl rfl rfl, ⟨⟨_, rfl, rfl⟩, rfl, rfl, rfl⟩, by decide⟩

theorem witness_RxackIllegalInGeneration1 :
    (begun .g1 0x23).phase = .idle ∧ (begun .g1 0x23).rx = none ∧ (begun .g1 0x23).gen = .g1 := by decide

theorem witness_RxackNeedsLastck : (begun .g2 0x23).gen ≠ .g1 ∧ (begun .g2 0x23).lastck = none := by decide

/-- A refused RXACK, one that begins with NAK set, one that is still running after its second poll, and one that fails on a
negative answer. -/
theorem witness_RxackFrame :
    ((begun .g1 0x23).Inv ∧ interrupts (nextMove (begun .g1 0x23)) = false ∧ begins (begun .g1 0x23) .rxack ∧
      step (begun .g1 0x23) = .next (after (step (begun .g1 0x23))) ∧
      (after (step (begun .g1 0x23))).err = .illegal) ∧
    (State.Inv { begun .g2 0x23 with lastck := some 3, nak := true } ∧
      begins { begun .g2 0x23 with lastck := some 3, nak := true } .rxack ∧
      step { begun .g2 0x23 with lastck := some 3, nak := true } =
        .next (after (step { begun .g2 0x23 with lastck := some 3, nak := true })) ∧
      (after (step { begun .g2 0x23 with lastck := some 3, nak := true })).busy = true) ∧
    ((acking 0 [brings [3] 0, brings [0] 0]).Inv ∧ running (acking 0 [brings [3] 0, brings [0] 0]) [.ack] ∧
      interrupts (nextMove (acking 0 [brings [3] 0, brings [0] 0])) = false ∧
      step (acking 0 [brings [3] 0, brings [0] 0]) = .next (after (step (acking 0 [brings [3] 0, brings [0] 0]))) ∧
      (after (step (acking 0 [brings [3] 0, brings [0] 0]))).busy = true) ∧
    ((acking 0 [fails]).Inv ∧ running (acking 0 [fails]) [.ack] ∧ interrupts (nextMove (acking 0 [fails])) = false ∧
      step (acking 0 [fails]) = .next (after (step (acking 0 [fails]))) ∧
      (after (step (acking 0 [fails]))).err = .phyError) :=
  ⟨⟨begun_inv _ _, rfl, ⟨rfl, 0x23, rfl, rfl⟩, rfl, rfl⟩,
   ⟨{ begun_inv .g2 0x23 with }, ⟨rfl, 0x23, rfl, rfl⟩, rfl, rfl⟩, ⟨acking_inv _ _, ⟨rfl, by decide⟩, rfl, rfl, rfl⟩,
   ⟨acking_inv _ _, ⟨rfl, by decide⟩, rfl, rfl, rfl⟩⟩

/-- A SEEK, an RDBODY and a RECV that begin, a BODY phase that goes on, and a SEEK that goes on. -/
theorem witness_ReceiveFrame :
    (∀ wi ∈ [((0x20 : Word), Instr.seek), (0x21, .rdbody), (0x22, .recv)],
      (begun .g2 wi.1).Inv ∧ begins (begun .g2 wi.1) wi.2 ∧ interrupts (nextMove (begun .g2 wi.1)) = false ∧
      step (begun .g2 wi.1) = .next (after (step (begun .g2 wi.1)))) ∧
    ((bodying .g2 0 [brings [3] 0]).Inv ∧ running (bodying .g2 0 [brings [3] 0]) [.body] ∧
      interrupts (nextMove (bodying .g2 0 [brings [3] 0])) = false ∧
      step (bodying .g2 0 [brings [3] 0]) = .next (after (step (bodying .g2 0 [brings [3] 0])))) ∧
    ((seeking .g2 0 [fails]).Inv ∧ running (seeking .g2 0 [fails]) [.seek] ∧
      (seeking .g2 0 [fails]).rx.any (fun r => r.thenBody) = false ∧ interrupts (nextMove (seeking .g2 0 [fails])) = false ∧
      step (seeking .g2 0 [fails]) = .next (after (step (seeking .g2 0 [fails])))) := by
  refine ⟨fun wi hwi => ?_, ⟨bodying_inv _ _ _, ⟨rfl, by decide⟩, rfl, rfl⟩, seeking_inv _ _ _, ⟨rfl, by decide⟩, rfl, rfl,
    rfl⟩
  simp only [List.mem_cons, List.not_mem_nil, or_false] at hwi
  rcases hwi with rfl | rfl | rfl <;> exact ⟨begun_inv _ _, ⟨rfl, _, rfl, rfl⟩, rfl, rfl⟩

/-- A receive command that fails, one that goes on, and a DECODE that fails. -/
theorem witness_FlushExactlyOnError :
    ((seeking .g1 0 [fails]).Inv ∧ step (seeking .g1 0 [fails]) = .next (after (step (seeking .g1 0 [fails]))) ∧
      receives (seeking .g1 0 [fails]) ∧ (after (step (seeking .g1 0 [fails]))).busy = false ∧
      (after (step (seeking .g1 0 [fails]))).err.flushed = true) ∧
    ((begun .g1 0x20).Inv ∧ step (begun .g1 0x20) = .next (after (step (begun .g1 0x20))) ∧
      (after (step (begun .g1 0x20))).busy = true) ∧
    ((begun .g2 0x00000212).Inv ∧ step (begun .g2 0x00000212) = .next (after (step (begun .g2 0x00000212))) ∧
      (after (step (begun .g2 0x00000212))).err = .protError) :=
  ⟨⟨seeking_inv _ _ _, rfl, .inr (.inr (.inr (.inr ⟨rfl, by decide⟩))), rfl, rfl⟩, ⟨begun_inv _ _, rfl, rfl⟩,
   ⟨begun_inv _ _, rfl, rfl⟩⟩

/-- A phase of each kind; the BODY phase before and after its size field. -/
theorem witness_RequestsWhatIsMissing :
    ((seeking .g1 0 []).Inv ∧ (seeking .g1 0 []).rx.isSome = true ∧ (seeking .g1 0 []).phase = .seek) ∧
    ((bodying .g2 0 []).Inv ∧ (bodying .g2 0 []).rx.any (fun r => r.target.isNone) = true ∧
      (bodying .g2 0 []).phase = .body) ∧
    (sized.Inv ∧ sized.rx.any (fun r => r.target.isSome) = true ∧ sized.phase = .body) ∧
    ((acking 0 []).Inv ∧ (acking 0 []).rx.isSome = true ∧ (acking 0 []).phase = .ack) :=
  ⟨⟨seeking_inv _ _ _, rfl, rfl⟩, ⟨bodying_inv _ _ _, rfl, rfl⟩, ⟨sized_inv, rfl, rfl⟩, ⟨acking_inv _ _, rfl, rfl⟩⟩

theorem witness_StepKeepsInv :
    (begun .g1 0x00000201).Inv ∧ step (begun .g1 0x00000201) = .next (after (step (begun .g1 0x00000201))) :=
  ⟨begun_inv _ _, rfl⟩

/-- A step that writes GEN. -/
theorem witness_RegistersWrittenOnlyByTheirCommands :
    (begun .g1 0x00000201).Inv ∧ step (begun .g1 0x00000201) = .next (after (step (begun .g1 0x00000201))) ∧
    nextMove (begun .g1 0x00000201) ≠ .reset ∧
    (after (step (begun .g1 0x00000201))).gen ≠ (begun .g1 0x00000201).gen := ⟨begun_inv _ _, rfl, by decide, by decide⟩

/-- A CMD write, a completion, a DECODE that sets MSGEND and an RXACK that sets NAK. -/
theorem witness_StatusBitsWrittenOnlyByTheirCauses :
    (State.Inv { tc .g1 with inputs := [.host (.store 4 0 0x20)] } ∧
      goesOn (step { tc .g1 with inputs := [.host (.store 4 0 0x20)] }) (fun t => t.busy) = true) ∧
    ((begun .g1 0x23).Inv ∧ (begun .g1 0x23).err = .ok ∧ nextMove (begun .g1 0x23) ≠ .reset ∧
      goesOn (step (begun .g1 0x23)) (fun t => t.err == .illegal && !t.busy) = true) ∧
    goesOn (step ((begun .g2 0x00000812).putBuf .rx 0 [0xA2, 3, 0, 1, 2, 3, 3, 0])) (fun t => t.msgend) = true ∧
    ((acking 0 [brings [3, 0, 0x15] 1]).Inv ∧
      goesOn (step (acking 0 [brings [3, 0, 0x15] 1])) (fun t => t.nak && !t.busy) = true) :=
  ⟨⟨{ hardReset_inv (s := tc .g1) testParams_valid with }, rfl⟩,
   ⟨begun_inv _ _, rfl, nofun, by decide⟩, by decide, acking_inv _ _, by decide⟩

/-- A step that writes FRAMEBUF: the last byte of ENCODE 0's frame. -/
theorem witness_BuffersWrittenOnlyByTheirWriters :
    (begun .g1 0x00000011).Inv ∧ step (begun .g1 0x00000011) = .next (after (step (begun .g1 0x00000011))) ∧
    nextMove (begun .g1 0x00000011) ≠ .reset ∧
    Memory.read (after (step (begun .g1 0x00000011))).mem 0x2002 ≠ Memory.read (begun .g1 0x00000011).mem 0x2002 :=
  ⟨begun_inv _ _, rfl, by decide, by decide⟩

/-- Each fault of a state that meets the invariant; PHY_CONTRACT as the first move of a step and after others. -/
theorem witness_FaultsOnlyForListedCauses :
    (begun .g1 0x00000110).Inv ∧ step (begun .g1 0x00000110) = .fault .unwritten ∧
    step (begun .g2 0x00000111) = .fault .unwritten ∧ step (begun .g2 0x00000812) = .fault .unwritten ∧
    step (begun .g2 0x00000023) = .fault .unwritten ∧
    (seeking .g1 0 [brings [1, 2] 1]).Inv ∧ step (seeking .g1 0 [brings [1, 2] 1]) = .fault .phyContract ∧
    (cut 1 [] (seeking .g1 0 [brings [1, 2] 1])).Inv ∧
    step (cut 1 [] (seeking .g1 0 [brings [1, 2] 1])) = .fault .phyContract ∧
    (∀ is, State.Inv { begun .g1 0 with inputs := is }) ∧
    step { begun .g1 0 with inputs := [.host (.load 2 4)] } = .fault .hostAccess ∧
    step { begun .g1 0 with inputs := [.host (.store 1 0x3000 0)] } = .fault .hostRace :=
  ⟨begun_inv _ _, rfl, rfl, rfl, rfl, seeking_inv _ _ _, rfl, cut_inv (seeking_inv _ _ _) rfl nofun rfl rfl rfl, rfl,
   fun is => Inv_env (begun_inv .g1 0) is 0 0 0 [], rfl, rfl⟩

/-- Both sides of each boundary of the access rule. -/
theorem witness_AccessRule :
    ¬ (((0x3E : BitVec 16).toNat < 0x40 ∧ 4 = 4 ∧ 4 ∣ (0x3E : BitVec 16).toNat)) ∧
    ((0x3C : BitVec 16).toNat < 0x40 ∧ 4 = 4 ∧ 4 ∣ (0x3C : BitVec 16).toNat) ∧
    (0x40 ≤ (0x40 : BitVec 16).toNat ∧ 1 ∈ [1, 2, 4] ∧ 1 ∣ (0x40 : BitVec 16).toNat) ∧
    ¬ (0x40 ≤ (0x41 : BitVec 16).toNat ∧ 2 ∈ [1, 2, 4] ∧ 2 ∣ (0x41 : BitVec 16).toNat) ∧
    ¬ (0x40 ≤ (0x48 : BitVec 16).toNat ∧ 8 ∈ [1, 2, 4] ∧ 8 ∣ (0x48 : BitVec 16).toNat) ∧ (tc .g1).busy = false := by
  decide

theorem witness_LittleEndianStoreLoad :
    (tc .g1).busy = false ∧ accessAllowed 4 0x1FFC = true ∧ accessAllowed 1 0x3FFF = true ∧
    (∀ i, i < 4 → isBufferByte (tc .g1).params ((0x1FFC : BitVec 16).toNat + i) = true) ∧
    (∀ i, i < 1 → isBufferByte (tc .g1).params ((0x3FFF : BitVec 16).toNat + i) = true) ∧
    (filled .g2).busy = false ∧ accessAllowed 2 0x1000 = true ∧
    (∀ i, i < 2 → isBufferByte (filled .g2).params ((0x1000 : BitVec 16).toNat + i) = true) ∧
    (∀ i, ∀ h : i < [(0 : Byte), 0].length,
      Memory.read (filled .g2).mem ((0x1000 : BitVec 16).toNat + i) = some [(0 : Byte), 0][i]) := by decide

/-- The reserved range's first and last words, offset 0x3C, and the first register above CMD. -/
theorem witness_ReservedAndReadOnly :
    (accessAllowed 4 0x0040 = true ∧ ∀ i, i < 4 → regionOf (tc .g1).params (0x40 + i) = .reserved) ∧
    (accessAllowed 4 0xFFFC = true ∧ ∀ i, i < 4 → regionOf (tc .g1).params (0xFFFC + i) = .reserved) ∧
    accessAllowed 4 0x003C = true ∧ accessAllowed 4 0x0004 = true := by decide

theorem witness_CmdWrite : (tc .g1).busy = false ∧ (begun .g1 0).busy = true := by decide

theorem witness_StatusLayout : (tc .g1).cmd = none ∧ (seeking .g1 0 []).cmd = none := by decide

/-- DECODE BUF_BYTES, an RXACK that starts, another command; and a DECODE and an RXACK that will be refused, and an illegal
word. -/
theorem witness_StatusWhileStarting :
    (begun .g2 0x00100012).busy = true ∧ (begun .g2 0x00100012).cmd = some 0x00100012 ∧
    decode 0x00100012 = .ok (.decode 0x1000) ∧ (0x1000 : Half).toNat ≤ (begun .g2 0x00100012).params.bufBytes ∧
    decode 0x00000023 = .ok .rxack ∧ ({ begun .g2 0x00000023 with lastck := some 3 } : State).gen ≠ .g1 ∧
    ({ begun .g2 0x00000023 with lastck := some 3 } : State).lastck ≠ none ∧
    decode 0x00000020 = .ok .seek ∧ decode 0x00100112 = .ok (.decode 0x1001) ∧
    (begun .g2 0x00100112).params.bufBytes < (0x1001 : Half).toNat ∧ (begun .g1 0x00000023).gen = .g1 ∧
    decode 0x000000FF = .error (.unassignedOpcode 0xFF) := by decide

theorem witness_BufferStoreWhileBusyRaces :
    (begun .g1 0).busy = true ∧ accessAllowed 4 0x1FFC = true ∧ 3 < 4 ∧
    isBufferByte (begun .g1 0).params ((0x1FFC : BitVec 16).toNat + 3) = true := by decide

/-- A load twice of a byte with no value, idle; and of GEN while BUSY. -/
theorem witness_LoadsHaveNoSideEffect :
    (∃ t u, hostAccess (tc .g1) (.load 1 0x1000) = .next t ∧ hostAccess t (.load 1 0x1000) = .next u ∧
      (tc .g1).busy = false) ∧
    (∃ t u, hostAccess (begun .g1 0) (.load 4 8) = .next t ∧ hostAccess t (.load 4 8) = .next u ∧
      (8 : BitVec 16).toNat ≠ 0x34 ∧ (8 : BitVec 16).toNat ≠ 0x38) :=
  ⟨⟨_, _, rfl, rfl, rfl⟩, ⟨_, _, rfl, rfl, by decide, by decide⟩⟩

theorem witness_RegisterMap : (tc .g1).busy = false ∧ ({ tc .g1 with lastck := some 3 } : State).lastck = some 3 := by
  decide

/-- Reset while a SEEK phase runs. -/
theorem witness_HardwareReset :
    ({ seeking .g1 0 [] with inputs := [.reset] } : State).inputs = .reset :: [] ∧ (Gen.g2 ≠ Gen.g1) := by decide

theorem witness_SegmentationSound : Config.testParams.Valid ∧ tight.Valid := ⟨testParams_valid, tight_valid⟩

end Sys2Proof.Machine
end

section
/-! Every step keeps the invariant (10_state.md section 5). The shared operations keep it by Laws/Invariant.lean; what
is added here is what a beginning command may assume, each command's next states, the host's accesses, and one move of
the environment. -/

namespace Sys2Proof.Machine

/-! ### A command that begins -/

/-- The base reads the parameters, the buffers, FRLEN and RXLEN only. -/
theorem State.Base.congr {s t : State} (h : s.Base) (hparams : t.params = s.params) (hmem : t.mem = s.mem)
    (hfrlen : t.frlen = s.frlen) (hrxlen : t.rxlen = s.rxlen) : t.Base where
  params := hparams ▸ h.params
  memWf := hmem ▸ h.memWf
  memInBuffers := by rw [hmem, hparams]; exact h.memInBuffers
  frlenFits := by rw [hfrlen, hparams]; exact h.frlenFits
  rxlenFits := by rw [hrxlen, hparams]; exact h.rxlenFits

/-- The state a command begins in: BUSY is set and its word is no longer held (10_state.md R31). -/
structure State.Starting (s : State) : Prop extends s.Base where
  busy : s.busy = true
  cmd : s.cmd = none
  err : s.err ≠ .devError

/-- A captured command begins in such a state. -/
theorem State.Inv.starting {s : State} {w : Word} (h : s.Inv) (hc : s.cmd = some w) (rest : List Input) :
    State.Starting { s with cmd := none, inputs := rest } where
  toBase := h.base.congr rfl rfl rfl rfl
  busy := by simp [h.busyIff, hc]
  cmd := rfl
  err := h.errProduced

/-! ### Each command -/

theorem execSetgen_inv {gen : Arg} {s t : State} (h : s.Base) (ht : execSetgen gen s = .next t) : t.Inv := by
  rcases execSetgen_cases gen s with ⟨g, -, he⟩ | ⟨-, he⟩ <;> rw [he] at ht <;> cases ht
  · refine complete_inv ?_ (by simp)
    exact h.congr rfl rfl rfl rfl
  · exact complete_inv h (by simp)

theorem execSetck_inv {en : Arg} {s t : State} (h : s.Base) (ht : execSetck en s = .next t) : t.Inv := by
  rcases execSetck_cases en s with ⟨b, he⟩ | he <;> rw [he] at ht <;> cases ht
  · refine complete_inv ?_ (by simp)
    exact h.congr rfl rfl rfl rfl
  · exact complete_inv h (by simp)

theorem execCksum_inv {sel : BitVec 1} {n : Half} {s t : State} (h : s.Base) (ht : execCksum sel n s = .next t) :
    t.Inv := by
  rcases execCksum_cases sel n s with ⟨-, he⟩ | ⟨-, -, he⟩ | ⟨bs, -, -, he⟩ <;> rw [he] at ht <;> cases ht
  · exact complete_inv h (by simp)
  · refine complete_inv ?_ (by simp)
    exact h.congr rfl rfl rfl rfl

/-- A frame of a legal size fits FRAMEBUF, and FRLEN counts it (00_scope.md R10, 10_state.md R34). -/
theorem encodedFrame_base {s : State} (h : s.Base) {size : Half} {body : List Byte}
    (hsize : size.toNat ≤ maxPayload s.params s.gen) (hbody : body.length = bodyLen s.gen size.toNat)
    (ck : Option Byte) :
    State.Base { s.putBuf .frame 0 (frameBytes s.params s.gen size body) with
                   lastck := ck, frlen := BitVec.ofNat 16 (frameLen s.gen size.toNat) } := by
  have hfit : frameLen s.gen size.toNat ≤ s.params.bufBytes := frameLen_le_bufBytes h.params s.gen hsize
  have hput := putBuf_base h .frame 0 (frameBytes s.params s.gen size body)
    (by rwa [Nat.zero_add, frameBytes_length _ _ _ _ hbody])
  refine ⟨hput.params, hput.memWf, hput.memInBuffers, ?_, hput.rxlenFits⟩
  rw [BitVec.toNat_ofNat]
  exact (Nat.mod_le _ _).trans hfit

theorem execEncode_inv {size : Half} {s t : State} (h : s.Base) (ht : execEncode size s = .next t) : t.Inv := by
  rcases execEncode_cases size s with ⟨-, he⟩ | ⟨-, -, he⟩ | ⟨body, hsize, hread, he⟩ <;> rw [he] at ht <;> cases ht
  · exact complete_inv h (by simp)
  · have hbody := ((bufRange_eq_some ..).mp hread).1
    exact complete_inv (encodedFrame_base h hsize hbody _) (by simp)

theorem execDecode_inv {n : Half} {s t : State} (h : s.Base) (ht : execDecode n s = .next t) : t.Inv := by
  obtain ⟨m, size, ck, e, rfl, he⟩ := execDecode_cases ht
  refine complete_inv ?_ ?_
  · exact h.congr rfl rfl rfl rfl
  · rcases he with rfl | rfl | ⟨rfl, -⟩ <;> simp

theorem execRxack_inv {s t : State} (h : s.Starting) (ht : execRxack s = .next t) : t.Inv := by
  rcases execRxack_cases s with ⟨-, he⟩ | ⟨-, -, he⟩ | ⟨hgen, hck, he⟩ <;> rw [he] at ht
  · cases ht; exact complete_inv h.toBase (by simp)
  · cases ht
  · exact runRx_inv _ (beginAck_inv h.toBase h.busy h.cmd h.err hgen hck) ht

/-- Whatever a command answers where it begins meets the invariant. -/
theorem exec_inv {i : Instr} {s t : State} (h : s.Starting) (ht : exec i s = .next t) : t.Inv := by
  cases i with
  | nop => cases ht; exact complete_inv h.toBase (by simp)
  | setgen gen => exact execSetgen_inv h.toBase ht
  | settmo ms =>
    cases ht
    refine complete_inv ?_ (by simp)
    exact h.toBase.congr rfl rfl rfl rfl
  | setck en => exact execSetck_inv h.toBase ht
  | cksum sel n => exact execCksum_inv h.toBase ht
  | encode size => exact execEncode_inv h.toBase ht
  | decode n => exact execDecode_inv h.toBase ht
  | seek => exact runRx_inv _ (beginSeek_inv h.toBase h.busy h.cmd h.err false) ht
  | rdbody => exact runRx_inv _ (beginBody_inv h.toBase h.busy h.cmd h.err) ht
  | recv => exact runRx_inv _ (beginSeek_inv h.toBase h.busy h.cmd h.err true) ht
  | rxack => exact execRxack_inv h ht

/-! ### The host's accesses -/

/-- An idle FCB holds no captured word and runs no receive command (10_state.md R28). -/
theorem State.Inv.idle {s : State} (h : s.Inv) (hb : s.busy = false) : s.cmd = none ∧ s.rx = none := by
  simpa [hb] using h.busyIff

/-- A word captured by an idle FCB is the one command there (10_state.md R31). -/
theorem capture_inv {s : State} (h : s.Inv) (hb : s.busy = false) (w : Word) :
    State.Inv { s with busy := true, cmd := some w } where
  params := h.params
  memWf := h.memWf
  memInBuffers := h.memInBuffers
  busyIff := rfl
  oneCommand := .inr (h.idle hb).2
  phaseIdle := h.phaseIdle
  errProduced := h.errProduced
  frlenFits := h.frlenFits
  rxlenFits := h.rxlenFits
  phaseFits := h.phaseFits
  stageFits := h.stageFits
  withinBudget := h.withinBudget

/-- A store to an idle FCB disturbs no phase, since none runs. -/
theorem storeRange_inv {s : State} (h : s.Inv) (hb : s.busy = false) (a : Nat) (bs : List Byte) :
    State.Inv { s with mem := storeRange s.params s.mem a bs } where
  params := h.params
  memWf := storeRange_wf a bs h.memWf
  memInBuffers := fun c hc => (mem_storeRange hc).elim (h.memInBuffers c) id
  busyIff := h.busyIff
  oneCommand := h.oneCommand
  phaseIdle := h.phaseIdle
  errProduced := h.errProduced
  frlenFits := h.frlenFits
  rxlenFits := h.rxlenFits
  phaseFits := by simp [(h.idle hb).2]
  stageFits := h.stageFits
  withinBudget := h.withinBudget

/-- An access of the host: the store that reaches memory while BUSY touches no buffer byte (20_memory.md R74). -/
theorem hostAccess_inv {s t : State} {a : Access} (h : s.Inv) (ht : hostAccess s a = .next t) : t.Inv := by
  rcases hostAccess_cases ht with ⟨_, _, -, he⟩ | ⟨_, _, v, -, -, hb, rfl⟩ | ⟨_, _, _, -, rfl⟩ |
    ⟨width, addr, v, -, -, -, hb | huntouched, rfl⟩
  · rw [he]
    exact Inv_env h s.inputs s.drawn t.draws t.hostData s.history
  · exact capture_inv h hb v
  · exact h
  · exact storeRange_inv h hb _ _
  · have hmem : storeRange s.params s.mem addr.toNat (storeBytes width v) = s.mem :=
      storeRange_untouched (by simpa using touchesBuffer_eq_false.mp huntouched)
    rw [hmem]
    exact h

/-! ### One move of the environment -/

/-- The invariant does not read the moves to come. -/
theorem State.Inv.withInputs {s : State} (h : s.Inv) (is : List Input) : State.Inv { s with inputs := is } :=
  Inv_env h is s.drawn s.draws s.hostData s.history

theorem portOffer_inv {s t : State} {i : Input} {rest : List Input} (h : s.Inv)
    (ht : portOffer s i rest = .next t) : t.Inv := by
  rcases portOffer_cases s i rest with ⟨-, he⟩ | ⟨_, -, he⟩ <;> rw [he] at ht
  · cases ht; exact h.withInputs rest
  · exact runRx_inv _ h ht

theorem fcbTurn_inv {s t : State} {rest : List Input} (h : s.Inv) (ht : fcbTurn s rest = .next t) : t.Inv := by
  rcases fcbTurn_cases s rest with ⟨-, he⟩ | ⟨_, _, -, -, he⟩ | ⟨_, _, hc, -, he⟩ <;> rw [he] at ht
  · exact portOffer_inv h ht
  · cases ht; exact complete_inv (h.withInputs rest).base (by simp)
  · exact exec_inv (h.starting hc rest) ht

theorem react_inv {s t : State} {i : Input} {rest : List Input} (h : s.Inv) (ht : react s i rest = .next t) :
    t.Inv := by
  cases i with
  | fcb => exact fcbTurn_inv h ht
  | host a => exact hostAccess_inv (h.withInputs rest) ht
  | reset => cases ht; exact hardReset_inv h.params
  | clock sample => exact portOffer_inv h ht
  | phy answer => exact portOffer_inv h ht

/-- Settles O40: a step is the reaction to one move, listed or drawn, and each kind of move keeps the invariant. -/
theorem stepKeepsInv : Obligations.StepKeepsInv := by
  intro s t h ht
  rcases step_eq_react s with ⟨rest, -, he⟩ | ⟨-, he⟩ <;> rw [he] at ht
  · exact react_inv h ht
  · exact react_inv (Inv_env h s.inputs (s.drawn + 1) s.draws s.hostData s.history) ht

end Sys2Proof.Machine
end

section
/-! What a run of a receive phase writes (42_transceiver.md R180, R183, R190; 44_ack.md R231). Each shared operation of
the phases is related to the state it starts from by one transitive relation, `Receives` for SEEK and BODY and
`ReceivesAck` for ACK; the end of a poll, and then a run of moves, composes them. -/

namespace Sys2Proof.Machine

/-! ### A run keeps what every poll keeps -/

/-- A property that the bookkeeping within a poll and the end of every poll keep, under the invariant, holds after a
run. -/
theorem runRx_keeps_of_polls {R : State → Prop} (hinputs : ∀ u is, R u → R { u with inputs := is })
    (hstage : ∀ u r stage history, u.Inv → u.rx = some r → R u →
      R { u with history := history, rx := some { r with stage := stage } })
    (hend : ∀ u r t0 t1 answer, u.Inv → u.rx = some r → answerFits (u.request r) answer = true → R u →
      R (u.finishPoll r t0 t1 answer))
    (is : List Input) {s t : State} (hinv : s.Inv) (hs : R s) (h : State.runRx is s = .next t) : R t := by
  refine (runRx_keeps (P := fun u => u.Inv ∧ R u) (fun u is hu => ⟨hu.1.withInputs is, hinputs u is hu.2⟩) ?_ is
    ⟨hinv, hs⟩ h).2
  rintro u r i v ⟨hu, hR⟩ hr - hv
  refine ⟨receiveInput_inv hu hr hv, ?_⟩
  rcases receiveInput_cases hv with rfl | ⟨t0, -, -, rfl⟩ | ⟨t0, answer, -, -, -, rfl⟩ |
    ⟨t0, t1, answer, -, -, rfl⟩ | ⟨t0, t1, answer, -, hst, rfl⟩
  · exact hR
  · exact hstage u r _ _ hu hr hR
  · exact hstage u r _ _ hu hr hR
  · exact hstage u r _ _ hu hr hR
  · have hfits := hu.stageFits r hr
    rw [stageOk, hst] at hfits
    exact hend u r t0 t1 answer hu hr hfits hR

/-! ### SEEK and BODY -/

/-- `s` with everything a SEEK or BODY phase may write taken from `v`. -/
def State.withReceived (s v : State) : State :=
  { s with mem := v.mem, rxlen := v.rxlen, rxsize := v.rxsize, elapsed := v.elapsed, phase := v.phase, err := v.err,
           busy := v.busy, cmd := v.cmd, rx := v.rx, inputs := v.inputs, drawn := v.drawn, epoch := v.epoch,
           history := v.history }

/-- `t` comes from `s` by the work of a SEEK or BODY phase: only its own registers are written, STATUS.ERR only at
completion, and RXBUF only where RXLEN has grown. -/
structure State.Receives (s t : State) : Prop where
  frame : t = s.withReceived t
  errKept : t.busy = true → s.busy = true ∧ t.err = s.err
  notAck : s.phase ≠ .ack → t.phase ≠ .ack
  rxlenGrows : s.rxlen.toNat ≤ t.rxlen.toNat
  memKept : ∀ a, ¬ (0x3000 + s.rxlen.toNat ≤ a ∧ a < 0x3000 + t.rxlen.toNat) →
    Memory.read t.mem a = Memory.read s.mem a

theorem State.Receives.trans {s t u : State} (h : s.Receives t) (h' : t.Receives u) : s.Receives u where
  frame := h'.frame.trans (congrArg (fun v => v.withReceived u) h.frame)
  errKept hb := by
    obtain ⟨hbt, he⟩ := h'.errKept hb
    obtain ⟨hbs, he'⟩ := h.errKept hbt
    exact ⟨hbs, he.trans he'⟩
  notAck hp := h'.notAck (h.notAck hp)
  rxlenGrows := h.rxlenGrows.trans h'.rxlenGrows
  memKept a ha := by
    have h1 := h.rxlenGrows
    have h2 := h'.rxlenGrows
    rw [h'.memKept a (by omega), h.memKept a (by omega)]

/-- RXSIZE, ELAPSED and the hidden state are a phase's own. -/
theorem receives_update (s : State) (rxsize : Half) (elapsed : Word) (rx : Option Rx) (inputs : List Input)
    (history : List Event) :
    s.Receives { s with rxsize := rxsize, elapsed := elapsed, rx := rx, inputs := inputs, history := history } where
  frame := rfl
  errKept hb := ⟨hb, rfl⟩
  notAck hp := hp
  rxlenGrows := le_rfl
  memKept _ _ := rfl

theorem receives_complete (s : State) (e : ErrCode) : s.Receives (s.complete e) where
  frame := rfl
  errKept := nofun
  notAck _ := nofun
  rxlenGrows := le_rfl
  memKept _ _ := rfl

theorem receives_failRx (s : State) (e : ErrCode) : s.Receives (s.failRx e) :=
  (receives_update s s.rxsize s.elapsed s.rx s.inputs (.phyFlush :: s.history)).trans (receives_complete _ e)

theorem receives_account (s : State) (r : Rx) (t0 t1 : Word) : s.Receives (s.account r t0 t1) := by
  rcases account_cases s r t0 t1 with ⟨-, he⟩ | ⟨-, he⟩ <;> rw [he]
  · exact (receives_update s s.rxsize _ s.rx s.inputs s.history).trans (receives_failRx _ _)
  · exact receives_update s s.rxsize _ _ s.inputs s.history

theorem receives_storeMarker {s : State} (h : s.rxlen = 0) (b : Byte) : s.Receives (s.storeMarker [b]) where
  frame := rfl
  errKept hb := ⟨hb, rfl⟩
  notAck hp := hp
  rxlenGrows := by simp [h]
  memKept a ha := read_putBuf_outside s .rx 0 a [b] (by simpa [h, Buf.base] using ha)

theorem receives_beginBody {s : State} (h : s.rxlen = 1) : s.Receives s.beginBody where
  frame := rfl
  errKept hb := ⟨hb, rfl⟩
  notAck _ := nofun
  rxlenGrows := by simp [h]
  memKept _ _ := rfl

theorem receives_storeBody {s : State} {r : Rx} {bs : List Byte} (hlen : s.rxlen.toNat = 1 + r.got)
    (hfit : 1 + (r.got + bs.length) < 2 ^ 16) : s.Receives (s.storeBody r bs) := by
  have hlen' : (s.storeBody r bs).rxlen.toNat = 1 + (r.got + bs.length) := by
    rw [storeBody_rxlen, BitVec.toNat_ofNat, Nat.mod_eq_of_lt hfit]
  exact {
    frame := rfl
    errKept := fun hb => ⟨hb, rfl⟩
    notAck := fun hp => hp
    rxlenGrows := by omega
    memKept := fun a ha => read_putBuf_outside s .rx (1 + r.got) a bs (by simp only [Buf.base]; omega) }

theorem receives_seekBytes {s : State} (h : s.rxlen = 0) (r : Rx) (t0 t1 : Word) (bs : List Byte) :
    s.Receives (s.seekBytes r t0 t1 bs) := by
  unfold State.seekBytes
  split
  case isTrue hbs =>
    subst hbs
    have hmarker := receives_storeMarker h (startMarker s.params s.gen)
    split
    · exact hmarker.trans (receives_beginBody rfl)
    · exact hmarker.trans (receives_complete _ _)
  case isFalse => exact receives_account s r t0 t1

theorem receives_bodyGoOn (s : State) (r : Rx) (t0 t1 : Word) : s.Receives (s.bodyGoOn r t0 t1) := by
  unfold State.bodyGoOn
  split
  · exact receives_complete s _
  · exact receives_account s r t0 t1

theorem receives_bodySize (s : State) (r : Rx) (t0 t1 : Word) (size : Half) :
    s.Receives (s.bodySize r t0 t1 size) := by
  have hsize := receives_update s size s.elapsed s.rx s.inputs s.history
  unfold State.bodySize
  split
  · exact hsize.trans (receives_failRx _ _)
  · exact hsize.trans (receives_bodyGoOn _ _ t0 t1)

theorem receives_bodyBytes {s : State} {r : Rx} (h : s.Running r) (hp : s.phase = .body) (t0 t1 : Word)
    {bs : List Byte} (hf : bs.length ≤ s.request r) : s.Receives (s.bodyBytes r t0 t1 bs) := by
  have hphase := h.phaseFits
  simp only [phaseOk, hp] at hphase
  obtain ⟨hlen, -, -⟩ := hphase
  have hstore : s.Receives (s.storeBody r bs) := by
    have := body_fits h hp hf
    have := bufBytes_le h.params
    exact receives_storeBody hlen (by omega)
  unfold State.bodyBytes
  split
  · exact hstore.trans (receives_bodySize _ _ t0 t1 _)
  · exact hstore.trans (receives_bodyGoOn _ _ t0 t1)

/-- The end of a poll of the SEEK or BODY phase. -/
theorem receives_finishPoll {s : State} {r : Rx} (h : s.Running r) (hp : s.phase ≠ .ack) (t0 t1 : Word)
    {answer : PhyAnswer} (hf : answerFits (s.request r) answer = true) :
    s.Receives (s.finishPoll r t0 t1 answer) := by
  cases answer with
  | negative => exact receives_failRx s _
  | bytes bs =>
    simp only [State.finishPoll]
    split
    next hidle => exact absurd hidle h.notIdle
    next hseek =>
      have hphase := h.phaseFits
      simp only [phaseOk, hseek] at hphase
      exact receives_seekBytes hphase r t0 t1 bs
    next hbody => exact receives_bodyBytes h hbody t0 t1 (by simpa [answerFits] using hf)
    next hack => exact absurd hack hp

/-- A run that begins in a SEEK or BODY phase does nothing but the work of these phases. -/
theorem runRx_receives (is : List Input) {s t : State} (h : s.Inv) (hp : s.phase ≠ .ack)
    (ht : State.runRx is s = .next t) : s.Receives t := by
  refine runRx_keeps_of_polls (R := s.Receives) ?_ ?_ ?_ is h ?_ ht
  · exact fun u is hu => hu.trans (receives_update u u.rxsize u.elapsed u.rx is u.history)
  · exact fun u r _ _ _ _ hu => hu.trans (receives_update u u.rxsize u.elapsed _ u.inputs _)
  · exact fun u r t0 t1 _ hinv hr hf hu =>
      hu.trans (receives_finishPoll (hinv.running hr) (hu.notAck hp) t0 t1 hf)
  · exact receives_update s s.rxsize s.elapsed s.rx s.inputs s.history

/-! ### SEEK alone -/

/-- A SEEK phase that no BODY phase follows, or its end: RXSIZE still holds `size`. -/
structure State.SeeksOnly (size : Half) (t : State) : Prop where
  rxsize : t.rxsize = size
  phase : t.phase = .seek ∨ t.phase = .idle
  noBody : t.rx.any (fun r => r.thenBody) = false

theorem seeksOnly_of_ended {size : Half} {t : State} (h : t.rxsize = size) (hp : t.phase = .idle) (hr : t.rx = none) :
    t.SeeksOnly size := ⟨h, .inr hp, by simp [hr]⟩

theorem seeksOnly_finishPoll {size : Half} {s : State} {r : Rx} (h : s.SeeksOnly size) (hr : s.rx = some r)
    (hidle : s.phase ≠ .idle) (t0 t1 : Word) (answer : PhyAnswer) :
    (s.finishPoll r t0 t1 answer).SeeksOnly size := by
  have hseek : s.phase = .seek := h.phase.resolve_right hidle
  have hnoBody : r.thenBody = false := by simpa [hr] using h.noBody
  cases answer with
  | negative => exact seeksOnly_of_ended h.rxsize rfl rfl
  | bytes bs =>
    simp only [State.finishPoll, hseek, State.seekBytes, hnoBody, Bool.false_eq_true, if_false]
    split
    · exact seeksOnly_of_ended h.rxsize rfl rfl
    · rcases account_cases s r t0 t1 with ⟨-, he⟩ | ⟨-, he⟩ <;> rw [he]
      · exact seeksOnly_of_ended h.rxsize rfl rfl
      · exact ⟨h.rxsize, .inl hseek, by simpa using hnoBody⟩

/-- A run of a SEEK does not write RXSIZE (42_transceiver.md R180). -/
theorem runRx_seeksOnly (is : List Input) {s t : State} (h : s.Inv) (hp : s.phase = .seek)
    (hb : s.rx.any (fun r => r.thenBody) = false) (ht : State.runRx is s = .next t) : t.rxsize = s.rxsize := by
  refine (runRx_keeps_of_polls (R := State.SeeksOnly s.rxsize) ?_ ?_ ?_ is h ⟨rfl, .inl hp, hb⟩ ht).rxsize
  · exact fun u is hu => ⟨hu.rxsize, hu.phase, hu.noBody⟩
  · exact fun u r _ _ _ hr hu => ⟨hu.rxsize, hu.phase, by simpa [hr] using hu.noBody⟩
  · exact fun u r t0 t1 answer hinv hr _ hu => seeksOnly_finishPoll hu hr (hinv.running hr).notIdle t0 t1 answer

/-! ### ACK -/

/-- `s` with everything an ACK phase may write taken from `v`. -/
def State.withAck (s v : State) : State :=
  { s with nak := v.nak, ackcode := v.ackcode, ackck := v.ackck, elapsed := v.elapsed, phase := v.phase, err := v.err,
           busy := v.busy, cmd := v.cmd, rx := v.rx, inputs := v.inputs, drawn := v.drawn, epoch := v.epoch,
           history := v.history }

/-- `t` comes from `s` by the work of an ACK phase: only its own registers are written, and STATUS.ERR only at
completion. -/
structure State.ReceivesAck (s t : State) : Prop where
  frame : t = s.withAck t
  errKept : t.busy = true → s.busy = true ∧ t.err = s.err
  phase : s.phase = .ack → t.phase = .ack ∨ t.phase = .idle

/-- STATUS.NAK is 1 only where an RXACK has completed with OK and an ack code that does not accept (10_state.md R30,
44_ack.md R232). -/
def NakJustified (t : State) : Prop :=
  t.nak = true → t.busy = false ∧ t.err = .ok ∧ ackOk t.params t.gen ≠ some t.ackcode

theorem nakJustified_of_clear {t : State} (h : t.nak = false) : NakJustified t := by simp [NakJustified, h]

theorem receivesAck_failRx {s u : State} (h : u = s.withAck u) (hn : u.nak = false) (e : ErrCode) :
    s.ReceivesAck (u.failRx e) ∧ NakJustified (u.failRx e) :=
  ⟨⟨congrArg (fun v => v.failRx e) h, nofun, fun _ => .inr rfl⟩, nakJustified_of_clear hn⟩

/-- A complete record: only a matching one can set NAK (44_ack.md R232, R233). -/
theorem receivesAck_ackCompare {s : State} (hn : s.nak = false) (c : Half) (code ck : Byte) :
    s.ReceivesAck (s.ackCompare c code ck) ∧ NakJustified (s.ackCompare c code ck) := by
  unfold State.ackCompare
  split
  · exact ⟨⟨rfl, nofun, fun _ => .inr rfl⟩, fun hnak => ⟨rfl, rfl, by simpa [rejects] using hnak⟩⟩
  · exact receivesAck_failRx (u := { s with ackck := c }) rfl hn _

theorem receivesAck_account {s : State} (hn : s.nak = false) (r : Rx) (t0 t1 : Word) :
    s.ReceivesAck (s.account r t0 t1) ∧ NakJustified (s.account r t0 t1) := by
  rcases account_cases s r t0 t1 with ⟨-, he⟩ | ⟨-, he⟩ <;> rw [he]
  · exact receivesAck_failRx (u := { s with elapsed := accountElapsed t0 t1 s.elapsed }) rfl hn _
  · exact ⟨⟨rfl, fun hb => ⟨hb, rfl⟩, fun hp => .inl hp⟩, nakJustified_of_clear hn⟩

/-- The end of a poll of the ACK phase. -/
theorem receivesAck_finishPoll {s : State} (r : Rx) (hp : s.phase = .ack) (hn : s.nak = false) (t0 t1 : Word)
    (answer : PhyAnswer) :
    s.ReceivesAck (s.finishPoll r t0 t1 answer) ∧ NakJustified (s.finishPoll r t0 t1 answer) := by
  cases answer with
  | negative => exact receivesAck_failRx rfl hn _
  | bytes bs =>
    simp only [State.finishPoll, hp, State.ackBytes]
    split
    · exact receivesAck_ackCompare hn _ _ _
    · exact receivesAck_account hn _ t0 t1

theorem State.ReceivesAck.trans {s t u : State} (h : s.ReceivesAck t) (hp : t.phase = .ack) (h' : t.ReceivesAck u) :
    s.ReceivesAck u where
  frame := h'.frame.trans (congrArg (fun v => v.withAck u) h.frame)
  errKept hb := by
    obtain ⟨hbt, he⟩ := h'.errKept hb
    obtain ⟨hbs, he'⟩ := h.errKept hbt
    exact ⟨hbs, he.trans he'⟩
  phase _ := h'.phase hp

/-- The ACK phase of a state that meets the invariant runs with NAK clear. -/
theorem State.Inv.nak_clear {s : State} {r : Rx} (h : s.Inv) (hr : s.rx = some r) (hp : s.phase = .ack) :
    s.nak = false := by
  have hphase := h.phaseFits r hr
  simp only [phaseOk, hp] at hphase
  exact hphase.2.2.1

/-- A run that begins in an ACK phase does nothing but its work. -/
theorem runRx_receivesAck (is : List Input) {s t : State} (h : s.Inv) (hp : s.phase = .ack)
    (ht : State.runRx is s = .next t) : s.ReceivesAck t ∧ NakJustified t := by
  have hack : ∀ {u : State} {r : Rx}, u.Inv → u.rx = some r → s.ReceivesAck u → u.phase = .ack :=
    fun hinv hr hu => (hu.phase hp).resolve_right (hinv.running hr).notIdle
  obtain ⟨r, hr⟩ : ∃ r, s.rx = some r := Option.ne_none_iff_exists'.mp fun hnone => by
    simp [h.phaseIdle.mpr hnone] at hp
  refine runRx_keeps_of_polls (R := fun u => s.ReceivesAck u ∧ NakJustified u) ?_ ?_ ?_ is h
    ⟨⟨rfl, fun hb => ⟨hb, rfl⟩, fun hp => .inl hp⟩, nakJustified_of_clear (h.nak_clear hr hp)⟩ ht
  · rintro u is ⟨hu, hn⟩
    exact ⟨⟨congrArg (fun v : State => { v with inputs := is }) hu.frame, hu.errKept, hu.phase⟩, hn⟩
  · rintro u r stage history - - ⟨hu, hn⟩
    exact ⟨⟨congrArg (fun v : State => { v with history := history, rx := some { r with stage := stage } }) hu.frame,
      hu.errKept, hu.phase⟩, hn⟩
  · rintro u r t0 t1 answer hinv hr - ⟨hu, -⟩
    have hphase := hack hinv hr hu
    obtain ⟨hend, hn⟩ := receivesAck_finishPoll r hphase (hinv.nak_clear hr hphase) t0 t1 answer
    exact ⟨hu.trans hphase hend, hn⟩

end Sys2Proof.Machine
end

section
/-! What one step may write. A step that is no reset is one of five things (`StepCase`); what each may write is said by
an equation of its next state, from which the statements below on the writers of registers and STATUS fields are read
off. -/

namespace Sys2Proof.Machine

/-! ### What a step does -/

/-- What a step that is no reset does: its move has no effect; the host makes its access; an illegal word completes; a
command begins; or the receive command in progress runs. -/
inductive StepCase (s t : State) : Prop
  | unseen (is : List Input) (drawn : Nat) (ht : t = { s with inputs := is, drawn := drawn })
  | host (a : Access) (is : List Input) (drawn : Nat) (hmove : nextMove s = .host a)
      (ht : hostAccess { s with inputs := is, drawn := drawn } a = .next t)
  | illegal (w : Word) (is : List Input) (drawn : Nat) (hmove : nextMove s = .fcb) (hcmd : s.cmd = some w)
      (ht : t = State.complete { s with inputs := is, drawn := drawn } .illegal)
  | begins (i : Instr) (is : List Input) (drawn : Nat) (hbegins : begins s i)
      (ht : exec i { s with cmd := none, inputs := is, drawn := drawn } = .next t)
  | runs (r : Rx) (is later : List Input) (drawn : Nat) (hmove : interrupts (nextMove s) = false) (hrx : s.rx = some r)
      (ht : State.runRx is { s with inputs := later, drawn := drawn } = .next t)

/-- A step is the reaction to its move, a drawn one advancing the draws. -/
theorem step_eq_react_drawn (s : State) :
    ∃ rest drawn, step s = react { s with drawn := drawn } (nextMove s) rest := by
  rcases step_eq_react s with ⟨rest, -, he⟩ | ⟨-, he⟩
  · exact ⟨rest, s.drawn, he⟩
  · exact ⟨[], s.drawn + 1, he⟩

theorem portOffer_stepCase {s t : State} {i : Input} {rest : List Input} {drawn : Nat}
    (hmove : interrupts (nextMove s) = false) (ht : portOffer { s with drawn := drawn } i rest = .next t) :
    StepCase s t := by
  rcases portOffer_cases { s with drawn := drawn } i rest with ⟨-, he⟩ | ⟨r, hr, he⟩ <;> rw [he] at ht
  · cases ht; exact .unseen rest drawn rfl
  · exact .runs r _ s.inputs drawn hmove hr ht

theorem step_stepCase {s t : State} (ht : step s = .next t) (hreset : nextMove s ≠ .reset) : StepCase s t := by
  obtain ⟨rest, drawn, he⟩ := step_eq_react_drawn s
  rw [he] at ht
  cases hmove : nextMove s with
  | reset => exact absurd hmove hreset
  | host a => rw [hmove] at ht; exact .host a rest drawn hmove ht
  | clock sample => rw [hmove] at ht; exact portOffer_stepCase (by rw [hmove]; rfl) ht
  | phy answer => rw [hmove] at ht; exact portOffer_stepCase (by rw [hmove]; rfl) ht
  | fcb =>
    rw [hmove] at ht
    rcases fcbTurn_cases { s with drawn := drawn } rest with ⟨-, hf⟩ | ⟨w, e, hw, -, hf⟩ | ⟨w, i, hw, hd, hf⟩ <;>
      simp only [react, hf] at ht
    · exact portOffer_stepCase (by rw [hmove]; rfl) ht
    · cases ht; exact .illegal w rest drawn hmove hw rfl
    · exact .begins i rest drawn ⟨hmove, w, hw, hd⟩ ht

/-- Where a command begins, the step is its meaning. -/
theorem step_of_begins {s : State} {i : Instr} (h : begins s i) :
    ∃ is drawn, step s = exec i { s with cmd := none, inputs := is, drawn := drawn } := by
  obtain ⟨hmove, w, hw, hd⟩ := h
  obtain ⟨rest, drawn, he⟩ := step_eq_react_drawn s
  exact ⟨rest, drawn, by simp only [he, hmove, react, fcbTurn, hw, startCommand, hd]⟩

/-- Where a receive command is in progress, a move of the clock, the PHY or the FCB runs it. -/
theorem step_of_running {s : State} {r : Rx} (hr : s.rx = some r) (hc : s.cmd = none)
    (hmove : interrupts (nextMove s) = false) :
    ∃ is later drawn, step s = State.runRx is { s with inputs := later, drawn := drawn } := by
  obtain ⟨rest, drawn, he⟩ := step_eq_react_drawn s
  refine ⟨nextMove s :: rest, s.inputs, drawn, he.trans ?_⟩
  cases hm : nextMove s with
  | fcb => simp only [react, fcbTurn, portOffer, hc, hr]
  | clock sample => simp only [react, portOffer, hr]
  | phy answer => simp only [react, portOffer, hr]
  | host a => rw [hm] at hmove; cases hmove
  | reset => rw [hm] at hmove; cases hmove

/-! ### A captured command under the invariant -/

theorem begins_cmd {s : State} {i : Instr} (h : begins s i) : ∃ w, s.cmd = some w := by
  obtain ⟨-, w, hw, -⟩ := h
  exact ⟨w, hw⟩

theorem begins_unique {s : State} {i j : Instr} (hi : begins s i) (hj : begins s j) : i = j := by
  obtain ⟨-, w, hw, hd⟩ := hi
  obtain ⟨-, w', hw', hd'⟩ := hj
  rw [hw] at hw'
  cases hw'
  rw [hd] at hd'
  exact Except.ok.inj hd'

/-- While a word is captured, BUSY is set and no phase runs. -/
theorem State.Inv.captured {s : State} {w : Word} (h : s.Inv) (hw : s.cmd = some w) :
    s.busy = true ∧ s.rx = none ∧ s.phase = .idle := by
  have hrx : s.rx = none := h.oneCommand.resolve_left (by simp [hw])
  exact ⟨by simp [h.busyIff, hw], hrx, h.phaseIdle.mpr hrx⟩

/-- While a phase runs, BUSY is set and no word is captured. -/
theorem State.Inv.inPhase {s : State} {r : Rx} (h : s.Inv) (hr : s.rx = some r) :
    s.busy = true ∧ s.cmd = none ∧ s.phase ≠ .idle :=
  ⟨(h.running hr).busy, (h.running hr).cmd, (h.running hr).notIdle⟩

/-- A command that begins does so from the state `Starting` describes. -/
theorem begins_starting {s : State} {i : Instr} (h : s.Inv) (hb : begins s i) (is : List Input) (drawn : Nat) :
    State.Starting { s with cmd := none, inputs := is, drawn := drawn } := by
  obtain ⟨w, hw⟩ := begins_cmd hb
  exact (Inv_env h s.inputs drawn s.draws s.hostData s.history).starting hw is

/-! ### The frame of each command and of the host -/

/-- What a command that begins in `s` and answers `t` has written beside its completion. -/
def commandFrame (i : Instr) (s t : State) : Prop :=
  match i with
  | .nop => t = s.complete t.err
  | .setgen _ => t = { s with gen := t.gen }.complete t.err
  | .settmo _ => t = { s with timeout := t.timeout }.complete t.err
  | .setck _ => t = { s with cken := t.cken }.complete t.err
  | .cksum _ _ => t = { s with cksum := t.cksum }.complete t.err
  | .encode _ => t = { s with mem := t.mem, lastck := t.lastck, frlen := t.frlen }.complete t.err
  | .decode _ => t = { s with msgend := t.msgend, rxsize := t.rxsize, rxck := t.rxck }.complete t.err
  | .seek => t = { s.withReceived t with rxsize := s.rxsize }
  | .rdbody => t = s.withReceived t
  | .recv => t = s.withReceived t
  | .rxack => t = s.withAck t

theorem execSeek_receives {s t : State} (h : s.Starting) (ht : execSeek s = .next t) :
    (s.beginSeek false).Receives t :=
  runRx_receives _ (beginSeek_inv h.toBase h.busy h.cmd h.err false) (by simp) ht

theorem execRdbody_receives {s t : State} (h : s.Starting) (ht : execRdbody s = .next t) : s.beginBody.Receives t :=
  runRx_receives _ (beginBody_inv h.toBase h.busy h.cmd h.err) (by simp) ht

theorem execRecv_receives {s t : State} (h : s.Starting) (ht : execRecv s = .next t) :
    (s.beginSeek true).Receives t :=
  runRx_receives _ (beginSeek_inv h.toBase h.busy h.cmd h.err true) (by simp) ht

/-- An RXACK that answers is refused in generation 1, or runs its phase. -/
theorem execRxack_receives {s t : State} (h : s.Starting) (ht : execRxack s = .next t) :
    t = s.complete .illegal ∨ (s.gen ≠ .g1 ∧ s.beginAck.ReceivesAck t ∧ NakJustified t) := by
  rcases execRxack_cases s with ⟨-, he⟩ | ⟨-, -, he⟩ | ⟨hgen, hck, he⟩ <;> rw [he] at ht
  · cases ht; exact .inl rfl
  · cases ht
  · exact .inr ⟨hgen, runRx_receivesAck _ (beginAck_inv h.toBase h.busy h.cmd h.err hgen hck) rfl ht⟩

theorem exec_frame {i : Instr} {s t : State} (h : s.Starting) (ht : exec i s = .next t) : commandFrame i s t := by
  cases i with
  | nop => cases ht; rfl
  | setgen gen => rcases execSetgen_cases gen s with ⟨g, -, he⟩ | ⟨-, he⟩ <;> cases he.symm.trans ht <;> rfl
  | settmo ms => cases ht; rfl
  | setck en => rcases execSetck_cases en s with ⟨b, he⟩ | he <;> cases he.symm.trans ht <;> rfl
  | cksum sel n =>
    rcases execCksum_cases sel n s with ⟨-, he⟩ | ⟨-, -, he⟩ | ⟨bs, -, -, he⟩ <;> cases he.symm.trans ht <;> rfl
  | encode size =>
    rcases execEncode_cases size s with ⟨-, he⟩ | ⟨-, -, he⟩ | ⟨body, -, -, he⟩ <;> cases he.symm.trans ht <;> rfl
  | decode n =>
    obtain ⟨m, size, ck, e, rfl, -⟩ := execDecode_cases ht
    rfl
  | seek =>
    have hsize : t.rxsize = s.rxsize :=
      runRx_seeksOnly (s := s.beginSeek false) _ (beginSeek_inv h.toBase h.busy h.cmd h.err false) rfl rfl ht
    show t = { s.withReceived t with rxsize := s.rxsize }
    rw [← hsize]
    exact (execSeek_receives h ht).frame
  | rdbody => exact (execRdbody_receives h ht).frame
  | recv => exact (execRecv_receives h ht).frame
  | rxack =>
    rcases execRxack_receives h ht with rfl | ⟨-, hack, -⟩
    · rfl
    · exact hack.frame

/-- A host access writes no register of the FCB but STATUS.BUSY. -/
theorem hostAccess_frame {s t : State} {a : Access} (ht : hostAccess s a = .next t) :
    t = { s with busy := t.busy, cmd := t.cmd, mem := t.mem, hostData := t.hostData, draws := t.draws } := by
  rcases hostAccess_cases ht with ⟨_, _, -, he⟩ | ⟨_, _, _, -, -, -, rfl⟩ | ⟨_, _, _, -, rfl⟩ |
    ⟨_, _, _, -, -, -, -, rfl⟩
  · rw [he]
  · rfl
  · rfl
  · rfl

end Sys2Proof.Machine
end

section
/-! The registers' and the STATUS fields' writers (10_state.md R23 to R41), and the frame of the receive commands
(42_transceiver.md R180, R183, R185, R190). -/

namespace Sys2Proof.Machine

/-! ### The receive commands' frame -/

/-- The SEEK or BODY phase that a step of `s` begins or goes on with runs from `u`. -/
structure State.Enters (s u : State) : Prop where
  inv : u.Inv
  notAck : u.phase ≠ .ack
  frame : u = s.withReceived u
  mem : u.mem = s.mem
  rxsize : u.rxsize = s.rxsize
  /-- A phase that is past the start marker leaves RXBUF[0]. -/
  pastMarker : begins s .rdbody ∨ running s [.body] → 1 ≤ u.rxlen.toNat
  seekOnly : begins s .seek ∨ (running s [.seek] ∧ s.rx.any (fun r => r.thenBody) = false) →
    u.phase = .seek ∧ u.rx.any (fun r => r.thenBody) = false

theorem not_running_of_begins {s : State} {i : Instr} (h : s.Inv) (hb : begins s i) (ps : List Phase) :
    ¬ running s ps := fun ⟨hrx, _⟩ => by
  obtain ⟨w, hw⟩ := begins_cmd hb
  simp [(h.captured hw).2.1] at hrx

theorem step_enters_of_begins {s : State} {i : Instr} (h : s.Inv) (hb : begins s i)
    (hi : i = .seek ∨ i = .rdbody ∨ i = .recv) : ∃ is u, s.Enters u ∧ step s = State.runRx is u := by
  obtain ⟨is, drawn, hstep⟩ := step_of_begins hb
  have hst := begins_starting h hb is drawn
  have hother : ∀ {j ps}, j ≠ i → ¬ (begins s j ∨ running s ps) := fun hj hor =>
    hor.elim (fun hb' => hj (begins_unique hb' hb)) (not_running_of_begins h hb _)
  rcases hi with rfl | rfl | rfl
  · exact ⟨is, _, ⟨beginSeek_inv hst.toBase hst.busy hst.cmd hst.err false, nofun, rfl, rfl, rfl,
      fun hbody => absurd hbody (hother nofun), fun _ => ⟨rfl, rfl⟩⟩, hstep⟩
  · exact ⟨is, _, ⟨beginBody_inv hst.toBase hst.busy hst.cmd hst.err, nofun, rfl, rfl, rfl, fun _ => le_rfl,
      fun hseek => absurd (hseek.imp_right And.left) (hother nofun)⟩, hstep⟩
  · exact ⟨is, _, ⟨beginSeek_inv hst.toBase hst.busy hst.cmd hst.err true, nofun, rfl, rfl, rfl,
      fun hbody => absurd hbody (hother nofun),
      fun hseek => absurd (hseek.imp_right And.left) (hother nofun)⟩, hstep⟩

theorem step_enters_of_running {s : State} (h : s.Inv) (hmove : interrupts (nextMove s) = false)
    (hrun : running s [.seek, .body]) : ∃ is u, s.Enters u ∧ step s = State.runRx is u := by
  obtain ⟨hrx, hphase⟩ := hrun
  obtain ⟨r, hr⟩ := Option.isSome_iff_exists.mp hrx
  have hnot : ∀ i, ¬ begins s i := fun i hb => not_running_of_begins h hb [.seek, .body] ⟨hrx, hphase⟩
  obtain ⟨is, later, drawn, hstep⟩ := step_of_running hr (h.inPhase hr).2.1 hmove
  refine ⟨is, _, ⟨Inv_env h later drawn s.draws s.hostData s.history, ?_, rfl, rfl, rfl, ?_, ?_⟩, hstep⟩
  · intro hack
    simp [show s.phase = .ack from hack] at hphase
  · intro hbody
    obtain ⟨-, hp⟩ := hbody.resolve_left (hnot _)
    have hfits := h.phaseFits r hr
    simp only [phaseOk, List.mem_singleton.mp hp] at hfits
    show 1 ≤ s.rxlen.toNat
    omega
  · intro hseek
    obtain ⟨⟨-, hp⟩, hb⟩ := hseek.resolve_left (hnot _)
    exact ⟨List.mem_singleton.mp hp, hb⟩

theorem step_enters {s : State} (h : s.Inv) (hmove : interrupts (nextMove s) = false)
    (hcause : begins s .seek ∨ begins s .rdbody ∨ begins s .recv ∨ running s [.seek, .body]) :
    ∃ is u, s.Enters u ∧ step s = State.runRx is u := by
  rcases hcause with hb | hb | hb | hrun
  · exact step_enters_of_begins h hb (.inl rfl)
  · exact step_enters_of_begins h hb (.inr (.inl rfl))
  · exact step_enters_of_begins h hb (.inr (.inr rfl))
  · exact step_enters_of_running h hmove hrun

/-- Settles O37: the step is a run from where the phase stands, RXBUF grows with RXLEN from there, and all else is in
the frame of the phases. -/
theorem receiveFrame : Obligations.ReceiveFrame := by
  intro s t h ht hmove hcause
  have hinv : t.Inv := stepKeepsInv s t h ht
  obtain ⟨is, u, hu, hstep⟩ := step_enters h hmove hcause
  rw [hstep] at ht
  have hrun := runRx_receives is hu.inv hu.notAck ht
  have hframe : t = s.withReceived t := hrun.frame.trans (congrArg (fun v => v.withReceived t) hu.frame)
  have hfield : ∀ {α : Type} (f : State → α), f t = f (s.withReceived t) := fun f => congrArg f hframe
  have hmem : ∀ a, ¬ (0x3000 + u.rxlen.toNat ≤ a ∧ a < 0x3000 + t.rxlen.toNat) →
      Memory.read t.mem a = Memory.read s.mem a := fun a ha => by rw [hrun.memKept a ha, hu.mem]
  refine ⟨fun a ha => hmem a (by omega), fun hbody => ?_, fun hseek => ?_, ?_, hfield State.params, hfield State.gen,
    hfield State.timeout, hfield State.cken, hfield State.msgend, hfield State.nak, hfield State.cksum,
    hfield State.lastck, hfield State.frlen, hfield State.rxck, hfield State.ackcode, hfield State.ackck,
    hfield State.hostData⟩
  · have := hu.pastMarker hbody
    exact hmem 0x3000 (by omega)
  · obtain ⟨hp, hb⟩ := hu.seekOnly hseek
    rw [runRx_seeksOnly is hu.inv hp hb ht, hu.rxsize]
  · have hparams : t.params = s.params := hfield State.params
    exact hparams ▸ hinv.rxlenFits

/-! ### The registers' writers -/

/-- The phase that runs is ACK, or SEEK or BODY. -/
theorem running_phase {s : State} {r : Rx} (h : s.Inv) (hr : s.rx = some r) :
    (s.phase = .ack ∧ running s [.ack]) ∨ (s.phase ≠ .ack ∧ running s [.seek, .body]) := by
  have hidle := (h.inPhase hr).2.2
  cases hp : s.phase with
  | idle => exact absurd hp hidle
  | seek => exact .inr ⟨nofun, by simp [running, hr, hp]⟩
  | body => exact .inr ⟨nofun, by simp [running, hr, hp]⟩
  | ack => exact .inl ⟨rfl, by simp [running, hr, hp]⟩

/-- A running phase among some is one among more. -/
theorem running_mono {s : State} {ps qs : List Phase} (h : running s ps) (hsub : ps ⊆ qs) : running s qs :=
  ⟨h.1, hsub h.2⟩

/-- Settles O42: in each of the five cases the frame leaves every register that is not the case's own, and PHASE was
IDLE where a command completes that is no receive command. -/
theorem registersWrittenOnlyByTheirCommands : Obligations.RegistersWrittenOnlyByTheirCommands := by
  intro s t h ht hreset
  cases step_stepCase ht hreset with
  | unseen is drawn he => simp [he]
  | host a is drawn hmove hacc => rw [hostAccess_frame hacc]; simp
  | illegal w is drawn hmove hcmd he =>
    have hidle := (h.captured hcmd).2.2
    simp [he, hidle]
  | begins i is drawn hb hexec =>
    obtain ⟨w, hw⟩ := begins_cmd hb
    have hidle := (h.captured hw).2.2
    have hframe := exec_frame (begins_starting h hb is drawn) hexec
    cases i with
    | nop => rw [hframe]; simp [hidle]
    | setgen gen => rw [hframe]; simpa [hidle] using fun _ => ⟨gen, hb⟩
    | settmo ms => rw [hframe]; simpa [hidle] using fun _ => ⟨ms, hb⟩
    | setck en => rw [hframe]; simpa [hidle] using fun _ => ⟨en, hb⟩
    | cksum sel n => rw [hframe]; simpa [hidle] using fun _ => ⟨sel, n, hb⟩
    | encode size => rw [hframe]; simpa [hidle] using fun _ => ⟨size, hb⟩
    | decode n =>
      have hwriter : ∃ n, begins s (.decode n) := ⟨n, hb⟩
      rw [hframe]; simp [hidle, hwriter]
    | seek => rw [hframe]; simp [State.withReceived, hb]
    | rdbody => rw [hframe]; simp [State.withReceived, hb]
    | recv => rw [hframe]; simp [State.withReceived, hb]
    | rxack => rw [hframe]; simp [State.withAck, hb]
  | runs r is later drawn hmove hr hrun =>
    have hinv := Inv_env h later drawn s.draws s.hostData s.history
    rcases running_phase h hr with ⟨hack, hwriter⟩ | ⟨hack, hwriter⟩
    · have hany : running s [.seek, .body, .ack] := running_mono hwriter (by simp)
      rw [(runRx_receivesAck is hinv hack hrun).1.frame]
      simp [State.withAck, hwriter, hany]
    · have hany : running s [.seek, .body, .ack] := running_mono hwriter (by simp)
      rw [(runRx_receives is hinv hack hrun).frame]
      simp [State.withReceived, hwriter, hany]

end Sys2Proof.Machine
end

section
/-! The writers of the STATUS fields (10_state.md R27 to R30). -/

namespace Sys2Proof.Machine

/-! ### The host and STATUS.BUSY -/

/-- An access that goes through is allowed (20_memory.md R64). -/
theorem hostAccess_store_allowed {s t : State} {width : Nat} {addr : BitVec 16} {v : Word}
    (ht : hostAccess s (.store width addr v) = .next t) : accessAllowed width addr = true := by
  by_contra hno
  simp [hostAccess, hno] at ht

/-- An allowed access to the register window is a 32-bit one (20_memory.md R64). -/
theorem accessAllowed_register {width : Nat} {addr : BitVec 16} (h : accessAllowed width addr = true)
    (hlow : addr.toNat < 0x40) : width = 4 := by
  rw [accessAllowed, if_pos hlow] at h
  exact (of_decide_eq_true h).1

/-- No host access ends a command. -/
theorem hostAccess_keeps_busy {s t : State} {a : Access} (ht : hostAccess s a = .next t) (hb : s.busy = true) :
    t.busy = true := by
  rcases hostAccess_cases ht with ⟨_, _, -, he⟩ | ⟨_, _, _, -, -, hb', -⟩ | ⟨_, _, _, -, rfl⟩ |
    ⟨_, _, _, -, -, -, -, rfl⟩
  · exact (congrArg State.busy he).trans hb
  · rw [hb] at hb'; cases hb'
  · exact hb
  · exact hb

/-- The one host access that sets BUSY is a 32-bit store to CMD, which captures its word (10_state.md R31). -/
theorem hostAccess_sets_busy {s t : State} {a : Access} (ht : hostAccess s a = .next t) (hs : s.busy = false)
    (hb : t.busy = true) : ∃ w, a = .store 4 0 w ∧ t = { s with busy := true, cmd := some w } := by
  rcases hostAccess_cases ht with ⟨_, _, -, he⟩ | ⟨width, addr, w, rfl, h0, -, he⟩ | ⟨_, _, _, -, rfl⟩ |
    ⟨_, _, _, -, -, -, -, rfl⟩
  · have hbusy : t.busy = s.busy := (congrArg State.busy he :)
    rw [hb, hs] at hbusy; cases hbusy
  · obtain rfl : addr = 0 := BitVec.eq_of_toNat_eq h0
    obtain rfl := accessAllowed_register (hostAccess_store_allowed ht) (by decide)
    exact ⟨w, rfl, he⟩
  · rw [hs] at hb; cases hb
  · rw [hs] at hb; cases hb

/-! ### STATUS.ERR and STATUS.BUSY over a step -/

/-- An idle FCB does nothing of itself: a step only consumes its move, or is the host's access. -/
theorem stepCase_idle {s t : State} (h : s.Inv) (hs : s.busy = false) (hcase : StepCase s t) :
    (∃ is drawn, t = { s with inputs := is, drawn := drawn }) ∨
    (∃ a is drawn, nextMove s = .host a ∧ hostAccess { s with inputs := is, drawn := drawn } a = .next t) := by
  obtain ⟨hcmd, hrx⟩ := h.idle hs
  cases hcase with
  | unseen is drawn he => exact .inl ⟨is, drawn, he⟩
  | host a is drawn hmove ha => exact .inr ⟨a, is, drawn, hmove, ha⟩
  | illegal w is drawn hmove hw he => rw [hcmd] at hw; cases hw
  | begins i is drawn hb hexec =>
    obtain ⟨w, hw⟩ := begins_cmd hb
    rw [hcmd] at hw; cases hw
  | runs r is later drawn hmove hr hrun => rw [hrx] at hr; cases hr

/-- A command that still runs has not written STATUS.ERR. -/
theorem exec_errKept {i : Instr} {s t : State} (h : s.Starting) (ht : exec i s = .next t) (hb : t.busy = true) :
    t.err = s.err := by
  have hdone : ∀ {u : State} {e : ErrCode}, t = u.complete e → t.err = s.err := fun {u e} he => by
    have : t.busy = false := congrArg State.busy he
    rw [hb] at this; cases this
  have hframe := exec_frame h ht
  cases i with
  | nop => exact hdone hframe
  | setgen gen => exact hdone hframe
  | settmo ms => exact hdone hframe
  | setck en => exact hdone hframe
  | cksum sel n => exact hdone hframe
  | encode size => exact hdone hframe
  | decode n => exact hdone hframe
  | seek => exact ((execSeek_receives h ht).errKept hb).2
  | rdbody => exact ((execRdbody_receives h ht).errKept hb).2
  | recv => exact ((execRecv_receives h ht).errKept hb).2
  | rxack =>
    rcases execRxack_receives h ht with he | ⟨-, hack, -⟩
    · exact hdone he
    · exact (hack.errKept hb).2

theorem stepCase_errKept {s t : State} (h : s.Inv) (hcase : StepCase s t) (hb : t.busy = true) : t.err = s.err := by
  cases hcase with
  | unseen is drawn he => exact (congrArg State.err he :)
  | host a is drawn hmove ha => exact (congrArg State.err (hostAccess_frame ha) :)
  | illegal w is drawn hmove hw he => rw [he] at hb; cases hb
  | begins i is drawn hbegins hexec => exact (exec_errKept (begins_starting h hbegins is drawn) hexec hb :)
  | runs r is later drawn hmove hr hrun =>
    have hinv := Inv_env h later drawn s.draws s.hostData s.history
    rcases running_phase h hr with ⟨hack, -⟩ | ⟨hack, -⟩
    · exact ((runRx_receivesAck is hinv hack hrun).1.errKept hb).2
    · exact ((runRx_receives is hinv hack hrun).errKept hb).2

/-- STATUS.ERR changes only where a command completes (10_state.md R27). -/
theorem stepCase_err {s t : State} (h : s.Inv) (hcase : StepCase s t) (he : t.err ≠ s.err) :
    s.busy = true ∧ t.busy = false := by
  refine ⟨?_, Bool.eq_false_iff.mpr fun hb => he (stepCase_errKept h hcase hb)⟩
  by_contra hs
  rcases stepCase_idle h (Bool.eq_false_iff.mpr hs) hcase with ⟨is, drawn, rfl⟩ | ⟨a, is, drawn, -, ha⟩
  · exact he rfl
  · exact he (congrArg State.err (hostAccess_frame ha) :)

/-- STATUS.BUSY is set only by a CMD write (10_state.md R28). -/
theorem stepCase_sets_busy {s t : State} (h : s.Inv) (hcase : StepCase s t) (hs : s.busy = false)
    (hb : t.busy = true) :
    ∃ w, nextMove s = .host (.store 4 0 w) ∧
      t = { s with busy := true, cmd := some w, inputs := t.inputs, drawn := t.drawn } := by
  rcases stepCase_idle h hs hcase with ⟨is, drawn, rfl⟩ | ⟨a, is, drawn, hmove, ha⟩
  · rw [show s.busy = true from hb] at hs; cases hs
  · obtain ⟨w, rfl, rfl⟩ := hostAccess_sets_busy ha hs hb
    exact ⟨w, hmove, rfl⟩

/-- STATUS.BUSY is cleared only where a captured or a receive command completes (10_state.md R28). -/
theorem stepCase_clears_busy {s t : State} (hcase : StepCase s t) (hs : s.busy = true)
    (hb : t.busy = false) :
    interrupts (nextMove s) = false ∧ ((nextMove s = .fcb ∧ s.cmd ≠ none) ∨ s.rx ≠ none) := by
  cases hcase with
  | unseen is drawn he =>
    have hbusy : t.busy = s.busy := (congrArg State.busy he :)
    rw [hb, hs] at hbusy; cases hbusy
  | host a is drawn hmove ha => rw [hostAccess_keeps_busy ha hs] at hb; cases hb
  | illegal w is drawn hmove hw he => exact ⟨by rw [hmove]; rfl, .inl ⟨hmove, by simp [hw]⟩⟩
  | begins i is drawn hbegins hexec =>
    obtain ⟨w, hw⟩ := begins_cmd hbegins
    exact ⟨by rw [hbegins.1]; rfl, .inl ⟨hbegins.1, by simp [hw]⟩⟩
  | runs r is later drawn hmove hr hrun => exact ⟨hmove, .inr (by simp [hr])⟩

/-! ### STATUS.MSGEND -/

/-- DECODE is refused, rejects the frame with MSGEND clear, or accepts it with MSGEND its end-of-message predicate
(41_codec.md R150, R151). -/
theorem execDecode_outcomes {n : Half} {s t : State} (h : execDecode n s = .next t) :
    t = s.complete .illegal ∨
    (∃ size : Half, t = { s with msgend := false, rxsize := size }.complete .protError) ∨
    (∃ size ck : Half,
      t = { s with msgend := endsMessage s.params s.gen size.toNat, rxsize := size, rxck := ck }.complete .ok) := by
  unfold execDecode at h
  split at h
  · cases h; exact .inl rfl
  · split at h
    · cases h; exact .inr (.inl ⟨s.rxsize, rfl⟩)
    · split at h
      · cases h
      next field _ =>
        unfold decodeBody at h
        split at h
        · cases h; exact .inr (.inl ⟨_, rfl⟩)
        · split at h
          · cases h; exact .inr (.inl ⟨_, rfl⟩)
          · split at h
            · cases h
            · cases h
              unfold decodeTrailer acceptFrame
              split
              · exact .inr (.inl ⟨_, rfl⟩)
              · exact .inr (.inr ⟨_, _, rfl⟩)

/-- MSGEND changes only where a DECODE is not refused, and is 1 after it only for an accepted short frame (10_state.md
R29). -/
theorem execDecode_msgend {n : Half} {s t : State} (h : execDecode n s = .next t) (hm : t.msgend ≠ s.msgend) :
    t.busy = false ∧ t.err ≠ .illegal ∧
      (t.msgend = true → t.err = .ok ∧ t.rxsize.toNat < maxPayload s.params s.gen) := by
  rcases execDecode_outcomes h with rfl | ⟨size, rfl⟩ | ⟨size, ck, rfl⟩
  · exact absurd rfl hm
  · exact ⟨rfl, nofun, nofun⟩
  · exact ⟨rfl, nofun, fun hend => ⟨rfl, of_decide_eq_true hend⟩⟩

/-! ### STATUS.NAK -/

/-- NAK changes only where an RXACK is not refused, and is 1 after it only where a record does not accept (10_state.md
R30). -/
theorem stepCase_nak {s t : State} (h : s.Inv) (hcase : StepCase s t) (hn : t.nak ≠ s.nak) :
    s.gen ≠ .g1 ∧ t.params = s.params ∧ t.gen = s.gen ∧ NakJustified t := by
  cases hcase with
  | unseen is drawn he => exact absurd (congrArg State.nak he) hn
  | host a is drawn hmove ha => exact absurd (congrArg State.nak (hostAccess_frame ha)) hn
  | illegal w is drawn hmove hw he => exact absurd (congrArg State.nak he) hn
  | begins i is drawn hbegins hexec =>
    have hst := begins_starting h hbegins is drawn
    have hframe := exec_frame hst hexec
    cases i with
    | rxack =>
      rcases execRxack_receives hst hexec with he | ⟨hgen, hack, hjust⟩
      · exact absurd (congrArg State.nak he) hn
      · exact ⟨hgen, (congrArg State.params hack.frame :), (congrArg State.gen hack.frame :), hjust⟩
    | _ => exact absurd (congrArg State.nak hframe) hn
  | runs r is later drawn hmove hr hrun =>
    have hinv := Inv_env h later drawn s.draws s.hostData s.history
    rcases running_phase h hr with ⟨hack, -⟩ | ⟨hack, -⟩
    · obtain ⟨hrx, hjust⟩ := runRx_receivesAck is hinv hack hrun
      have hphase := h.phaseFits r hr
      simp only [phaseOk, hack] at hphase
      exact ⟨hphase.1, (congrArg State.params hrx.frame :), (congrArg State.gen hrx.frame :), hjust⟩
    · exact absurd (congrArg State.nak (runRx_receives is hinv hack hrun).frame) hn

/-- Settles O43: the writers come from the registers' writers, the values from the cases of the step. -/
theorem statusBitsWrittenOnlyByTheirCauses : Obligations.StatusBitsWrittenOnlyByTheirCauses := by
  intro s t h ht hreset
  have hcase := step_stepCase ht hreset
  have hinv : t.Inv := stepKeepsInv s t h ht
  obtain ⟨-, -, -, -, -, -, hmsgend, hnak, -⟩ := registersWrittenOnlyByTheirCommands s t h ht hreset
  refine ⟨stepCase_err h hcase, stepCase_sets_busy h hcase, fun hs hb => ?_, fun hm => ?_, fun hn => ?_⟩
  · obtain ⟨hmove, hcause⟩ := stepCase_clears_busy hcase hs hb
    obtain ⟨hcmd, hrx⟩ := hinv.idle hb
    exact ⟨hmove, hinv.phaseIdle.mpr hrx, hcmd, hrx, hcause⟩
  · obtain ⟨n, hbegins⟩ := hmsgend (.inl hm)
    obtain ⟨is, drawn, hstep⟩ := step_of_begins hbegins
    have hdecode := hstep.symm.trans ht
    exact ⟨⟨n, hbegins⟩, (execDecode_msgend hdecode hm :)⟩
  · obtain ⟨hgen, hparams, hgen', hjust⟩ := stepCase_nak h hcase hn
    exact ⟨hnak (.inl hn), hgen, fun hset => by rw [← hparams, ← hgen']; exact hjust hset⟩

end Sys2Proof.Machine
end

section
/-! The commands' own statements: a captured word runs as the command it decodes to, SETTMO, SETCK, RXACK without
LASTCK, and the PHY's contract. -/

namespace Sys2Proof.Machine

/-! ### A captured word -/

/-- The encoder's word decodes to the command, whatever its operands (30_encoding.md R90 to R92). -/
theorem decode_encode_eq (i : Instr) : decode (encode i) = .ok i := by
  have hassemble : decode (encode i) = assemble i.op i.arg := by
    simp only [decode, encode, opField_append, argField_append, opOfCode_code]
  rw [hassemble]
  cases i with
  | nop => rfl
  | setgen gen => rfl
  | settmo ms => rfl
  | setck en => rfl
  | cksum sel n =>
    obtain ⟨hsel, hn, hreserved⟩ := cksumArg_fields sel n
    simp only [Instr.op, Instr.arg, assemble, hsel, hn, hreserved, if_true]
  | encode size =>
    obtain ⟨hsize, hreserved⟩ := halfArg_fields size
    simp only [Instr.op, Instr.arg, assemble, hsize, hreserved, if_true]
  | decode n =>
    obtain ⟨hn, hreserved⟩ := halfArg_fields n
    simp only [Instr.op, Instr.arg, assemble, hn, hreserved, if_true]
  | seek => rfl
  | rdbody => rfl
  | recv => rfl
  | rxack => rfl

/-- On the FCB's turn a captured word begins (10_state.md R31). -/
theorem step_captured {s : State} {w : Word} {rest : List Input} (hin : s.inputs = .fcb :: rest)
    (hw : s.cmd = some w) : step s = startCommand { s with inputs := rest } w := by
  rw [step_fcb hin]
  simp only [fcbTurn, hw]

theorem startCommand_decoded {s : State} {w : Word} {i : Instr} (hd : decode w = .ok i) :
    startCommand s w = exec i { s with cmd := none } := by
  simp only [startCommand, hd]

/-- Settles O5: the FCB's turn takes the captured word, and the word `withFetchWord` places is the encoder's. -/
theorem stepRunsDecodedCommand : Obligations.StepRunsDecodedCommand := by
  refine ⟨fun s w i rest hin hw hd => ?_, fun s i _ => ?_⟩
  · rw [step_captured hin hw, startCommand_decoded hd]
  · have hword : BitVec.ofNat 32 ((encode i).toNat % 2 ^ 32) = encode i := by
      rw [Nat.mod_eq_of_lt (encode i).isLt, BitVec.ofNat_toNat, BitVec.setWidth_eq]
    have hd : decode (BitVec.ofNat 32 ((encode i).toNat % 2 ^ 32)) = .ok i := by
      rw [hword, decode_encode_eq]
    rw [step_captured (s := s.withFetchWord 32 (encode i).toNat) rfl rfl, startCommand_decoded hd]
    rfl

/-! ### Configuration commands -/

/-- A word with OP 0x02 is a legal SETTMO, whatever its ARG (30_encoding.md R91). -/
theorem classify_settmo {w : Word} (hop : opField w = 0x02) : classify w = .ok (.settmo (argField w)) := by
  have hd : decode w = .ok (.settmo (argField w)) := by
    rw [decode, hop]
    rfl
  rw [classify, hd]
  rfl

/-- Settles O8: SETTMO completes from an idle phase, and a zero operand selects the default. -/
theorem settmoResult : Obligations.SettmoResult := by
  refine ⟨fun s ms hp hr => ?_, fun w hop => classify_settmo hop⟩
  refine ⟨_, rfl, complete_of_idle (s := { s with timeout := ms }) hp hr .ok, ?_⟩
  have hzero : ms = 0 ↔ ms.toNat = 0 := BitVec.toNat_eq
  simp only [tmoEff, complete_timeout, complete_params, hzero]

/-- Settles O9: by the two legal operands and the rest. -/
theorem setckResult : Obligations.SetckResult := by
  intro s hp hr
  refine ⟨?_, ?_, fun en hen => ?_⟩
  · exact congrArg Host.Outcome.next (complete_of_idle (s := { s with cken := false }) hp hr .ok)
  · exact congrArg Host.Outcome.next (complete_of_idle (s := { s with cken := true }) hp hr .ok)
  · have h0 : en ≠ 0 := by rintro rfl; simp at hen
    have h1 : en ≠ 1 := by rintro rfl; simp at hen
    rw [← complete_of_idle hp hr .illegal]
    simp only [exec, execSetck, h0, h1, if_false]

/-! ### RXACK and the PHY's contract -/

/-- Settles O35: of the cases of RXACK only the fault has a generation above 1 and no LASTCK. -/
theorem rxackNeedsLastck : Obligations.RxackNeedsLastck := by
  intro s hgen hck
  rcases execRxack_cases s with ⟨h1, -⟩ | ⟨-, -, he⟩ | ⟨-, hsome, -⟩
  · exact absurd h1 hgen
  · exact he
  · simp [hck] at hsome

/-- An answer of the PHY is offered to the receive command in progress. -/
theorem step_phy {s : State} {r : Rx} {answer : PhyAnswer} {rest : List Input} (hr : s.rx = some r)
    (hin : s.inputs = .phy answer :: rest) :
    step s = andThen (s.receiveInput r (.phy answer)) (State.runRx rest) := by
  rw [← runRx_cons _ rest hr rfl]
  simp only [step, hin, react, portOffer, hr]

theorem receiveInput_phy {s : State} {r : Rx} {t0 : Word} (hst : r.stage = .reading t0) (answer : PhyAnswer) :
    s.receiveInput r (.phy answer) =
      if answerFits (s.request r) answer then
        .next { s with rx := some { r with stage := .answered t0 answer },
                       history := .phyRead (s.request r) answer :: s.history }
      else .fault .phyContract := by
  simp only [State.receiveInput, hst]
  rfl

theorem answerFits_iff {req : Nat} {answer : PhyAnswer} :
    answerFits req answer = true ↔ answer = .negative ∨ ∃ bs, answer = .bytes bs ∧ bs.length ≤ req := by
  cases answer <;> simp [answerFits]

/-- Settles O28: the read in progress takes exactly the answers that fit its request. -/
theorem phyAnswerContract : Obligations.PhyAnswerContract := by
  intro s r t0 rest hr hst
  refine ⟨fun bs hin hlong => ?_, fun answer hin hfits => ?_⟩
  · have hno : ¬ answerFits (s.request r) (.bytes bs) = true := by simpa [answerFits] using hlong
    rw [step_phy hr hin, receiveInput_phy hst, if_neg hno, andThen_fault]
  · have hstep := step_phy hr hin
    rw [receiveInput_phy hst, if_pos (answerFits_iff.mpr hfits), andThen_next] at hstep
    refine ⟨hstep, ?_⟩
    rintro rfl
    rw [hstep, runRx_nil]

end Sys2Proof.Machine
end

section
/-! The register window and the reserved addresses as the host sees them (10_state.md R22, R31; 20_memory.md R61, R63,
R74). -/

namespace Sys2Proof.Machine

/-! ### The register window -/

/-- A load of a register. -/
theorem hostAccess_load_register (s : State) {addr : BitVec 16} (hlow : addr.toNat < 0x40)
    (halign : addr.toNat % 4 = 0) : hostAccess s (.load 4 addr) = .next (loadRegister s addr.toNat) := by
  have hallowed : accessAllowed 4 addr = true := by simp [accessAllowed, hlow, halign]
  simp only [hostAccess, hallowed, hlow, if_true]

theorem loadRegister_idle {s : State} (hb : s.busy = false) (offset : Nat) :
    loadRegister s offset = { s with hostData := registerWord s offset } := by
  simp [loadRegister, hb]

/-- CMD, STATUS and the reserved offset 0x3C are loaded alike whether a command runs or not. -/
theorem loadRegister_fixed (s : State) {offset : Nat} (h : changesWhileBusy offset = false)
    (hword : busyRegisterWord s offset = registerWord s offset) :
    loadRegister s offset = { s with hostData := registerWord s offset } := by
  unfold loadRegister
  split
  · rw [hword, h]; rfl
  · rfl

/-- CMD and offset 0x3C read 0 (10_state.md R22, R31). -/
theorem loadRegister_zero (s : State) {offset : Nat} (h : offset = 0 ∨ offset = 0x3C) :
    loadRegister s offset = { s with hostData := 0 } := by
  have hword : registerWord s offset = 0 := by rcases h with rfl | rfl <;> rfl
  have hbusy : busyRegisterWord s offset = 0 := by
    rcases h with rfl | rfl <;> simp [busyRegisterWord, changesWhileBusy, registerMask]
  have hfixed : changesWhileBusy offset = false := by rcases h with rfl | rfl <;> rfl
  rw [loadRegister_fixed s hfixed (hbusy.trans hword.symm), hword]

/-- A store to a register other than CMD is ignored (10_state.md R22). -/
theorem hostAccess_store_readOnly (s : State) {width : Nat} {addr : BitVec 16} (v : Word)
    (hallowed : accessAllowed width addr = true) (hpos : 0 < addr.toNat) (hlow : addr.toNat < 0x40) :
    hostAccess s (.store width addr v) = .next s := by
  simp only [hostAccess, hallowed, hlow, if_true]
  rw [if_neg (by omega)]

/-- Settles O50: CMD's store is `storeCmd`, and the FCB's turn takes the word it captured. (`cmdWrite` itself names the
script's move.) -/
theorem HostPort.cmdWrite : Obligations.CmdWrite := by
  intro s w
  have hstore : hostAccess s (.store 4 0 w) = .next (storeCmd s w) := rfl
  refine ⟨fun hb => ⟨?_, fun rest => step_captured rfl rfl⟩, fun hb => ?_, ?_⟩
  · rw [hstore]; simp [storeCmd, hb]
  · rw [hstore]; simp [storeCmd, hb]
  · rw [hostAccess_load_register s (by decide) (by decide)]
    exact congrArg Host.Outcome.next (loadRegister_zero s (.inl rfl))

theorem registerWord_lastck {s : State} {c : Byte} (hc : s.lastck = some c) :
    registerWord s 0x18 = c.setWidth 32 := by
  simp [registerWord, hc]

/-- Settles O55: an idle load returns the field the map gives the offset. -/
theorem registerMap : Obligations.RegisterMap := by
  intro s hb
  have hload : ∀ (addr : BitVec 16) (v : Word), addr.toNat < 0x40 → addr.toNat % 4 = 0 →
      registerWord s addr.toNat = v → hostAccess s (.load 4 addr) = .next { s with hostData := v } := by
    rintro addr v hlow halign rfl
    rw [hostAccess_load_register s hlow halign, loadRegister_idle hb]
  refine ⟨fun addr v hmem => ?_, fun c hc => hload _ _ (by decide) (by decide) ?_⟩
  · have hcken : (BitVec.ofBool s.cken).setWidth 32 = if s.cken then (1 : Word) else 0 := by cases s.cken <;> rfl
    rw [← hcken] at hmem
    simp only [List.mem_cons, Prod.mk.injEq, List.not_mem_nil, or_false] at hmem
    rcases hmem with ⟨rfl, rfl⟩ | ⟨rfl, rfl⟩ | ⟨rfl, rfl⟩ | ⟨rfl, rfl⟩ | ⟨rfl, rfl⟩ | ⟨rfl, rfl⟩ | ⟨rfl, rfl⟩ |
      ⟨rfl, rfl⟩ | ⟨rfl, rfl⟩ | ⟨rfl, rfl⟩ | ⟨rfl, rfl⟩ | ⟨rfl, rfl⟩ <;>
    exact hload _ _ (by decide) (by decide) rfl
  · exact registerWord_lastck hc

/-! ### STATUS -/

/-- Bits put above `w` bits count `2 ^ w` times. -/
theorem toNat_append_eq_add {v w : Nat} (x : BitVec v) (y : BitVec w) :
    (x ++ y).toNat = x.toNat * 2 ^ w + y.toNat := by
  rw [BitVec.toNat_append, ← Nat.shiftLeft_add_eq_or_of_lt y.isLt, Nat.shiftLeft_eq]

/-- The value of STATUS while no captured word waits: the fields at their bits (10_state.md R22, R27 to R30). -/
theorem statusWord_toNat {s : State} (hc : s.cmd = none) :
    (statusWord s).toNat = s.err.code.toNat + 8 * s.busy.toNat + 16 * s.msgend.toNat + 32 * s.nak.toNat := by
  have hdecode : startingDecode s = false := by simp [startingDecode, hc]
  have hrxack : startingRxack s = false := by simp [startingRxack, hc]
  simp only [statusWord, hdecode, hrxack, Bool.not_false, Bool.and_true, toNat_append_eq_add, BitVec.toNat_ofBool,
    BitVec.ofNat_eq_ofNat, BitVec.toNat_ofNat]
  omega

/-- Settles O51: STATUS loads alike idle and while a command runs. -/
theorem statusLayout : Obligations.StatusLayout := by
  intro s hc
  have hload : hostAccess s (.load 4 4) = .next { s with hostData := statusWord s } := by
    rw [hostAccess_load_register s (by decide) (by decide)]
    exact congrArg Host.Outcome.next (loadRegister_fixed s (offset := 4) rfl rfl)
  exact ⟨_, hload, rfl, statusWord_toNat hc⟩

/-! ### Reserved addresses -/

theorem littleEndian_zeros (n : Nat) : littleEndian (List.replicate n 0) = 0 := by
  induction n with
  | zero => rfl
  | succ n ih =>
    have hcons : littleEndian (List.replicate (n + 1) 0) =
        (littleEndian (List.replicate n 0) <<< 8) ||| (0 : Byte).setWidth 32 := rfl
    rw [hcons, ih]
    rfl

/-- Reserved bytes load as 0 (20_memory.md R63). -/
theorem loadBytes_reserved {s : State} {width a : Nat} (h : ∀ i, i < width → regionOf s.params (a + i) = .reserved) :
    loadBytes s width a = { s with hostData := 0 } := by
  have hbytes : (List.range width).map (fun i => hostByte s (a + i)) = List.replicate width 0 := by
    refine List.eq_replicate_iff.mpr ⟨by simp, fun b hb => ?_⟩
    obtain ⟨i, hi, rfl⟩ := List.mem_map.mp hb
    simp only [hostByte, h i (List.mem_range.mp hi)]
  rw [loadBytes, hbytes, littleEndian_zeros]

/-- A store to reserved bytes is ignored, also while BUSY (20_memory.md R63). -/
theorem storeBuffer_reserved {s : State} {width a : Nat} (v : Word)
    (h : ∀ i, i < width → regionOf s.params (a + i) = .reserved) : storeBuffer s width a v = .next s := by
  have hno : ∀ i, i < width → isBufferByte s.params (a + i) = false := fun i hi => by simp [isBufferByte, h i hi]
  have hmem : storeRange s.params s.mem a (storeBytes width v) = s.mem :=
    storeRange_untouched (by simpa using hno)
  rw [storeBuffer, touchesBuffer_eq_false.mpr hno, Bool.and_false, if_neg Bool.false_ne_true, hmem]

/-- An allowed access has a first byte, so where all its bytes are reserved it lies above the register window. -/
theorem reserved_above_registers {p : Params} {width : Nat} {addr : BitVec 16}
    (hallowed : accessAllowed width addr = true)
    (h : ∀ i, i < width → regionOf p (addr.toNat + i) = .reserved) : ¬ addr.toNat < 0x40 := by
  intro hlow
  obtain rfl := accessAllowed_register hallowed hlow
  have hfirst := h 0 (by decide)
  rw [Nat.add_zero, regionOf, if_pos hlow] at hfirst
  cases hfirst

/-- Settles O49: a reserved range above the registers by its bytes, offset 0x3C and the read-only registers by the
register window. -/
theorem reservedAndReadOnly : Obligations.ReservedAndReadOnly := by
  intro s width addr v hallowed
  refine ⟨?_, hostAccess_store_readOnly s v hallowed⟩
  rintro (hreserved | haddr)
  · have hhigh := reserved_above_registers hallowed hreserved
    have hne : addr.toNat ≠ 0 := by omega
    simp only [hostAccess, hallowed, hhigh, hne, if_true, if_false]
    exact ⟨congrArg Host.Outcome.next (loadBytes_reserved hreserved), storeBuffer_reserved v hreserved⟩
  · obtain rfl := accessAllowed_register hallowed (by omega)
    refine ⟨?_, hostAccess_store_readOnly s v hallowed (by omega) (by omega)⟩
    rw [hostAccess_load_register s (by omega) (by omega)]
    exact congrArg Host.Outcome.next (loadRegister_zero s (.inr haddr))

end Sys2Proof.Machine
end

section
/-! The buffer windows as the host sees them (20_memory.md R61, R63, R65, R66, R74). -/

namespace Sys2Proof.Machine

/-! ### Accesses above the register window -/

/-- The buffers' windows lie above the register window (20_memory.md R61). -/
theorem isBufferByte_ge {p : Params} {a : Nat} (h : isBufferByte p a = true) : 0x1000 ≤ a := by
  obtain ⟨b, i, -, rfl, -⟩ := isBufferByte_region h
  cases b <;> simp only [Buf.base] <;> omega

/-- An allowed access that touches a buffer byte is none of a register. -/
theorem accessAllowed_above_registers {p : Params} {width i : Nat} {addr : BitVec 16}
    (hallowed : accessAllowed width addr = true) (hi : i < width) (hbuf : isBufferByte p (addr.toNat + i) = true) :
    ¬ addr.toNat < 0x40 := fun hlow => by
  have hwidth := accessAllowed_register hallowed hlow
  have hge := isBufferByte_ge hbuf
  omega

/-- An allowed access is of one to four bytes (20_memory.md R64). -/
theorem accessAllowed_width {width : Nat} {addr : BitVec 16} (h : accessAllowed width addr = true) :
    0 < width ∧ width ≤ 4 := by
  unfold accessAllowed at h
  split at h <;> have hwidth := of_decide_eq_true h <;> omega

theorem hostAccess_load_above (s : State) {width : Nat} {addr : BitVec 16}
    (hallowed : accessAllowed width addr = true) (hhigh : ¬ addr.toNat < 0x40) :
    hostAccess s (.load width addr) = .next (loadBytes s width addr.toNat) := by
  simp only [hostAccess, hallowed, hhigh, if_true, if_false]

theorem hostAccess_store_above (s : State) {width : Nat} {addr : BitVec 16} (v : Word)
    (hallowed : accessAllowed width addr = true) (hhigh : ¬ addr.toNat < 0x40) :
    hostAccess s (.store width addr v) = storeBuffer s width addr.toNat v := by
  have hcmd : addr.toNat ≠ 0 := by omega
  simp only [hostAccess, hallowed, hhigh, hcmd, if_true, if_false]

theorem storeBuffer_idle {s : State} (hb : s.busy = false) (width a : Nat) (v : Word) :
    storeBuffer s width a v = .next { s with mem := storeRange s.params s.mem a (storeBytes width v) } := by
  simp [storeBuffer, hb]

theorem storeBuffer_race {s : State} {width a i : Nat} (v : Word) (hb : s.busy = true) (hi : i < width)
    (hbuf : isBufferByte s.params (a + i) = true) : storeBuffer s width a v = .fault .hostRace := by
  have htouches : touchesBuffer s.params width a = true :=
    List.any_eq_true.mpr ⟨i, List.mem_range.mpr hi, hbuf⟩
  simp [storeBuffer, hb, htouches]

/-- Settles O53: an allowed access to a buffer byte lies above the registers, where a store while BUSY races. -/
theorem bufferStoreWhileBusyRaces : Obligations.BufferStoreWhileBusyRaces := by
  intro s width i addr v hb hallowed hi hbuf
  have hhigh := accessAllowed_above_registers hallowed hi hbuf
  rw [hostAccess_store_above s v hallowed hhigh, storeBuffer_race v hb hi hbuf]

/-! ### Little-endian words -/

/-- Byte `i` of a store is bits 8i+7 to 8i of its value (20_memory.md R66). -/
@[simp] theorem storeBytes_getElem {width i : Nat} (v : Word) (h : i < (storeBytes width v).length) :
    (storeBytes width v)[i] = v.extractLsb' (8 * i) 8 := by
  simp [storeBytes]

theorem littleEndian_cons (b : Byte) (bs : List Byte) :
    littleEndian (b :: bs) = (littleEndian bs <<< 8) ||| b.setWidth 32 := rfl

/-- The value of up to four bytes in base 256, the lowest-addressed byte the least significant. -/
theorem littleEndian_toNat {bs : List Byte} (h : bs.length ≤ 4) :
    (littleEndian bs).toNat = Nat.ofDigits 256 (bs.map BitVec.toNat) := by
  induction bs with
  | nil => rfl
  | cons b bs ih =>
    rw [List.length_cons] at h
    have htail : (littleEndian bs).toNat < 2 ^ 24 := by
      rw [ih (by omega)]
      calc Nat.ofDigits 256 (bs.map BitVec.toNat) < 256 ^ (bs.map BitVec.toNat).length :=
            Nat.ofDigits_lt_base_pow_length (by omega) fun x hx => by
              obtain ⟨c, -, rfl⟩ := List.mem_map.mp hx
              exact c.isLt
        _ ≤ 256 ^ 3 := Nat.pow_le_pow_right (by omega) (by rw [List.length_map]; omega)
        _ = 2 ^ 24 := by norm_num
    have hshift : (littleEndian bs).toNat <<< 8 % 2 ^ 32 = (littleEndian bs).toNat <<< 8 :=
      Nat.mod_eq_of_lt (by rw [Nat.shiftLeft_eq]; omega)
    have hbyte : b.toNat % 2 ^ 32 = b.toNat := Nat.mod_eq_of_lt (by omega)
    rw [littleEndian_cons, BitVec.toNat_or, BitVec.toNat_shiftLeft, BitVec.toNat_setWidth, hshift, hbyte,
      ← Nat.shiftLeft_add_eq_or_of_lt b.isLt, Nat.shiftLeft_eq, ih (by omega), List.map_cons, Nat.ofDigits_cons]
    omega

/-- The same value as a sum over the indices. -/
theorem ofDigits_eq_sum_range (bs : List Byte) :
    Nat.ofDigits 256 (bs.map BitVec.toNat) =
      ((List.range bs.length).map (fun i => (bs.getD i 0).toNat * 2 ^ (8 * i))).sum := by
  rw [Nat.ofDigits_eq_sum_mapIdx]
  congr 1
  refine List.ext_getElem (by simp) fun i h _ => ?_
  have hi : i < bs.length := by simpa using h
  simp [hi, pow_mul]

/-! ### Buffer bytes -/

/-- An idle load sees the value a buffer byte holds (20_memory.md R63). -/
theorem hostByte_of_read {s : State} {a : Nat} {v : Byte} (hb : s.busy = false)
    (hbuf : isBufferByte s.params a = true) (hv : Memory.read s.mem a = some v) : hostByte s a = v := by
  obtain ⟨b, i, hr, rfl, -⟩ := isBufferByte_region hbuf
  have hbyte : s.bufByte b i = some v := hv
  simp only [hostByte, hr, hb, hbyte]

/-- A load of buffer bytes that hold values returns their little-endian value (20_memory.md R66). -/
theorem loadBytes_of_read {s : State} {a : Nat} {bs : List Byte} (hb : s.busy = false)
    (hbuf : ∀ i, i < bs.length → isBufferByte s.params (a + i) = true)
    (hread : ∀ i, ∀ h : i < bs.length, Memory.read s.mem (a + i) = some bs[i]) :
    loadBytes s bs.length a = { s with hostData := littleEndian bs } := by
  have hbytes : (List.range bs.length).map (fun i => hostByte s (a + i)) = bs := by
    refine List.ext_getElem (by simp) fun i _ h => ?_
    simp [hostByte_of_read hb (hbuf i h) (hread i h)]
  rw [loadBytes, hbytes]

/-- Settles O48: while idle a store is `storeRange` of the value's bytes, and a load is the value of the bytes read. -/
theorem littleEndianStoreLoad : Obligations.LittleEndianStoreLoad := by
  intro s width addr hb hallowed hbuf
  obtain ⟨hpos, hle⟩ := accessAllowed_width hallowed
  have hhigh := accessAllowed_above_registers hallowed hpos (hbuf 0 hpos)
  refine ⟨fun v => ⟨_, (hostAccess_store_above s v hallowed hhigh).trans (storeBuffer_idle hb _ _ _), rfl, ?_, ?_⟩,
    fun bs hlen hread => ?_⟩
  · intro i hi
    rw [read_storeRange_inside _ _ _ _ _ (by simpa using hi), if_pos (hbuf i hi), storeBytes_getElem]
  · intro a ha
    exact read_storeRange_outside _ _ _ _ _ (by simpa using ha)
  · subst hlen
    refine ⟨_, (hostAccess_load_above s hallowed hhigh).trans
      (congrArg Host.Outcome.next (loadBytes_of_read hb hbuf hread)), rfl, ?_⟩
    rw [littleEndian_toNat hle, ofDigits_eq_sum_range]

/-! ### Loads -/

theorem hostAccess_load_allowed {s t : State} {width : Nat} {addr : BitVec 16}
    (ht : hostAccess s (.load width addr) = .next t) : accessAllowed width addr = true := by
  by_contra hno
  simp [hostAccess, hno] at ht

/-- A load changes only what the host sees (20_memory.md R65). -/
theorem hostAccess_load_frame {s t : State} {width : Nat} {addr : BitVec 16}
    (ht : hostAccess s (.load width addr) = .next t) : t = { s with hostData := t.hostData, draws := t.draws } := by
  rcases hostAccess_cases ht with ⟨_, _, -, he⟩ | ⟨_, _, _, ha, -⟩ | ⟨_, _, _, ha, -⟩ | ⟨_, _, _, ha, -⟩
  · exact he
  · cases ha
  · cases ha
  · cases ha

/-- A register whose reads while BUSY repeat is loaded without a fresh draw (20_memory.md R65, R74). -/
theorem loadRegister_busy {s : State} {offset : Nat} (hb : s.busy = true) (h : changesWhileBusy offset = false) :
    loadRegister s offset = { s with hostData := busyRegisterWord s offset } := by
  simp [loadRegister, hb, h]

/-- No register shows what the last load returned. -/
theorem registerWord_hostData (s : State) (d : Word) (offset : Nat) :
    registerWord { s with hostData := d } offset = registerWord s offset := by
  unfold registerWord
  rfl

theorem busyRegisterWord_hostData (s : State) (d : Word) (offset : Nat) :
    busyRegisterWord { s with hostData := d } offset = busyRegisterWord s offset := rfl

/-- A register whose reads repeat is loaded alike whatever the last load returned. -/
theorem loadRegister_repeats {s : State} {offset : Nat} (h : s.busy = false ∨ changesWhileBusy offset = false) :
    ∃ w, ∀ d, loadRegister { s with hostData := d } offset = { s with hostData := w } := by
  by_cases hb : s.busy = false
  · refine ⟨registerWord s offset, fun d => ?_⟩
    rw [loadRegister_idle (by exact hb), registerWord_hostData]
  · refine ⟨busyRegisterWord s offset, fun d => ?_⟩
    rw [loadRegister_busy (by simpa using hb) (h.resolve_left hb), busyRegisterWord_hostData]

/-- A load that is not of ELAPSED or PHASE while BUSY returns a word that the state without `hostData` determines. -/
theorem hostAccess_load_repeats {s : State} {width : Nat} {addr : BitVec 16}
    (hallowed : accessAllowed width addr = true) (h : s.busy = false ∨ changesWhileBusy addr.toNat = false) :
    ∃ w, ∀ d, hostAccess { s with hostData := d } (.load width addr) = .next { s with hostData := w } := by
  by_cases hlow : addr.toNat < 0x40
  · obtain ⟨w, hw⟩ := loadRegister_repeats h
    refine ⟨w, fun d => ?_⟩
    simp only [hostAccess, hallowed, hlow, if_true, hw d]
  · exact ⟨(loadBytes s width addr.toNat).hostData, fun d => hostAccess_load_above _ hallowed hlow⟩

/-- Settles O54: both loads are made in `s` but for `hostData`, so they return the same word. -/
theorem loadsHaveNoSideEffect : Obligations.LoadsHaveNoSideEffect := by
  intro s t u width addr ht hu
  refine ⟨hostAccess_load_frame ht, fun hfixed => ?_⟩
  have hrepeat : s.busy = false ∨ changesWhileBusy addr.toNat = false :=
    hfixed.imp_right fun ⟨h34, h38⟩ => by simp [changesWhileBusy, h34, h38]
  obtain ⟨w, hw⟩ := hostAccess_load_repeats (hostAccess_load_allowed ht) hrepeat
  obtain rfl : { s with hostData := w } = t := Host.Outcome.next.inj ((hw s.hostData).symm.trans ht)
  obtain rfl : { s with hostData := w } = u := Host.Outcome.next.inj ((hw w).symm.trans hu)
  exact ⟨rfl, rfl⟩

end Sys2Proof.Machine
end

section
/-! STATUS while a captured command is about to run (20_memory.md R74). -/

namespace Sys2Proof.Machine

theorem hostAccess_load_status (s : State) :
    hostAccess s (.load 4 4) = .next { s with hostData := statusWord s } := by
  rw [hostAccess_load_register s (by decide) (by decide)]
  exact congrArg Host.Outcome.next (loadRegister_fixed s (offset := 4) rfl rfl)

/-- The fields of STATUS at their bits, MSGEND and NAK as they are shown (10_state.md R22, 20_memory.md R74). -/
theorem statusWord_toNat_shown (s : State) :
    (statusWord s).toNat = s.err.code.toNat + 8 * s.busy.toNat + 16 * (s.msgend && !startingDecode s).toNat +
      32 * (s.nak && !startingRxack s).toNat := by
  simp only [statusWord, toNat_append_eq_add, BitVec.toNat_ofBool, BitVec.ofNat_eq_ofNat, BitVec.toNat_ofNat]
  omega

/-- The captured word clears MSGEND exactly if it is a DECODE that is not refused (41_codec.md R150). -/
theorem startingDecode_iff {s : State} {w : Word} (hw : s.cmd = some w) :
    startingDecode s = true ↔ ∃ n : Half, decode w = .ok (.decode n) ∧ n.toNat ≤ s.params.bufBytes := by
  simp only [startingDecode, hw]
  split
  next n hd => simp [hd]
  next hno =>
    exact ⟨nofun, fun ⟨n, hd, _⟩ => absurd hd (hno n)⟩

/-- The captured word clears NAK exactly if it is an RXACK that neither is refused nor faults (44_ack.md R231). -/
theorem startingRxack_iff {s : State} {w : Word} (hw : s.cmd = some w) :
    startingRxack s = true ↔ decode w = .ok .rxack ∧ s.gen ≠ .g1 ∧ s.lastck ≠ none := by
  simp only [startingRxack, hw]
  split
  next hd => simp [hd, Option.isSome_iff_ne_none]
  next hno =>
    exact ⟨nofun, fun ⟨hd, _⟩ => absurd hd hno⟩

/-- Settles O52: the flag a captured command clears shows 0, and one captured word clears at most one flag. -/
theorem statusWhileStarting : Obligations.StatusWhileStarting := by
  intro s w hb hw
  have hshown := statusWord_toNat_shown s
  simp only [hb, Bool.toNat_true] at hshown
  refine ⟨_, hostAccess_load_status s, rfl, fun n hd hn => ?_, fun hd hgen hck => ?_, fun hother => ?_⟩
  · have hdecode : startingDecode s = true := (startingDecode_iff hw).mpr ⟨n, hd, hn⟩
    have hrxack : startingRxack s = false := by
      simp [Bool.eq_false_iff, startingRxack_iff hw, hd]
    simpa [hdecode, hrxack] using hshown
  · have hdecode : startingDecode s = false := by
      simp [Bool.eq_false_iff, startingDecode_iff hw, hd]
    have hrxack : startingRxack s = true := (startingRxack_iff hw).mpr ⟨hd, hgen, hck⟩
    simpa [hdecode, hrxack] using hshown
  · have hflags : startingDecode s = false ∧ startingRxack s = false := by
      simp only [Bool.eq_false_iff, Ne, startingDecode_iff hw, startingRxack_iff hw]
      rcases hother with ⟨e, hd⟩ | ⟨n, hd, hlong⟩ | ⟨hd, hstops⟩ | ⟨i, hd, hdecode, hrxack⟩
      · simp [hd]
      · simpa [hd] using hlong
      · simp only [hd]
        exact ⟨nofun, fun ⟨_, hgen, hck⟩ => hstops.elim hgen hck⟩
      · simp [hd, hdecode, hrxack]
    simpa [hflags] using hshown

end Sys2Proof.Machine
end

section
/-! The fields of a received frame (30_encoding.md R107). -/

namespace Sys2Proof.Machine

/-- The first byte on the wire is the low one (20_memory.md R67). -/
theorem wire16_toNat (x y : Byte) : (wire16 x y).toNat = x.toNat + 256 * y.toNat := by
  rw [wire16_eq, toNat_append_eq_add]
  omega

/-- Settles O14: a gen-1 field is its byte, a field of the later generations is `wire16` of its two bytes. -/
theorem fieldAssembly : Obligations.FieldAssembly := by
  intro x y more
  have hbyte : (x.setWidth 16).toNat = x.toNat := BitVec.toNat_setWidth_of_le (by decide)
  exact ⟨hbyte, wire16_toNat x y, wire16_toNat x y, wire16_toNat x y⟩

end Sys2Proof.Machine
end

section
/-! The writers of the buffers (20_memory.md R62). -/

namespace Sys2Proof.Machine

/-- A host store that changes a byte writes it, and only buffer bytes are written (20_memory.md R61, R63). -/
theorem storeRange_changes {p : Params} {m : Memory} {a c : Nat} {bs : List Byte}
    (h : Memory.read (storeRange p m a bs) c ≠ Memory.read m c) :
    a ≤ c ∧ c < a + bs.length ∧ isBufferByte p c = true := by
  have hin : a ≤ c ∧ c < a + bs.length := by
    by_contra hout
    exact h (read_storeRange_outside p m a c bs hout)
  obtain ⟨k, rfl⟩ := Nat.exists_eq_add_of_le hin.1
  refine ⟨hin.1, hin.2, ?_⟩
  by_contra hno
  rw [read_storeRange_inside p m a k bs (by omega), if_neg hno] at h
  exact h rfl

/-- A host access that changes a byte is a store of an idle FCB to that buffer byte. -/
theorem hostAccess_changes {s t : State} {acc : Access} {a : Nat} (ht : hostAccess s acc = .next t)
    (h : Memory.read t.mem a ≠ Memory.read s.mem a) :
    ∃ width addr v, acc = .store width addr v ∧ addr.toNat ≤ a ∧ a < addr.toNat + width ∧
      isBufferByte s.params a = true ∧ s.busy = false := by
  rcases hostAccess_cases ht with ⟨_, _, -, he⟩ | ⟨_, _, _, -, -, -, rfl⟩ | ⟨_, _, _, -, rfl⟩ |
    ⟨width, addr, v, rfl, -, -, hidle, rfl⟩
  · rw [he] at h; exact absurd rfl h
  · exact absurd rfl h
  · exact absurd rfl h
  · obtain ⟨hle, hlt, hbuf⟩ := storeRange_changes h
    rw [storeBytes_length] at hlt
    refine ⟨width, addr, v, rfl, hle, hlt, hbuf, hidle.resolve_right fun huntouched => ?_⟩
    have hmem := storeRange_untouched (m := s.mem) (bs := storeBytes width v)
      (by simpa using touchesBuffer_eq_false.mp huntouched)
    exact h (congrArg (fun m => Memory.read m a) hmem)

/-- ENCODE writes only its frame (41_codec.md R141). -/
theorem execEncode_changes {size : Half} {s t : State} {a : Nat} (ht : execEncode size s = .next t)
    (h : Memory.read t.mem a ≠ Memory.read s.mem a) :
    0x2000 ≤ a ∧ a < 0x2000 + frameLen s.gen size.toNat := by
  rcases execEncode_cases size s with ⟨-, he⟩ | ⟨-, -, he⟩ | ⟨body, -, hread, he⟩ <;> cases he.symm.trans ht
  · exact absurd rfl h
  · by_contra hout
    have hlen := frameBytes_length s.params s.gen size body ((bufRange_eq_some ..).mp hread).1
    exact h (read_putBuf_outside s .frame 0 a _ (by simpa [hlen, Buf.base] using hout))

/-- Where a SEEK or BODY phase begins or goes on, only RXBUF changes. -/
theorem receiving_changes {s t : State} {a : Nat} (hinv : s.Inv) (ht : step s = .next t)
    (hmove : interrupts (nextMove s) = false)
    (hcause : begins s .seek ∨ begins s .rdbody ∨ begins s .recv ∨ running s [.seek, .body])
    (h : Memory.read t.mem a ≠ Memory.read s.mem a) : 0x3000 ≤ a ∧ a < 0x3000 + s.params.bufBytes := by
  obtain ⟨hmem, -, -, hfits, -⟩ := receiveFrame s t hinv ht hmove hcause
  have hin : 0x3000 ≤ a ∧ a < 0x3000 + t.rxlen.toNat := by
    by_contra hout
    exact h (hmem a hout)
  omega

/-- Settles O44: of the five cases of a step, only the host's store, ENCODE and the SEEK and BODY phases reach a
buffer. -/
theorem buffersWrittenOnlyByTheirWriters : Obligations.BuffersWrittenOnlyByTheirWriters := by
  intro s t a hinv ht hreset h
  have hreceives := fun hmove hcause => And.intro hcause (receiving_changes hinv ht hmove hcause h)
  have hkept : ∀ {P : Prop}, t.mem = s.mem → P := fun hmem => absurd (by rw [hmem]) h
  cases step_stepCase ht hreset with
  | unseen is drawn he => exact hkept (congrArg State.mem he :)
  | host acc is drawn hmove hacc =>
    obtain ⟨width, addr, v, rfl, hbyte⟩ := hostAccess_changes hacc h
    exact .inl ⟨width, addr, v, hmove, hbyte⟩
  | illegal w is drawn hmove hw he => exact hkept (congrArg State.mem he :)
  | begins i is drawn hb hexec =>
    have hframe := exec_frame (begins_starting hinv hb is drawn) hexec
    have hmove : interrupts (nextMove s) = false := by rw [hb.1]; rfl
    cases i with
    | encode size => exact .inr (.inl ⟨size, hb, (execEncode_changes hexec h :)⟩)
    | seek => exact .inr <| .inr <| hreceives hmove (.inl hb)
    | rdbody => exact .inr <| .inr <| hreceives hmove (.inr (.inl hb))
    | recv => exact .inr <| .inr <| hreceives hmove (.inr (.inr (.inl hb)))
    | _ => exact hkept (congrArg State.mem hframe :)
  | runs r is later drawn hmove hr hrun =>
    rcases running_phase hinv hr with ⟨hack, -⟩ | ⟨-, hrunning⟩
    · have hinv' := Inv_env hinv later drawn s.draws s.hostData s.history
      exact hkept (congrArg State.mem (runRx_receivesAck is hinv' hack hrun).1.frame :)
    · exact .inr <| .inr <| hreceives hmove (.inr (.inr (.inr hrunning)))

end Sys2Proof.Machine
end

section
/-! The encodings (30_encoding.md R90 to R94): the decoder and the encoder are inverse on the legal words, every other
word is illegal, and the frame lengths (R104). -/

namespace Sys2Proof.Machine

/-! ### What a word decodes to -/

theorem noOperand_eq_ok {arg : Arg} {i j : Instr} (h : noOperand arg i = .ok j) : j = i ∧ arg = 0 := by
  unfold noOperand at h
  split at h
  · cases h; exact ⟨rfl, ‹_›⟩
  · cases h

/-- An opcode's operands put together hold the opcode and all of ARG (30_encoding.md R91, R92). -/
theorem op_arg_of_assemble {op : Op} {arg : Arg} {i : Instr} (h : assemble op arg = .ok i) :
    i.op = op ∧ i.arg = arg := by
  cases op with
  | setgen => cases h; exact ⟨rfl, rfl⟩
  | settmo => cases h; exact ⟨rfl, rfl⟩
  | setck => cases h; exact ⟨rfl, rfl⟩
  | cksum =>
    simp only [assemble] at h
    split at h <;> cases h
    exact ⟨rfl, cksumArg_of_fields ‹_›⟩
  | encode =>
    simp only [assemble] at h
    split at h <;> cases h
    exact ⟨rfl, halfArg_of_fields ‹_›⟩
  | decode =>
    simp only [assemble] at h
    split at h <;> cases h
    exact ⟨rfl, halfArg_of_fields ‹_›⟩
  | _ => obtain ⟨rfl, rfl⟩ := noOperand_eq_ok h; exact ⟨rfl, rfl⟩

/-- A word that decodes is the encoding of what it decodes to (30_encoding.md R90). -/
theorem encode_of_decode {w : Word} {i : Instr} (h : decode w = .ok i) : encode i = w := by
  unfold decode at h
  split at h
  · cases h
  · rename_i op hop
    obtain ⟨hiop, hiarg⟩ := op_arg_of_assemble h
    rw [encode, hiop, hiarg, ← opOfCode_eq_some hop, append_fields]

/-! ### The verdict on a word -/

/-- A word is legal exactly when it is the encoding of a legal command, and then it is that command. -/
theorem classify_eq_ok {w : Word} {i : Instr} : classify w = .ok i ↔ i.wellFormed = true ∧ encode i = w := by
  constructor
  · intro h
    unfold classify at h
    split at h
    · cases h
    · rename_i j hj
      split at h <;> cases h
      exact ⟨‹_›, encode_of_decode hj⟩
  · rintro ⟨hwf, rfl⟩
    simp only [classify, decode_encode_eq, hwf, if_true]

/-- Settles O1: `decode_encode_eq` for the decoder, and R94's verdict is the decoder's on a legal command. -/
theorem decodeEncodeRoundTrip : Obligations.DecodeEncodeRoundTrip :=
  fun i hwf => ⟨decode_encode_eq i, classify_eq_ok.mpr ⟨hwf, rfl⟩⟩

theorem mem_assignedOpcodes {c : Byte} : c ∈ assignedOpcodes ↔ ∃ op : Op, c = op.code := by
  constructor
  · intro h
    simp only [assignedOpcodes, List.mem_cons, List.not_mem_nil, or_false] at h
    rcases h with h | h | h | h | h | h | h | h | h | h | h
    exacts [⟨.nop, h⟩, ⟨.setgen, h⟩, ⟨.settmo, h⟩, ⟨.setck, h⟩, ⟨.cksum, h⟩, ⟨.encode, h⟩, ⟨.decode, h⟩,
      ⟨.seek, h⟩, ⟨.rdbody, h⟩, ⟨.recv, h⟩, ⟨.rxack, h⟩]
  · rintro ⟨op, rfl⟩
    cases op <;> decide

/-- A word with an unassigned opcode is illegal (30_encoding.md R94). -/
theorem classify_unassigned {w : Word} (h : opField w ∉ assignedOpcodes) :
    classify w = .error (.unassignedOpcode (opField w)) := by
  have hnone : opOfCode (opField w) = none := by
    cases hop : opOfCode (opField w) with
    | none => rfl
    | some op => exact absurd (mem_assignedOpcodes.mpr ⟨op, opOfCode_eq_some hop⟩) h
  simp only [classify, decode, hnone]

/-- ARG makes a word with this opcode illegal: a reserved bit is set, or the operand is out of range
(30_encoding.md R93). -/
def badArg : Op → Arg → Prop
  | .nop, arg => arg ≠ 0
  | .setgen, arg => ¬ (1 ≤ arg.toNat ∧ arg.toNat ≤ 3)
  | .settmo, _ => False
  | .setck, arg => 1 < arg.toNat
  | .cksum, arg => arg.extractLsb' 17 7 ≠ 0
  | .encode, arg => arg.extractLsb' 16 8 ≠ 0
  | .decode, arg => arg.extractLsb' 16 8 ≠ 0
  | .seek, arg => arg ≠ 0
  | .rdbody, arg => arg ≠ 0
  | .recv, arg => arg ≠ 0
  | .rxack, arg => arg ≠ 0

/-- With an assigned opcode, R93's list comes down to that opcode's own condition on ARG. -/
theorem badWord_iff_badArg {w : Word} {op : Op} (h : opField w = op.code) :
    badWord w ↔ badArg op (argField w) := by
  unfold badWord
  rw [h]
  cases op <;> simp [Op.code, assignedOpcodes, badArg]

/-- The encoder sets no reserved bit, and a legal operand is in range. -/
theorem not_badArg_of_wellFormed {i : Instr} (hwf : i.wellFormed = true) : ¬ badArg i.op i.arg := by
  cases i with
  | setgen gen => exact fun h => h (of_decide_eq_true hwf)
  | setck en => exact Nat.not_lt.mpr (of_decide_eq_true hwf)
  | cksum sel n => exact fun h => h (cksumArg_fields sel n).2.2
  | encode size => exact fun h => h (halfArg_fields size).2
  | decode n => exact fun h => h (halfArg_fields n).2
  | settmo ms => exact id
  | _ => exact fun h => h rfl

/-- Every other ARG is that of a legal command. -/
theorem exists_wellFormed_of_not_badArg {op : Op} {arg : Arg} (h : ¬ badArg op arg) :
    ∃ i : Instr, i.wellFormed = true ∧ i.op = op ∧ i.arg = arg := by
  cases op with
  | setgen => exact ⟨.setgen arg, decide_eq_true (not_not.mp h), rfl, rfl⟩
  | setck => exact ⟨.setck arg, decide_eq_true (Nat.not_lt.mp h), rfl, rfl⟩
  | settmo => exact ⟨.settmo arg, rfl, rfl, rfl⟩
  | cksum => exact ⟨.cksum (argSel arg) (argHalf arg), rfl, rfl, cksumArg_of_fields (not_not.mp h)⟩
  | encode => exact ⟨.encode (argHalf arg), rfl, rfl, halfArg_of_fields (not_not.mp h)⟩
  | decode => exact ⟨.decode (argHalf arg), rfl, rfl, halfArg_of_fields (not_not.mp h)⟩
  | nop => exact ⟨.nop, rfl, rfl, (not_not.mp h).symm⟩
  | seek => exact ⟨.seek, rfl, rfl, (not_not.mp h).symm⟩
  | rdbody => exact ⟨.rdbody, rfl, rfl, (not_not.mp h).symm⟩
  | recv => exact ⟨.recv, rfl, rfl, (not_not.mp h).symm⟩
  | rxack => exact ⟨.rxack, rfl, rfl, (not_not.mp h).symm⟩

/-- R93 lists exactly the words that encode no legal command. -/
theorem badWord_iff_not_encoded {w : Word} : badWord w ↔ ¬ ∃ i : Instr, i.wellFormed = true ∧ encode i = w := by
  constructor
  · rintro hbad ⟨i, hwf, rfl⟩
    rw [encode, badWord_iff_badArg (opField_append i.arg i.op.code), argField_append] at hbad
    exact not_badArg_of_wellFormed hwf hbad
  · intro hno
    by_contra hgood
    obtain ⟨op, hop⟩ := mem_assignedOpcodes.mp (by_contra fun h => hgood (.inl h))
    rw [badWord_iff_badArg hop] at hgood
    obtain ⟨i, hwf, hiop, hiarg⟩ := exists_wellFormed_of_not_badArg hgood
    exact hno ⟨i, hwf, by rw [encode, hiop, hiarg, ← hop, append_fields]⟩

/-- A word is illegal exactly when it encodes no legal command. -/
theorem classify_isError_iff {w : Word} :
    (∃ e, classify w = .error e) ↔ ¬ ∃ i : Instr, i.wellFormed = true ∧ encode i = w := by
  simp only [← classify_eq_ok]
  cases classify w <;> simp

/-- Settles O2: by whether the word is the encoding of a legal command, which by the round trip is only one. -/
theorem everyWordIsOneCommandOrIllegal : Obligations.EveryWordIsOneCommandOrIllegal := by
  refine fun w => ⟨?_, classify_isError_iff.trans badWord_iff_not_encoded.symm, classify_unassigned⟩
  by_cases hlegal : ∃ i : Instr, i.wellFormed = true ∧ encode i = w
  · obtain ⟨i, hwf, rfl⟩ := hlegal
    refine .inl ⟨i, hwf, rfl, classify_eq_ok.mpr ⟨hwf, rfl⟩, fun j _ hj => ?_⟩
    exact Except.ok.inj ((decode_encode_eq j).symm.trans (hj ▸ decode_encode_eq i))
  · exact .inr ⟨classify_isError_iff.mpr hlegal, fun j hwf hj => hlegal ⟨j, hwf, hj⟩⟩

/-- Settles O3: each word is the encoder's word of the command it is said to name. -/
theorem specWordsDecode : Obligations.SpecWordsDecode :=
  ⟨decode_encode_eq .nop, decode_encode_eq (.setgen 2), decode_encode_eq (.settmo 500), decode_encode_eq (.setck 1),
   decode_encode_eq (.cksum 0 5), decode_encode_eq (.cksum 1 8), decode_encode_eq (.encode 3),
   decode_encode_eq (.decode 8), decode_encode_eq .seek, decode_encode_eq .rdbody, decode_encode_eq .recv,
   decode_encode_eq .rxack⟩

/-! ### Frame lengths -/

/-- `ceil16` gives the least multiple of 16 that is not below its argument (00_scope.md R11). -/
theorem ceil16_bounds (x : Nat) : x ≤ ceil16 x ∧ ceil16 x < x + 16 ∧ ceil16 x % 16 = 0 := by
  unfold ceil16
  omega

/-- Settles O11: the tables of R8 put into R104's formula. -/
theorem frameLengths : Obligations.FrameLengths := by
  intro size
  refine ⟨rfl, rfl, rfl, fun g => frameLen_eq g size, ?_, ?_, ?_, ceil16_bounds size⟩
  · simp only [frameLen_eq, sizeLen, bodyLen, ckLen]; omega
  · simp only [frameLen_eq, sizeLen, bodyLen, ckLen]; omega
  · simp only [frameLen_eq, sizeLen, bodyLen, ckLen, ivLen]; omega

end Sys2Proof.Machine
end

section
/-! No step is refused (30_encoding.md R94, 60_exceptions.md R270). -/

namespace Sys2Proof.Machine

theorem execDecode_not_refused (n : Half) (s : State) (e : Refusal) : execDecode n s ≠ .refused e := by
  have hbody : ∀ (size : Half) (u : State), decodeBody n size u ≠ .refused e := fun size u => by
    unfold decodeBody
    split
    · nofun
    · split
      · nofun
      · split <;> nofun
  unfold execDecode
  split
  · nofun
  · split
    · nofun
    · split
      · nofun
      · exact hbody _ _

/-- Every command has its meaning. -/
theorem exec_not_refused (i : Instr) (s : State) (e : Refusal) : exec i s ≠ .refused e := by
  intro h
  cases i with
  | nop => cases h
  | setgen gen => rcases execSetgen_cases gen s with ⟨g, -, he⟩ | ⟨-, he⟩ <;> cases he.symm.trans h
  | settmo ms => cases h
  | setck en => rcases execSetck_cases en s with ⟨b, he⟩ | he <;> cases he.symm.trans h
  | cksum sel n =>
    rcases execCksum_cases sel n s with ⟨-, he⟩ | ⟨-, -, he⟩ | ⟨bs, -, -, he⟩ <;> cases he.symm.trans h
  | encode size =>
    rcases execEncode_cases size s with ⟨-, he⟩ | ⟨-, -, he⟩ | ⟨body, -, -, he⟩ <;> cases he.symm.trans h
  | decode n => exact execDecode_not_refused n s e h
  | seek => exact runRx_not_refused _ _ e h
  | rdbody => exact runRx_not_refused _ _ e h
  | recv => exact runRx_not_refused _ _ e h
  | rxack =>
    rcases execRxack_cases s with ⟨-, he⟩ | ⟨-, -, he⟩ | ⟨-, -, he⟩
    · cases he.symm.trans h
    · cases he.symm.trans h
    · exact runRx_not_refused _ _ e (he.symm.trans h)

theorem hostAccess_not_refused (a : Access) (s : State) (e : Refusal) : hostAccess s a ≠ .refused e := by
  cases a with
  | load width addr =>
    simp only [hostAccess]
    split
    · split <;> nofun
    · nofun
  | store width addr v =>
    simp only [hostAccess]
    split
    · split
      · nofun
      · split
        · nofun
        · unfold storeBuffer
          split <;> nofun
    · nofun

theorem portOffer_not_refused (s : State) (i : Input) (rest : List Input) (e : Refusal) :
    portOffer s i rest ≠ .refused e := by
  rcases portOffer_cases s i rest with ⟨-, he⟩ | ⟨r, -, he⟩ <;> rw [he]
  · nofun
  · exact runRx_not_refused _ _ e

theorem fcbTurn_not_refused (s : State) (rest : List Input) (e : Refusal) : fcbTurn s rest ≠ .refused e := by
  rcases fcbTurn_cases s rest with ⟨-, he⟩ | ⟨w, -, -, -, he⟩ | ⟨w, i, -, -, he⟩ <;> rw [he]
  · exact portOffer_not_refused _ _ _ e
  · nofun
  · exact exec_not_refused i _ e

theorem react_not_refused (s : State) (i : Input) (rest : List Input) (e : Refusal) :
    react s i rest ≠ .refused e := by
  cases i with
  | fcb => exact fcbTurn_not_refused s rest e
  | host a => exact hostAccess_not_refused a _ e
  | reset => nofun
  | clock t => exact portOffer_not_refused s _ rest e
  | phy answer => exact portOffer_not_refused s _ rest e

/-- Settles O46: a step is the reaction to a move, whether listed or drawn. -/
theorem noStepIsRefused : Obligations.NoStepIsRefused := by
  intro s e
  rcases step_eq_react s with ⟨rest, -, he⟩ | ⟨-, he⟩ <;> rw [he] <;> exact react_not_refused _ _ _ e

end Sys2Proof.Machine
end

section
/-! The checksum (40_checksum.md R120 to R124): its properties, the CKSUM command, and DECODE's check of a frame with
one byte changed. -/

namespace Sys2Proof.Machine

/-! ### Properties of the checksum -/

theorem xor8_perm {as bs : List Byte} (h : as.Perm bs) : xor8 as = xor8 bs := by
  induction h with
  | nil => rfl
  | cons b _ ih => rw [xor8_cons, xor8_cons, ih]
  | swap a b cs => simp only [xor8_cons, ← BitVec.xor_assoc, BitVec.xor_comm a b]
  | trans _ _ ih ih' => exact ih.trans ih'

/-- Any byte can be taken out to the front. -/
theorem xor8_middle (as bs : List Byte) (x : Byte) : xor8 (as ++ x :: bs) = x ^^^ xor8 (as ++ bs) :=
  (xor8_perm List.perm_middle).trans (xor8_cons x (as ++ bs))

theorem xor8_middle_inj {as bs : List Byte} {x y : Byte} :
    xor8 (as ++ x :: bs) = xor8 (as ++ y :: bs) ↔ x = y := by
  rw [xor8_middle, xor8_middle, BitVec.xor_left_inj]

/-- Settles O10: each byte counts as if it stood at the front. -/
theorem checksumProperties : Obligations.ChecksumProperties := by
  refine ⟨fun as bs h => xor8_perm h, fun as bs => ?_, fun as bs x y hxy h => hxy (xor8_middle_inj.mp h),
    fun as bs cs x y m => ?_⟩
  · exact (xor8_middle as bs 0).trans BitVec.zero_xor
  · have hpair : ∀ a b : Byte, xor8 (as ++ a :: bs ++ b :: cs) = (a ^^^ b) ^^^ xor8 (as ++ (bs ++ cs)) := by
      intro a b
      rw [xor8_middle, List.append_assoc, List.cons_append, xor8_middle, ← BitVec.xor_assoc, BitVec.xor_comm b a]
    have hcancel : (x ^^^ m) ^^^ (y ^^^ m) = x ^^^ y := by
      rw [BitVec.xor_comm y m, BitVec.xor_assoc, ← BitVec.xor_assoc m m y, BitVec.xor_self, BitVec.zero_xor]
    rw [hpair, hpair, hcancel]

/-! ### CKSUM -/

theorem xor8_eq_foldr (bs : List Byte) : xor8 bs = bs.foldr (fun b acc => b ^^^ acc) 0 := by
  induction bs with
  | nil => rfl
  | cons b bs ih => rw [xor8_cons, ih, List.foldr_cons]

theorem execCksum_of_holds {s : State} {sel : BitVec 1} {n : Half} {bs : List Byte} (hn : n.toNat ≤ s.params.bufBytes)
    (hlen : bs.length = n.toNat) (h : s.holds (selectBuf sel) 0 bs) :
    execCksum sel n s = .next ({ s with cksum := xor8 bs }.complete .ok) := by
  have hrange : s.bufRange (selectBuf sel) 0 n.toNat = some bs := hlen ▸ bufRange_of_holds h
  rcases execCksum_cases sel n s with ⟨hgt, -⟩ | ⟨-, hnone, -⟩ | ⟨cs, -, hread, he⟩
  · omega
  · cases hnone.symm.trans hrange
  · cases hread.symm.trans hrange
    exact he

theorem execCksum_of_lacks {s : State} {sel : BitVec 1} {n : Half} (hn : n.toNat ≤ s.params.bufBytes)
    (h : s.lacks (selectBuf sel) 0 n.toNat) : execCksum sel n s = .fault .unwritten := by
  have hrange : s.bufRange (selectBuf sel) 0 n.toNat = none := (bufRange_eq_none ..).mpr h
  rcases execCksum_cases sel n s with ⟨hgt, -⟩ | ⟨-, -, he⟩ | ⟨cs, -, hread, -⟩
  · omega
  · exact he
  · cases hread.symm.trans hrange

theorem execCksum_of_oversize {s : State} {n : Half} (sel : BitVec 1) (hn : s.params.bufBytes < n.toNat) :
    execCksum sel n s = .next (s.complete .illegal) := by
  rcases execCksum_cases sel n s with ⟨-, he⟩ | ⟨hle, -⟩ | ⟨bs, hle, -⟩
  · exact he
  · omega
  · omega

/-- A captured word that is no command completes with ILLEGAL (30_encoding.md R93). -/
theorem startCommand_of_error {s : State} {w : Word} {e : Illegal} (h : decode w = .error e) :
    startCommand s w = .next (s.complete .illegal) := by
  simp only [startCommand, h]

/-- A reserved bit of ARG makes a CKSUM word illegal (30_encoding.md R92, R93). -/
theorem decode_cksum_reserved {w : Word} (hop : opField w = 0x10) (h : (argField w).extractLsb' 17 7 ≠ 0) :
    decode w = .error (.reservedBits (argField w)) := by
  rw [decode, hop]
  exact if_neg h

/-- Settles O12: by the three cases of CKSUM and the illegal word, each ending in a completion from an idle phase. -/
theorem cksumResult : Obligations.CksumResult := by
  intro s sel n hp hr
  rw [← complete_of_idle hp hr .illegal]
  refine ⟨fun hn bs hlen h => ?_, fun hn h => execCksum_of_lacks hn h, fun hn => execCksum_of_oversize sel hn,
    fun w hop hres => startCommand_of_error (decode_cksum_reserved hop hres)⟩
  rw [← xor8_eq_foldr]
  exact (execCksum_of_holds hn hlen h).trans
    (congrArg Host.Outcome.next (complete_of_idle (s := { s with cksum := xor8 bs }) hp hr .ok))

/-! ### A frame with one byte changed -/

theorem xor8_set_ne {bs : List Byte} {k : Nat} {y : Byte} (hk : k < bs.length) (hy : bs[k] ≠ y) :
    xor8 (bs.set k y) ≠ xor8 bs := by
  have hsplit : bs = bs.take k ++ bs[k] :: bs.drop (k + 1) := by simp
  rw [List.set_eq_take_append_cons_drop, if_pos hk]
  conv => rhs; rw [hsplit]
  exact fun h => hy (xor8_middle_inj.mp h).symm

theorem setWidth16_inj {c d : Byte} : c.setWidth 16 = d.setWidth 16 ↔ c = d := by
  refine ⟨fun h => ?_, congrArg _⟩
  have hnat := congrArg BitVec.toNat h
  rw [BitVec.toNat_setWidth, BitVec.toNat_setWidth] at hnat
  bv_omega

theorem wire16_inj {x y x' y' : Byte} (h : wire16 x y = wire16 x' y') : x = x' ∧ y = y' := by
  have hnat := congrArg BitVec.toNat h
  rw [wire16_toNat, wire16_toNat] at hnat
  constructor <;> bv_omega

/-- A field of a frame fixes its bytes (30_encoding.md R107). -/
theorem fieldValue_inj {g : Gen} {as bs : List Byte} (ha : as.length = ckLen g) (hb : bs.length = ckLen g)
    (h : fieldValue g as = fieldValue g bs) : as = bs := by
  have htwo : ∀ {cs ds : List Byte}, cs.length = 2 → ds.length = 2 →
      wire16 (cs.getD 0 0) (cs.getD 1 0) = wire16 (ds.getD 0 0) (ds.getD 1 0) → cs = ds := fun hc hd hw => by
    obtain ⟨x, y, rfl⟩ := List.length_eq_two.mp hc
    obtain ⟨x', y', rfl⟩ := List.length_eq_two.mp hd
    obtain ⟨hx, hy⟩ := wire16_inj hw
    exact congrArg₂ (fun a b => [a, b]) hx hy
  cases g with
  | g1 =>
    obtain ⟨x, rfl⟩ := List.length_eq_one_iff.mp ha
    obtain ⟨y, rfl⟩ := List.length_eq_one_iff.mp hb
    exact congrArg (fun c => [c]) (setWidth16_inj.mp h)
  | g2 => exact htwo ha hb h
  | g3 => exact htwo ha hb h

/-- With one byte changed, the body and the trailer of a frame no longer match: a changed body has another checksum, and
a changed trailer another value. -/
theorem trailer_mismatch_of_set (g : Gen) (size : Half) {body : List Byte} {i : Nat} {y : Byte}
    (hi : i < (body ++ trailerBytes g (frameChecksum g size body)).length)
    (hy : (body ++ trailerBytes g (frameChecksum g size body))[i] ≠ y) :
    ∃ body' trailer', (body ++ trailerBytes g (frameChecksum g size body)).set i y = body' ++ trailer' ∧
      body'.length = body.length ∧ trailer'.length = ckLen g ∧
      fieldValue g trailer' ≠ (xor8 (sizeBytes g size ++ body')).setWidth 16 := by
  rcases Nat.lt_or_ge i body.length with hbody | htrailer
  · rw [List.getElem_append_left hbody] at hy
    refine ⟨body.set i y, _, List.set_append_left i y hbody, List.length_set, trailerBytes_length .., ?_⟩
    rw [fieldValue_trailerBytes, Ne, setWidth16_inj, frameChecksum, xor8_append, xor8_append, BitVec.xor_right_inj]
    exact (xor8_set_ne hbody hy).symm
  · rw [List.getElem_append_right htrailer] at hy
    refine ⟨body, _, List.set_append_right i y htrailer, rfl, by rw [List.length_set, trailerBytes_length], ?_⟩
    intro h
    have hsame := fieldValue_inj (by rw [List.length_set, trailerBytes_length]) (trailerBytes_length g _)
      (h.trans (fieldValue_trailerBytes g (frameChecksum g size body)).symm)
    have hlt : i - body.length < (trailerBytes g (frameChecksum g size body)).length := by
      rw [List.length_append] at hi; omega
    exact hy (by rw [← List.getElem_set_self (a := y) (by rwa [List.length_set]), List.getElem_of_eq hsame])

/-- Two lists of one length that differ at index `k` only. -/
theorem eq_set_of_differ_at {as bs : List Byte} {k : Nat} (hlen : bs.length = as.length)
    (hsame : ∀ j, j ≠ k → bs[j]? = as[j]?) (hdiff : bs[k]? ≠ as[k]?) :
    ∃ y, ∃ hk : k < as.length, as[k] ≠ y ∧ bs = as.set k y := by
  have hk : k < as.length := by
    by_contra hout
    exact hdiff (by rw [List.getElem?_eq_none (by omega), List.getElem?_eq_none (by omega)])
  have hkb : k < bs.length := hlen ▸ hk
  refine ⟨bs[k], hk, fun h => hdiff ?_, List.ext_getElem? fun j => ?_⟩
  · rw [List.getElem?_eq_getElem hk, List.getElem?_eq_getElem hkb, h]
  · by_cases hj : j = k
    · rw [hj, List.getElem?_set_self hk, List.getElem?_eq_getElem hkb]
    · rw [hsame j hj, List.getElem?_set_ne (Ne.symm hj)]

/-- A frame is its header, of the start marker and the size field, and then its body and trailer. -/
theorem frameBytes_eq_append (p : Params) (g : Gen) (size : Half) (body : List Byte) :
    frameBytes p g size body =
      (startMarker p g :: sizeBytes g size) ++ (body ++ trailerBytes g (frameChecksum g size body)) := by
  rw [frameBytes, List.cons_append, List.append_assoc]

/-- A frame with one byte after its size field changed has its header intact and a trailer that does not match. -/
theorem frameBytes_changed {p : Params} {g : Gen} {size : Half} {body bad : List Byte} {k : Nat}
    (hk : 1 + sizeLen g ≤ k) (hlen : bad.length = (frameBytes p g size body).length)
    (hsame : ∀ j, j ≠ k → bad[j]? = (frameBytes p g size body)[j]?)
    (hdiff : bad[k]? ≠ (frameBytes p g size body)[k]?) :
    ∃ body' trailer', bad = startMarker p g :: (sizeBytes g size ++ body' ++ trailer') ∧
      body'.length = body.length ∧ trailer'.length = ckLen g ∧
      fieldValue g trailer' ≠ (xor8 (sizeBytes g size ++ body')).setWidth 16 := by
  rw [frameBytes_eq_append] at hlen hsame hdiff
  obtain ⟨y, hkl, hy, rfl⟩ := eq_set_of_differ_at hlen hsame hdiff
  have hheader : (startMarker p g :: sizeBytes g size).length ≤ k := by
    rw [List.length_cons, sizeBytes_length]; omega
  rw [List.getElem_append_right hheader] at hy
  obtain ⟨body', trailer', hset, hrest⟩ := trailer_mismatch_of_set g size _ hy
  refine ⟨body', trailer', ?_, hrest⟩
  rw [List.set_append_right k y hheader, hset, List.cons_append, List.append_assoc]

/-! ### ENCODE's frame and DECODE's check -/

/-- A buffer range holds one list of each length. -/
theorem holds_unique {s : State} {b : Buf} {i : Nat} {as bs : List Byte} (ha : s.holds b i as) (hb : s.holds b i bs)
    (hlen : as.length = bs.length) : as = bs :=
  Option.some.inj ((bufRange_of_holds ha).symm.trans (hlen ▸ bufRange_of_holds hb))

/-- ENCODE of a body that holds values (41_codec.md R141). -/
theorem execEncode_of_holds {s : State} {size : Half} {body : List Byte}
    (hsize : size.toNat ≤ maxPayload s.params s.gen) (hbody : body.length = bodyLen s.gen size.toNat)
    (h : s.holds .tx 0 body) :
    execEncode size s =
      .next ({ s.putBuf .frame 0 (frameBytes s.params s.gen size body) with
                 lastck := some (frameChecksum s.gen size body),
                 frlen := BitVec.ofNat 16 (frameLen s.gen size.toNat) }.complete .ok) := by
  have hrange : s.bufRange .tx 0 (bodyLen s.gen size.toNat) = some body := hbody ▸ bufRange_of_holds h
  rcases execEncode_cases size s with ⟨hgt, -⟩ | ⟨-, hnone, -⟩ | ⟨bs, -, hread, he⟩
  · omega
  · cases hnone.symm.trans hrange
  · cases hread.symm.trans hrange
    exact he

/-- A legal frame length fits FRLEN (10_state.md R34). -/
theorem frlen_toNat {p : Params} (hp : p.Valid) (g : Gen) {size : Nat} (h : size ≤ maxPayload p g) :
    (BitVec.ofNat 16 (frameLen g size)).toNat = frameLen g size := by
  have := frameLen_le_bufBytes hp g h
  have := bufBytes_le hp
  rw [BitVec.toNat_ofNat, Nat.mod_eq_of_lt (by omega)]

/-- FRAMEBUF after ENCODE: FRLEN counts the frame, and what it holds there is the frame. -/
theorem execEncode_frame {s t : State} {size : Half} {body frame : List Byte} (hp : s.params.Valid)
    (hsize : size.toNat ≤ maxPayload s.params s.gen) (hbody : body.length = bodyLen s.gen size.toNat)
    (h : s.holds .tx 0 body) (ht : execEncode size s = .next t) (hlen : frame.length = t.frlen.toNat)
    (hframe : t.holds .frame 0 frame) :
    t.frlen.toNat = frameLen s.gen size.toNat ∧ frame = frameBytes s.params s.gen size body := by
  rw [execEncode_of_holds hsize hbody h] at ht
  cases ht
  have hfrlen := frlen_toNat hp s.gen hsize
  refine ⟨hfrlen, holds_unique hframe (holds_putBuf s .frame 0 (frameBytes s.params s.gen size body)) ?_⟩
  rw [hlen, frameBytes_length _ _ _ _ hbody]
  exact hfrlen

/-- DECODE of a whole frame in bounds comes down to the check of its trailer (41_codec.md R150). -/
theorem execDecode_of_frame {s : State} {n size : Half} {field body trailer : List Byte}
    (hn : n.toNat ≤ s.params.bufBytes) (hsize : size.toNat ≤ maxPayload s.params s.gen)
    (hfit : frameLen s.gen size.toNat ≤ n.toNat) (hfield : field.length = sizeLen s.gen)
    (hvalue : fieldValue s.gen field = size) (hbody : body.length = bodyLen s.gen size.toNat)
    (htrailer : trailer.length = ckLen s.gen) (h : s.holds .rx 1 (field ++ body ++ trailer)) :
    execDecode n s = .next (acceptFrame size (fieldValue s.gen trailer) (field ++ body)
      { s with msgend := false, rxsize := size }) := by
  have hlen : (field ++ body ++ trailer).length = frameLen s.gen size.toNat - 1 := by
    rw [List.length_append, List.length_append, hfield, hbody, htrailer, frameLen_eq]; omega
  have hcovered : (field ++ body ++ trailer).length - ckLen s.gen = (field ++ body).length := by
    rw [List.length_append, htrailer]; omega
  have hread : s.bufRange .rx 1 (sizeLen s.gen) = some field :=
    hfield ▸ bufRange_of_holds (holds_left (holds_left h))
  have hframe : State.bufRange { s with msgend := false, rxsize := size } .rx 1 (frameLen s.gen size.toNat - 1) =
      some (field ++ body ++ trailer) := hlen ▸ bufRange_of_holds h
  have hheader : ¬ n.toNat < 1 + sizeLen s.gen := by rw [frameLen_eq] at hfit; omega
  simp only [execDecode, if_neg (Nat.not_lt.mpr hn), if_neg hheader, hread, hvalue, decodeBody,
    if_neg (Nat.not_lt.mpr hsize), if_neg (Nat.not_lt.mpr hfit), hframe, decodeTrailer, hcovered,
    List.take_left, List.drop_left]

theorem acceptFrame_mismatch {s : State} {t : Half} {covered : List Byte} (size : Half) (hcken : s.cken = true)
    (ht : t ≠ (xor8 covered).setWidth 16) : acceptFrame size t covered s = s.complete .protError := by
  have hno : trailerMatches t (xor8 covered) = false := by
    rw [← Bool.not_eq_true, trailerMatches_iff]
    exact ht
  simp [acceptFrame, hcken, hno]

/-- Settles O18: the changed byte stands in the body or the trailer, so DECODE reads the size field as it was and
finds a trailer that does not match. -/
theorem singleByteErrorDetected : Obligations.SingleByteErrorDetected := by
  intro s t u size body frame bad k hp hsize hbody htx ht hlen hframe hk hbadlen hsame hdiff hparams hgen hcken hrx
  obtain ⟨hfrlen, rfl⟩ := execEncode_frame hp hsize hbody htx ht hlen hframe
  obtain ⟨body', trailer', rfl, hbody', htrailer', hmismatch⟩ := frameBytes_changed hk hbadlen hsame hdiff
  simp only [← hgen, ← hparams] at hp hsize hfrlen hbody htrailer' hmismatch hrx
  have hfits : t.frlen.toNat ≤ u.params.bufBytes := hfrlen ▸ frameLen_le_bufBytes hp u.gen hsize
  have hvalue : fieldValue u.gen (sizeBytes u.gen size) = size := by
    simpa using fieldValue_sizeBytes hp u.gen hsize []
  have hdecode := execDecode_of_frame hfits hsize hfrlen.ge (sizeBytes_length u.gen size) hvalue
    (hbody'.trans hbody) htrailer' (holds_right (as := [startMarker u.params u.gen]) hrx)
  have hreject := acceptFrame_mismatch (s := { u with msgend := false, rxsize := size }) size hcken hmismatch
  exact ⟨_, hdecode.trans (congrArg Host.Outcome.next hreject), rfl, rfl, rfl⟩

end Sys2Proof.Machine
end

section
/-! The frame codec and the configuration commands (41_codec.md R141 to R156, 45_config.md): what ENCODE builds, what
DECODE accepts and rejects, and that none of these commands reaches the clock, the PHY or the environment's moves. -/

namespace Sys2Proof.Machine

/-! ### No event and no move -/

/-- Every command but the receive commands answers by completing a state with the history and the moves it began with
(70_reset_and_hazards.md R321). -/
theorem exec_completes_without_event {i : Instr} {s t : State} (hseek : i ≠ .seek) (hrdbody : i ≠ .rdbody)
    (hrecv : i ≠ .recv) (hrxack : i ≠ .rxack) (ht : exec i s = .next t) :
    ∃ (u : State) (e : ErrCode), t = u.complete e ∧
      u.history = s.history ∧ u.inputs = s.inputs ∧ u.drawn = s.drawn := by
  cases i with
  | nop => cases ht; exact ⟨s, .ok, rfl, rfl, rfl, rfl⟩
  | setgen gen =>
    rcases execSetgen_cases gen s with ⟨g, -, he⟩ | ⟨-, he⟩ <;> cases he.symm.trans ht
    · exact ⟨_, .ok, rfl, rfl, rfl, rfl⟩
    · exact ⟨s, .illegal, rfl, rfl, rfl, rfl⟩
  | settmo ms => cases ht; exact ⟨_, .ok, rfl, rfl, rfl, rfl⟩
  | setck en =>
    rcases execSetck_cases en s with ⟨b, he⟩ | he <;> cases he.symm.trans ht
    · exact ⟨_, .ok, rfl, rfl, rfl, rfl⟩
    · exact ⟨s, .illegal, rfl, rfl, rfl, rfl⟩
  | cksum sel n =>
    rcases execCksum_cases sel n s with ⟨-, he⟩ | ⟨-, -, he⟩ | ⟨bs, -, -, he⟩ <;> cases he.symm.trans ht
    · exact ⟨s, .illegal, rfl, rfl, rfl, rfl⟩
    · exact ⟨_, .ok, rfl, rfl, rfl, rfl⟩
  | encode size =>
    rcases execEncode_cases size s with ⟨-, he⟩ | ⟨-, -, he⟩ | ⟨body, -, -, he⟩ <;> cases he.symm.trans ht
    · exact ⟨s, .illegal, rfl, rfl, rfl, rfl⟩
    · exact ⟨_, .ok, rfl, rfl, rfl, rfl⟩
  | decode n =>
    obtain ⟨m, size, ck, e, rfl, -⟩ := execDecode_cases ht
    exact ⟨_, e, rfl, rfl, rfl, rfl⟩
  | seek => exact absurd rfl hseek
  | rdbody => exact absurd rfl hrdbody
  | recv => exact absurd rfl hrecv
  | rxack => exact absurd rfl hrxack

/-- Settles O19: completion touches neither the history nor the moves, and leaves the FCB idle. -/
theorem codecAndConfigMakeNoEvent : Obligations.CodecAndConfigMakeNoEvent := by
  intro s t i hseek hrdbody hrecv hrxack ht
  obtain ⟨u, e, rfl, hhistory, hinputs, hdrawn⟩ := exec_completes_without_event hseek hrdbody hrecv hrxack ht
  exact ⟨hhistory, hinputs, hdrawn, rfl, rfl⟩

/-! ### ENCODE -/

/-- A 16-bit value is made of its two wire bytes (20_memory.md R67). -/
theorem half_toNat_eq_bytes (v : Half) :
    v.toNat = (v.extractLsb' 0 8).toNat + 256 * (v.extractLsb' 8 8).toNat := by
  rw [← wire16_toNat, wire16_eq, wire16_of_bytes]

/-- The wire bytes of a checksum, zero-extended: the checksum, then a zero byte (30_encoding.md R101, R102). -/
theorem wireBytes_setWidth (ck : Byte) : wireBytes (ck.setWidth 16) = [ck, 0] := by
  have hextend : wire16 ck 0 = ck.setWidth 16 := (BitVec.setWidth_eq_append (by decide)).symm
  obtain ⟨hlow, hhigh⟩ := wire16_inj ((wire16_of_bytes (ck.setWidth 16)).trans hextend.symm)
  rw [wireBytes_eq, hlow, hhigh]

@[simp] theorem trailerBytes_g2 (ck : Byte) : trailerBytes .g2 ck = [ck, 0] := wireBytes_setWidth ck

@[simp] theorem trailerBytes_g3 (ck : Byte) : trailerBytes .g3 ck = [ck, 0] := wireBytes_setWidth ck

/-- The frame ENCODE writes is the frame of R100 to R102. -/
theorem frameBytes_eq_wireFrame (p : Params) (g : Gen) (size : Half) (body : List Byte) :
    frameBytes p g size body = wireFrame p g size body := by
  cases g with
  | g1 => simp [frameBytes, wireFrame, startMarker, sizeBytes, trailerBytes, frameChecksum]
  | g2 => simp [frameBytes, wireFrame, startMarker, sizeBytes, frameChecksum, BitVec.xor_assoc]
  | g3 => simp [frameBytes, wireFrame, startMarker, sizeBytes, frameChecksum, BitVec.xor_assoc]

/-- The checksum of a legal frame covers both bytes of the size, since a gen-1 size has a high byte of 0, which
contributes nothing. -/
theorem frameChecksum_eq_xor8 {p : Params} (hp : p.Valid) (g : Gen) {size : Half}
    (h : size.toNat ≤ maxPayload p g) (body : List Byte) :
    frameChecksum g size body = xor8 (size.extractLsb' 0 8 :: size.extractLsb' 8 8 :: body) := by
  cases g with
  | g1 =>
    obtain ⟨-, ⟨-, hmax⟩, -⟩ := hp
    have hhigh : size.extractLsb' 8 8 = 0 := by
      have hbytes := half_toNat_eq_bytes size
      simp only [maxPayload] at h
      bv_omega
    rw [frameChecksum, sizeBytes, hhigh]
    simp
  | g2 => rfl
  | g3 => rfl

theorem execEncode_of_lacks {s : State} {size : Half} (hsize : size.toNat ≤ maxPayload s.params s.gen)
    (h : s.lacks .tx 0 (bodyLen s.gen size.toNat)) : execEncode size s = .fault .unwritten := by
  have hrange : s.bufRange .tx 0 (bodyLen s.gen size.toNat) = none := (bufRange_eq_none ..).mpr h
  rcases execEncode_cases size s with ⟨hgt, -⟩ | ⟨-, -, he⟩ | ⟨body, -, hread, -⟩
  · omega
  · exact he
  · cases hread.symm.trans hrange

theorem execEncode_of_oversize {s : State} {size : Half} (hsize : maxPayload s.params s.gen < size.toNat) :
    execEncode size s = .next (s.complete .illegal) := by
  rcases execEncode_cases size s with ⟨-, he⟩ | ⟨hle, -⟩ | ⟨body, hle, -⟩
  · exact he
  · omega
  · omega

/-- A reserved bit of ARG makes an ENCODE word illegal (30_encoding.md R92, R93). -/
theorem decode_encode_reserved {w : Word} (hop : opField w = 0x11) (h : (argField w).extractLsb' 16 8 ≠ 0) :
    decode w = .error (.reservedBits (argField w)) := by
  rw [decode, hop]
  exact if_neg h

/-- Settles O13: by the three cases of ENCODE and the illegal word; of the memory only the frame's place in FRAMEBUF is
written. -/
theorem encodeResult : Obligations.EncodeResult := by
  intro s size hp hidle hr
  rw [← complete_of_idle hidle hr .illegal]
  refine ⟨fun hsize body hbody htx => ?_, fun hsize h => execEncode_of_lacks hsize h, execEncode_of_oversize,
    fun w hop hres => startCommand_of_error (decode_encode_reserved hop hres)⟩
  have hfrlen := frlen_toNat hp s.gen hsize
  have hlen := frameBytes_length s.params s.gen size body hbody
  rw [← frameBytes_eq_wireFrame, ← frameChecksum_eq_xor8 hp s.gen hsize body]
  refine ⟨_, execEncode_of_holds hsize hbody htx, ?_, hfrlen.trans hlen.symm, holds_putBuf _ _ _ _, fun a ha => ?_⟩
  · exact complete_of_idle (by exact hidle) (by exact hr) .ok
  · refine read_putBuf_outside s .frame 0 a _ fun hin => ha ?_
    rw [hlen, ← hfrlen] at hin
    exact hin

/-! ### DECODE -/

/-- DECODE of a frame whose size field is the start of the bytes the checksum covers: it comes down to the check of the
trailer (41_codec.md R150). -/
theorem execDecode_of_covered {s : State} {n size : Half} {covered trailer : List Byte}
    (hn : n.toNat ≤ s.params.bufBytes) (hsize : size.toNat ≤ maxPayload s.params s.gen)
    (hfit : frameLen s.gen size.toNat ≤ n.toNat) (htrailer : trailer.length = ckLen s.gen)
    (hlen : covered.length + trailer.length + 1 = frameLen s.gen size.toNat)
    (hvalue : fieldValue s.gen (covered.take (sizeLen s.gen)) = size) (h : s.holds .rx 1 (covered ++ trailer)) :
    execDecode n s = .next (acceptFrame size (fieldValue s.gen trailer) covered
      { s with msgend := false, rxsize := size }) := by
  rw [frameLen_eq] at hlen
  have hdecode := execDecode_of_frame (body := covered.drop (sizeLen s.gen)) hn hsize hfit
    (by rw [List.length_take]; omega) hvalue (by rw [List.length_drop]; omega) htrailer
    (by rwa [List.take_append_drop])
  rwa [List.take_append_drop] at hdecode

/-- A trailer that matches, or is not checked, is accepted (41_codec.md R150, R154). -/
theorem acceptFrame_match {s : State} {t : Half} {covered : List Byte} (size : Half)
    (ht : s.cken = true → t = (xor8 covered).setWidth 16) :
    acceptFrame size t covered s =
      { s with rxck := t, msgend := endsMessage s.params s.gen size.toNat }.complete .ok := by
  refine if_neg fun hno => ?_
  rw [Bool.and_eq_true, Bool.not_eq_true', ← Bool.not_eq_true, trailerMatches_iff] at hno
  obtain ⟨hcken, hdiffer⟩ := hno
  exact hdiffer (ht hcken)

/-- A 16-bit field equals a checksum, zero-extended, exactly when their values agree (40_checksum.md R122). -/
theorem eq_setWidth16_iff {t : Half} {c : Byte} : t = c.setWidth 16 ↔ t.toNat = c.toNat := by
  rw [← BitVec.toNat_inj, BitVec.toNat_setWidth, Nat.mod_eq_of_lt (by omega)]

/-- Settles O15: the frame from byte 1 on is the covered bytes, the size field first, and the trailer. -/
theorem decodeAccepts : Obligations.DecodeAccepts := by
  rintro s n size t _ covered trailer hidle hr hn hsize hfit hlen hrx hvalue rfl htrailer rfl hmatch
  rw [List.length_append] at hlen
  have hfield : sizeLen s.gen ≤ covered.length := by rw [frameLen_eq] at hlen; omega
  rw [List.take_append_of_le_length hfield] at hvalue
  have haccept := acceptFrame_match (s := { s with msgend := false, rxsize := size }) size
    fun hcken => eq_setWidth16_iff.mpr (hmatch hcken)
  refine (execDecode_of_covered hn hsize hfit htrailer hlen hvalue hrx).trans (congrArg Host.Outcome.next ?_)
  exact haccept.trans (complete_of_idle (by exact hidle) (by exact hr) .ok)

theorem execDecode_of_oversize {s : State} {n : Half} (hn : s.params.bufBytes < n.toNat) :
    execDecode n s = .next (s.complete .illegal) := if_pos hn

theorem execDecode_of_short_header {s : State} {n : Half} (hn : n.toNat ≤ s.params.bufBytes)
    (hshort : n.toNat < 1 + sizeLen s.gen) :
    execDecode n s = .next ({ s with msgend := false }.complete .protError) := by
  rw [execDecode, if_neg (Nat.not_lt.mpr hn), if_pos hshort]

theorem execDecode_of_field_lacks {s : State} {n : Half} (hn : n.toNat ≤ s.params.bufBytes)
    (hheader : 1 + sizeLen s.gen ≤ n.toNat) (h : s.lacks .rx 1 (sizeLen s.gen)) :
    execDecode n s = .fault .unwritten := by
  rw [execDecode, if_neg (Nat.not_lt.mpr hn), if_neg (Nat.not_lt.mpr hheader), (bufRange_eq_none ..).mpr h]

/-- DECODE with its size field read goes on with the checks of size and length (41_codec.md R151, R152). -/
theorem execDecode_of_field {s : State} {n : Half} {field : List Byte} (hn : n.toNat ≤ s.params.bufBytes)
    (hheader : 1 + sizeLen s.gen ≤ n.toNat) (hlen : field.length = sizeLen s.gen) (h : s.holds .rx 1 field) :
    execDecode n s =
      decodeBody n (fieldValue s.gen field) { s with msgend := false, rxsize := fieldValue s.gen field } := by
  have hread : s.bufRange .rx 1 (sizeLen s.gen) = some field := hlen ▸ bufRange_of_holds h
  rw [execDecode, if_neg (Nat.not_lt.mpr hn), if_neg (Nat.not_lt.mpr hheader), hread]

theorem decodeBody_of_lacks {s : State} {n size : Half} (hsize : size.toNat ≤ maxPayload s.params s.gen)
    (hfit : frameLen s.gen size.toNat ≤ n.toNat) (h : s.lacks .rx 1 (frameLen s.gen size.toNat - 1)) :
    decodeBody n size s = .fault .unwritten := by
  rw [decodeBody, if_neg (Nat.not_lt.mpr hsize), if_neg (Nat.not_lt.mpr hfit), (bufRange_eq_none ..).mpr h]

theorem decodeBody_of_out_of_bounds {s : State} {n size : Half}
    (h : maxPayload s.params s.gen < size.toNat ∨ n.toNat < frameLen s.gen size.toNat) :
    decodeBody n size s = .next (s.complete .protError) := by
  unfold decodeBody
  split
  · rfl
  next hsize => exact if_pos (h.resolve_left hsize)

/-- Settles O16: by DECODE's checks in their order, each rejection completing from an idle phase. -/
theorem decodeRejects : Obligations.DecodeRejects := by
  intro s n hidle hr
  rw [← complete_of_idle hidle hr .illegal]
  have hreject : ∀ size : Half, State.complete { s with msgend := false, rxsize := size } .protError =
      { s with msgend := false, rxsize := size, err := .protError, busy := false, cmd := none, epoch := s.epoch + 1 } :=
    fun size => complete_of_idle (by exact hidle) (by exact hr) .protError
  refine ⟨execDecode_of_oversize, fun hn hshort => ?_, execDecode_of_field_lacks,
    fun hn hheader size field hlen hfield hvalue => ?_⟩
  · exact (execDecode_of_short_header hn hshort).trans (congrArg Host.Outcome.next (hreject s.rxsize))
  · subst hvalue
    rw [← hreject]
    have hdecode := execDecode_of_field hn hheader hlen hfield
    refine ⟨fun hsize hfit hlacks => hdecode.trans (decodeBody_of_lacks hsize hfit hlacks),
      fun hbounds => hdecode.trans (decodeBody_of_out_of_bounds hbounds),
      fun hsize hfit hcken covered trailer htrailer hcovered hrx hdiffer => ?_⟩
    have htake : covered.take (sizeLen s.gen) = field := by
      rw [frameLen_eq] at hcovered
      have hstart : s.holds .rx 1 (covered.take (sizeLen s.gen)) :=
        holds_left (bs := covered.drop (sizeLen s.gen)) (by rw [List.take_append_drop]; exact holds_left hrx)
      exact holds_unique hstart hfield (by rw [List.length_take]; omega)
    exact (execDecode_of_covered hn hsize hfit htrailer hcovered (congrArg _ htake) hrx).trans
      (congrArg Host.Outcome.next (acceptFrame_mismatch _ hcken fun heq => hdiffer (eq_setWidth16_iff.mp heq)))

/-! ### ENCODE, then DECODE -/

/-- LASTCK after ENCODE is the checksum of the frame it built (41_codec.md R141). -/
theorem execEncode_lastck {s t : State} {size : Half} {body : List Byte}
    (hsize : size.toNat ≤ maxPayload s.params s.gen) (hbody : body.length = bodyLen s.gen size.toNat)
    (h : s.holds .tx 0 body) (ht : execEncode size s = .next t) :
    t.lastck = some (frameChecksum s.gen size body) := by
  rw [execEncode_of_holds hsize hbody h] at ht
  cases ht
  rfl

/-- Settles O17: the frame in RXBUF is the one ENCODE built, whose size field reads back as the size and whose trailer
reads back as its checksum. -/
theorem encodeThenDecode : Obligations.EncodeThenDecode := by
  intro s t u size body frame hp hsize hbody htx ht hlen hframe hparams hgen hrx
  obtain ⟨hfrlen, rfl⟩ := execEncode_frame hp hsize hbody htx ht hlen hframe
  have hlastck := execEncode_lastck hsize hbody htx ht
  simp only [← hgen, ← hparams] at hp hsize hfrlen hbody hlastck hrx ⊢
  have hfits : t.frlen.toNat ≤ u.params.bufBytes := hfrlen ▸ frameLen_le_bufBytes hp u.gen hsize
  have hvalue : fieldValue u.gen (sizeBytes u.gen size) = size := by
    simpa using fieldValue_sizeBytes hp u.gen hsize []
  have hfromField : u.holds .rx 1 (sizeBytes u.gen size ++ body ++
      trailerBytes u.gen (frameChecksum u.gen size body)) := holds_right (as := [startMarker u.params u.gen]) hrx
  have hbodyKept : u.holds .rx (1 + sizeLen u.gen) body := by
    rw [← sizeBytes_length u.gen size]
    exact holds_right (holds_left hfromField)
  have hdecode := execDecode_of_frame hfits hsize hfrlen.ge (sizeBytes_length u.gen size) hvalue hbody
    (trailerBytes_length u.gen _) hfromField
  rw [fieldValue_trailerBytes] at hdecode
  have haccept := acceptFrame_match (s := { u with msgend := false, rxsize := size })
    (covered := sizeBytes u.gen size ++ body) size fun _ => rfl
  refine ⟨_, hdecode.trans (congrArg Host.Outcome.next haccept), rfl, rfl, ?_, ?_, rfl, hbodyKept⟩
  · rw [hlastck, frameChecksum]
    simp
  · simp only [complete_rxck, BitVec.toNat_setWidth]
    omega

end Sys2Proof.Machine
end

section
/-! Polls (42_transceiver.md R170 to R176): lists of polls cut in two, one poll that is accounted, and the statements on
single polls: O24, O26, O27, O29 and O39. -/

namespace Sys2Proof.Machine

/-! ### Lists of polls -/

/-- Where a phase that stood at a stage stands after a run of polls. -/
def stageAfter : PollStage → List Poll → PollStage
  | stage, [] => stage
  | _, _ :: _ => .start

@[simp] theorem stageAfter_start (ps : List Poll) : stageAfter .start ps = .start := by cases ps <;> rfl

@[simp] theorem stageAfter_concat (stage : PollStage) (ps : List Poll) (p : Poll) :
    stageAfter stage (ps ++ [p]) = .start := by cases ps <;> rfl

@[simp] theorem leftMoves_start (ps : List Poll) : leftMoves .start ps = pollMoves ps := by cases ps <;> rfl

theorem leftMoves_cons (stage : PollStage) (p : Poll) (ps : List Poll) :
    leftMoves stage (p :: ps) = p.left stage ++ leftMoves .start ps := by
  rw [leftMoves_start]
  rfl

theorem leftMoves_append (stage : PollStage) (ps qs : List Poll) :
    leftMoves stage (ps ++ qs) = leftMoves stage ps ++ leftMoves (stageAfter stage ps) qs := by
  cases ps with
  | nil => rfl
  | cons p ps =>
    rw [List.cons_append, leftMoves_cons, leftMoves_cons, leftMoves_start, leftMoves_start, pollMoves_append,
      stageAfter, leftMoves_start, List.append_assoc]

@[simp] theorem leftOnto_start (req : Nat) (ps : List Poll) (history : List Event) :
    leftOnto req .start ps history = pollsOnto req ps history := by cases ps <;> rfl

theorem leftOnto_cons (req : Nat) (stage : PollStage) (p : Poll) (ps : List Poll) (history : List Event) :
    leftOnto req stage (p :: ps) history = leftOnto req .start ps (p.leftEvents req stage ++ history) := by
  rw [leftOnto_start]
  rfl

theorem leftOnto_append (req : Nat) (stage : PollStage) (ps qs : List Poll) (history : List Event) :
    leftOnto req stage (ps ++ qs) history =
      leftOnto req (stageAfter stage ps) qs (leftOnto req stage ps history) := by
  cases ps with
  | nil => rfl
  | cons p ps =>
    rw [List.cons_append, leftOnto_cons, leftOnto_cons, stageAfter]
    simp only [leftOnto_start, pollsOnto, List.foldl_append]

@[simp] theorem resumePolls_start (ps : List Poll) : resumePolls .start ps := by cases ps <;> trivial

theorem resumePolls_append {stage : PollStage} {ps qs : List Poll} (h : resumePolls stage (ps ++ qs)) :
    resumePolls stage ps ∧ resumePolls (stageAfter stage ps) qs := by
  cases ps with
  | nil => exact ⟨trivial, h⟩
  | cons p ps => exact ⟨h, resumePolls_start qs⟩

theorem elapsedAfter_append (e : Word) (ps qs : List Poll) :
    elapsedAfter e (ps ++ qs) = elapsedAfter (elapsedAfter e ps) qs := by
  induction ps generalizing e with
  | nil => rfl
  | cons p ps ih => exact ih _

theorem withinBudget_cons {tmo : Nat} {e : Word} {p : Poll} {ps : List Poll} :
    withinBudget tmo e (p :: ps) = true ↔
      (accountElapsed p.t0 p.t1 e).toNat < tmo ∧ withinBudget tmo (accountElapsed p.t0 p.t1 e) ps = true := by
  simp [withinBudget]

theorem withinBudget_append {tmo : Nat} {e : Word} {ps qs : List Poll} :
    withinBudget tmo e (ps ++ qs) = true ↔
      withinBudget tmo e ps = true ∧ withinBudget tmo (elapsedAfter e ps) qs = true := by
  induction ps generalizing e with
  | nil => simp [withinBudget, elapsedAfter]
  | cons p ps ih => rw [List.cons_append, withinBudget_cons, withinBudget_cons, ih, elapsedAfter, and_assoc]

/-! ### The ends of a command -/

/-- Completion while a phase runs: no captured word is lost. -/
theorem complete_of_noCmd {s : State} (hc : s.cmd = none) (e : ErrCode) :
    s.complete e = { s with err := e, busy := false, phase := .idle, rx := none, epoch := s.epoch + 1 } := by
  rw [State.complete, ← hc]

theorem failRx_of_noCmd {s : State} (hc : s.cmd = none) (e : ErrCode) :
    s.failRx e = { s with err := e, busy := false, phase := .idle, rx := none, epoch := s.epoch + 1,
                          history := .phyFlush :: s.history } :=
  complete_of_noCmd (s := s.note .phyFlush) hc e

/-- A run stops before a move of the host or the reset pin, and where nothing is listed. -/
theorem runRx_stopped (s : State) {is : List Input} (h : ∀ i ∈ is.head?, interrupts i = true) :
    State.runRx is s = .next { s with inputs := is } := by
  cases is with
  | nil => rfl
  | cons i is => exact runRx_interrupted s i is (h i rfl)

/-- A step of a running receive command on what is left of a run of polls. -/
theorem step_leftMoves {s : State} {r : Rx} {ps : List Poll} {rest : List Input} (hrx : s.rx = some r)
    (hc : s.cmd = none) (hps : ps ≠ []) (h : s.inputs = leftMoves r.stage ps ++ rest) :
    step s = State.runRx (leftMoves r.stage ps ++ rest) s := by
  cases ps with
  | nil => exact absurd rfl hps
  | cons p ps =>
    rw [leftMoves_cons, List.append_assoc] at h ⊢
    exact step_left hrx hc h

/-! ### One poll that is accounted -/

/-- A poll whose end is the accounting step: it fails with TIMEOUT_ERROR, or the phase goes on (42_transceiver.md R172,
R173). -/
theorem runRx_left_account {s u : State} {r r' : Rx} {p : Poll} (rest : List Input) (hrx : s.rx = some r)
    (hst : p.resumes r.stage) (hf : answerFits (s.request r) p.answer = true)
    (hend : (pollEnd s r p).finishPoll { r with stage := .ended p.t0 p.t1 p.answer } p.t0 p.t1 p.answer =
      u.account r' p.t0 p.t1) :
    State.runRx (p.left r.stage ++ rest) s =
      if tmoEff u ≤ (accountElapsed p.t0 p.t1 u.elapsed).toNat then
        .next (State.failRx { u with elapsed := accountElapsed p.t0 p.t1 u.elapsed, inputs := rest } .timeoutError)
      else
        State.runRx rest { u with elapsed := accountElapsed p.t0 p.t1 u.elapsed,
                                  rx := some { r' with stage := .start } } := by
  rw [runRx_left p rest hrx hst hf, hend]
  split
  next hlate => rw [account_timeout _ hlate, runRx_idle _ (failRx_rx _ _)]; rfl
  next hlate => rw [account_within _ (by omega)]

/-- A poll of the SEEK phase without the marker is accounted (42_transceiver.md R180). -/
theorem finishPoll_missesMarker {s : State} {p : Poll} (hp : s.phase = .seek)
    (hmiss : p.missesMarker (startMarker s.params s.gen) = true) (r : Rx) :
    s.finishPoll r p.t0 p.t1 p.answer = s.account r p.t0 p.t1 := by
  unfold Poll.missesMarker at hmiss
  cases ha : p.answer with
  | negative => simp [ha] at hmiss
  | bytes bs =>
    simp only [ha, decide_eq_true_eq] at hmiss
    simp only [State.finishPoll, hp, State.seekBytes, if_neg hmiss.2]

theorem answerFits_of_missesMarker {p : Poll} {start : Byte} (h : p.missesMarker start = true) :
    answerFits 1 p.answer = true := by
  unfold Poll.missesMarker at h
  cases ha : p.answer with
  | negative => rfl
  | bytes bs => simp only [ha, decide_eq_true_eq] at h; simp [answerFits, h.1]

theorem request_seek {s : State} (h : s.phase = .seek) (r : Rx) : s.request r = 1 := by
  simp only [State.request, h]

/-- A poll of the ACK phase that leaves the record incomplete is accounted (44_ack.md R231). -/
theorem finishPoll_ack_incomplete {s : State} {r : Rx} {bs : List Byte} (hp : s.phase = .ack)
    (h : r.got + bs.length < ackLen) (t0 t1 : Word) :
    s.finishPoll r t0 t1 (.bytes bs) = s.account { r with got := r.got + bs.length, ack := r.ack ++ bs } t0 t1 := by
  simp only [State.finishPoll, hp, State.ackBytes, if_neg (Nat.ne_of_lt h)]

/-- Settles O24: a poll without the marker is accounted, in integers by the invariant. -/
theorem seekPollIsAccounted : Obligations.SeekPollIsAccounted := by
  intro s r q rest hinv hrx hp hst hmiss hin
  obtain ⟨-, hc, -⟩ := hinv.inPhase hrx
  refine ⟨_, accountElapsed_toNat hinv.params q.t0 q.t1 (hinv.withinBudget r hrx), ?_⟩
  have hreq := request_seek hp r
  rw [step_left hrx hc hin, runRx_left_account rest hrx hst (by rw [hreq]; exact answerFits_of_missesMarker hmiss)
    (finishPoll_missesMarker (s := pollEnd s r q) hp hmiss _), failRx_of_noCmd (by exact hc)]
  simp only [pollEnd, hreq]
  rfl

/-- Settles O26: an incomplete record is kept and the poll accounted; NAK is 0 by the invariant. -/
theorem ackPollIsAccounted : Obligations.AckPollIsAccounted := by
  intro s r q bs rest hinv hrx hp hst hans hlen hin
  obtain ⟨-, hc, -⟩ := hinv.inPhase hrx
  refine ⟨_, accountElapsed_toNat hinv.params q.t0 q.t1 (hinv.withinBudget r hrx), ?_⟩
  have hf : answerFits (s.request r) q.answer = true := by
    simp only [hans, answerFits, State.request, hp, ackLen, decide_eq_true_eq]
    omega
  have hend := finishPoll_ack_incomplete (s := pollEnd s r q) (r := { r with stage := .ended q.t0 q.t1 q.answer })
    hp hlen q.t0 q.t1
  rw [← hans] at hend
  rw [step_left hrx hc hin, runRx_left_account rest hrx hst hf hend, failRx_of_noCmd (by exact hc),
    ← hinv.nak_clear hrx hp]
  rfl

/-- Settles O27: a negative answer fits every request, and its end is the failure. -/
theorem negativeAnswerIsPhyError : Obligations.NegativeAnswerIsPhyError := by
  intro s r q rest hrx hc hst hans hin
  have hf : answerFits (s.request r) q.answer = true := by rw [hans]; rfl
  rw [step_left hrx hc hin, runRx_left q rest hrx hst hf, hans, State.finishPoll, runRx_idle _ (failRx_rx _ _),
    failRx_of_noCmd (by exact hc)]
  rfl

/-- Settles O29: each move the FCB waits for is one stage further; a load changes only what the host sees. -/
theorem pollGoesMoveByMove : Obligations.PollGoesMoveByMove := by
  intro s r rest hrx hc hrest
  have hmove : ∀ {i : Input} {more : List Input} {t : State}, s.inputs = i :: more → interrupts i = false →
      s.receiveInput r i = .next t → step s = State.runRx more t := by
    intro i more t hin hi ht
    rw [step_port hin (by simp [hrx]) hc hi, runRx_cons i more hrx hi, ht, andThen_next]
  refine ⟨fun t0 hst hin => ?_, fun t0 answer hst hf hin => ?_, fun t0 answer t1 hst hin => ?_,
    fun t0 t1 answer more hst hin => ?_, fun width addr t more hin ht => ?_, fun more hin => ?_⟩
  · rw [hmove hin rfl (by simp only [State.receiveInput, hst]; rfl), runRx_stopped _ hrest]
    rfl
  · rw [hmove hin rfl (by rw [receiveInput_phy hst, if_pos hf]), runRx_stopped _ hrest]
  · rw [hmove hin rfl (by simp only [State.receiveInput, hst]; rfl), runRx_stopped _ hrest]
    rfl
  · exact hmove hin rfl (by simp only [State.receiveInput, hst])
  · have ht' : hostAccess { s with inputs := more } (.load width addr) = .next t := by
      rw [← ht, step, hin]
      rfl
    rw [hostAccess_load_frame ht']
    exact ⟨hrx, rfl, rfl, rfl⟩
  · refine ⟨State.hardReset { s with inputs := more }, ?_, rfl, rfl, rfl, rfl, rfl, rfl⟩
    rw [step, hin]
    rfl

/-- Settles O39: the hidden state the invariant describes leaves bytes missing in each phase. -/
theorem requestsWhatIsMissing : Obligations.RequestsWhatIsMissing := by
  intro s r hinv hrx
  have hphase := hinv.phaseFits r hrx
  unfold phaseOk at hphase
  cases hp : s.phase with
  | idle => simp [hp] at hphase
  | seek => exact ⟨(request_seek hp r).ge, fun _ => request_seek hp r, nofun, nofun, nofun⟩
  | ack =>
    simp only [hp, ackLen] at hphase
    simp only [State.request, hp, ackLen]
    exact ⟨by omega, nofun, nofun, nofun, fun _ => by omega⟩
  | body =>
    simp only [hp, bodyTargetOk] at hphase
    obtain ⟨-, -, htarget⟩ := hphase
    cases ht : r.target with
    | none =>
      simp only [ht] at htarget
      simp only [State.request, hp, ht]
      exact ⟨by omega, nofun, fun _ _ => by omega, fun _ h => absurd rfl h, nofun⟩
    | some n =>
      simp only [ht] at htarget
      obtain ⟨hmax, hlen, hfield, hgot⟩ := htarget
      simp only [State.request, hp, ht]
      exact ⟨by omega, nofun, nofun, fun _ _ => ⟨hfield, by omega, hmax⟩, nofun⟩

end Sys2Proof.Machine
end

section
/-! Polls that only cost time (42_transceiver.md R172, R173, R180, R192, R193): the SEEK phase up to its marker, and
silence in every phase. O20, O21, O22 and O23. -/

namespace Sys2Proof.Machine

/-! ### Runs of polls that only cost time -/

/-- A phase that has waited: its budget, its place in the current poll and the history are all that has changed. -/
def State.waited (s : State) (r : Rx) (stage : PollStage) (elapsed : Word) (history : List Event) : State :=
  { s with elapsed := elapsed, rx := some { r with stage := stage }, history := history }

theorem waited_self {s : State} {r : Rx} (hrx : s.rx = some r) : s.waited r r.stage s.elapsed s.history = s :=
  State.eta_rx hrx

/-- In this phase the poll is accounted and does nothing else, whenever it comes. -/
structure OnlyCostsTime (s : State) (r : Rx) (p : Poll) : Prop where
  fits : answerFits (s.request r) p.answer = true
  accounted : ∀ stage elapsed history,
    (s.waited r stage elapsed history).finishPoll { r with stage := stage } p.t0 p.t1 p.answer =
      (s.waited r stage elapsed history).account { r with stage := stage } p.t0 p.t1

/-- A poll that only costs time uses the budget up, or the phase waits on. -/
theorem runRx_left_costs {s : State} {r : Rx} {p : Poll} (more : List Input) (hrx : s.rx = some r)
    (hst : p.resumes r.stage) (hcost : OnlyCostsTime s r p) :
    State.runRx (p.left r.stage ++ more) s =
      if tmoEff s ≤ (accountElapsed p.t0 p.t1 s.elapsed).toNat then
        .next (State.failRx { s with elapsed := accountElapsed p.t0 p.t1 s.elapsed, inputs := more,
                                     history := p.leftEvents (s.request r) r.stage ++ s.history } .timeoutError)
      else
        State.runRx more (s.waited r .start (accountElapsed p.t0 p.t1 s.elapsed)
          (p.leftEvents (s.request r) r.stage ++ s.history)) :=
  runRx_left_account more hrx hst hcost.fits
    (hcost.accounted (.ended p.t0 p.t1 p.answer) s.elapsed (p.leftEvents (s.request r) r.stage ++ s.history))

/-- A run of polls that only cost time, within the budget. -/
theorem runRx_waits {s : State} {r : Rx} {ps : List Poll} (more : List Input) (hrx : s.rx = some r)
    (hst : resumePolls r.stage ps) (hcost : ∀ p ∈ ps, OnlyCostsTime s r p)
    (hb : withinBudget (tmoEff s) s.elapsed ps = true) :
    State.runRx (leftMoves r.stage ps ++ more) s =
      State.runRx more (s.waited r (stageAfter r.stage ps) (elapsedAfter s.elapsed ps)
        (leftOnto (s.request r) r.stage ps s.history)) := by
  induction ps generalizing s r with
  | nil => exact congrArg (State.runRx more) (waited_self hrx).symm
  | cons p ps ih =>
    obtain ⟨hnow, hlater⟩ := withinBudget_cons.mp hb
    obtain ⟨hp, hps⟩ := List.forall_mem_cons.mp hcost
    rw [leftMoves_cons, List.append_assoc, runRx_left_costs _ hrx hst hp, if_neg (by omega)]
    refine (ih (r := { r with stage := .start }) rfl (resumePolls_start ps) (fun q hq => ?_) hlater).trans ?_
    · exact ⟨(hps q hq).fits, (hps q hq).accounted⟩
    · rw [leftOnto_cons, stageAfter_start]
      rfl

/-- A run of polls that only cost time, the last of which uses the budget up. -/
theorem runRx_waits_out {s : State} {r : Rx} {ps : List Poll} {last : Poll} (more : List Input) (hrx : s.rx = some r)
    (hst : resumePolls r.stage (ps ++ [last])) (hcost : ∀ p ∈ ps ++ [last], OnlyCostsTime s r p)
    (hb : withinBudget (tmoEff s) s.elapsed ps = true)
    (hlate : tmoEff s ≤ (elapsedAfter s.elapsed (ps ++ [last])).toNat) :
    State.runRx (leftMoves r.stage (ps ++ [last]) ++ more) s =
      .next (State.failRx { s with elapsed := elapsedAfter s.elapsed (ps ++ [last]), inputs := more,
                                   history := leftOnto (s.request r) r.stage (ps ++ [last]) s.history }
        .timeoutError) := by
  obtain ⟨hps, hlast⟩ := resumePolls_append hst
  obtain ⟨hcostPs, hcostLast⟩ := List.forall_mem_append.mp hcost
  obtain ⟨hfits, haccounted⟩ := hcostLast last (List.mem_singleton_self last)
  rw [leftMoves_append, List.append_assoc, runRx_waits _ hrx hps hcostPs hb, leftOnto_append,
    leftMoves_cons, List.append_assoc]
  rw [elapsedAfter_append] at hlate ⊢
  exact (runRx_left_costs (s := s.waited r (stageAfter r.stage ps) (elapsedAfter s.elapsed ps)
    (leftOnto (s.request r) r.stage ps s.history)) (r := { r with stage := stageAfter r.stage ps }) more rfl hlast
    ⟨hfits, haccounted⟩).trans (if_pos hlate)

/-! ### The SEEK phase -/

theorem onlyCostsTime_of_missesMarker {s : State} {p : Poll} (hp : s.phase = .seek)
    (hmiss : p.missesMarker (startMarker s.params s.gen) = true) (r : Rx) : OnlyCostsTime s r p where
  fits := by rw [request_seek hp]; exact answerFits_of_missesMarker hmiss
  accounted stage elapsed history := finishPoll_missesMarker (s := s.waited r stage elapsed history) hp hmiss _

/-- The state in which a SEEK phase that skipped some polls has stored the marker of the next. -/
def State.markerStored (s : State) (r : Rx) (skipped : List Poll) (hit : Poll) : State :=
  State.storeMarker { s with elapsed := elapsedAfter s.elapsed skipped,
                             history := leftOnto 1 r.stage (skipped ++ [hit]) s.history }
    [startMarker s.params s.gen]

theorem read_markerStored_self (s : State) (r : Rx) (skipped : List Poll) (hit : Poll) :
    Memory.read (s.markerStored r skipped hit).mem 0x3000 = some (startMarker s.params s.gen) :=
  read_writeRange_inside s.mem 0x3000 0 [startMarker s.params s.gen] Nat.one_pos

theorem read_markerStored_ne (s : State) (r : Rx) (skipped : List Poll) (hit : Poll) {a : Nat} (ha : a ≠ 0x3000) :
    Memory.read (s.markerStored r skipped hit).mem a = Memory.read s.mem a :=
  read_writeRange_outside s.mem 0x3000 a [startMarker s.params s.gen] (by simp only [List.length_singleton]; omega)

/-- The poll that brings the marker ends the SEEK phase, whatever its clock samples (42_transceiver.md R176, R180). -/
theorem runRx_seek_marker {s : State} {r : Rx} {skipped : List Poll} {hit : Poll} (more : List Input)
    (hrx : s.rx = some r) (hp : s.phase = .seek) (hst : resumePolls r.stage (skipped ++ [hit]))
    (hmiss : ∀ q ∈ skipped, q.missesMarker (startMarker s.params s.gen) = true)
    (hhit : hit.answer = .bytes [startMarker s.params s.gen])
    (hb : withinBudget (tmoEff s) s.elapsed skipped = true) :
    State.runRx (leftMoves r.stage (skipped ++ [hit]) ++ more) s =
      State.runRx more (if r.thenBody then (s.markerStored r skipped hit).beginBody
        else (s.markerStored r skipped hit).complete .ok) := by
  obtain ⟨hskip, hlast⟩ := resumePolls_append hst
  rw [leftMoves_append, List.append_assoc, runRx_waits _ hrx hskip
    (fun q hq => onlyCostsTime_of_missesMarker hp (hmiss q hq) r) hb, leftMoves_cons, List.append_assoc]
  have hfits : answerFits 1 hit.answer = true := by rw [hhit]; rfl
  rw [runRx_left (r := { r with stage := stageAfter r.stage skipped }) hit _ rfl hlast
    (by rw [request_seek (by exact hp)]; exact hfits), hhit]
  simp only [State.markerStored, leftOnto_append, pollEnd, State.waited, State.finishPoll, hp, State.seekBytes, if_true,
    request_seek hp]
  split <;> rfl

/-- Settles O20: the marker's poll ends a SEEK, from its beginning and from any stage. -/
theorem seekFindsMarker : Obligations.SeekFindsMarker := by
  intro s skipped hit rest hmiss hhit
  refine ⟨fun hb hin => ?_, fun r hinv hrx hp hthen hst hb hin => ?_⟩
  · have hrun := runRx_seek_marker (s := s.beginSeek false) (skipped := skipped) rest rfl rfl (resumePolls_start _)
      hmiss hhit hb
    rw [leftMoves_start, ← hin, if_neg Bool.false_ne_true, runRx_idle _ (complete_rx _ _)] at hrun
    refine ⟨_, hrun, ?_, read_markerStored_self (s.beginSeek false) _ skipped hit,
      fun a ha => read_markerStored_ne (s.beginSeek false) _ skipped hit ha⟩
    rw [State.markerStored, leftOnto_start]
    rfl
  · obtain ⟨-, hc, -⟩ := hinv.inPhase hrx
    have hrun := runRx_seek_marker rest hrx hp hst hmiss hhit hb
    rw [← step_leftMoves hrx hc (by simp) hin, hthen, if_neg Bool.false_ne_true, runRx_idle _ (complete_rx _ _)] at hrun
    refine ⟨_, hrun, ?_, read_markerStored_self s r skipped hit, fun a ha => read_markerStored_ne s r skipped hit ha⟩
    rw [complete_of_noCmd (by exact hc)]
    rfl

/-! ### Silence -/

theorem missesMarker_of_silent {p : Poll} (start : Byte) (h : p.answer = .bytes []) : p.missesMarker start = true := by
  simp [Poll.missesMarker, h]

theorem storeBody_nil {s : State} {r : Rx} (h : s.rxlen = BitVec.ofNat 16 (1 + r.got)) : s.storeBody r [] = s := by
  rw [State.storeBody, List.length_nil, Nat.add_zero, ← h]
  rfl

/-- A poll that brings nothing only costs time, in every phase (42_transceiver.md R179). -/
theorem onlyCostsTime_of_silent {s : State} {r : Rx} {p : Poll} (hinv : s.Inv) (hrx : s.rx = some r)
    (h : p.answer = .bytes []) : OnlyCostsTime s r p := by
  have hphase := hinv.phaseFits r hrx
  unfold phaseOk at hphase
  have hfits : answerFits (s.request r) p.answer = true := by rw [h]; simp [answerFits]
  cases hp : s.phase with
  | idle => simp [hp] at hphase
  | seek => exact onlyCostsTime_of_missesMarker hp (missesMarker_of_silent _ h) r
  | ack =>
    simp only [hp] at hphase
    obtain ⟨-, -, -, -, hgot⟩ := hphase
    refine ⟨hfits, fun stage elapsed history => ?_⟩
    rw [h, finishPoll_ack_incomplete (by exact hp) (by simpa using hgot)]
    simp only [List.append_nil, List.length_nil, Nat.add_zero]
  | body =>
    simp only [hp] at hphase
    obtain ⟨hlen, -, htarget⟩ := hphase
    have hrxlen : s.rxlen = BitVec.ofNat 16 (1 + r.got) := by rw [← hlen, BitVec.ofNat_toNat, BitVec.setWidth_eq]
    refine ⟨hfits, fun stage elapsed history => ?_⟩
    have hopen : ¬ (r.target = none ∧ r.got = sizeLen s.gen) ∧ r.target ≠ some r.got := by
      unfold bodyTargetOk at htarget
      cases ht : r.target with
      | none => simp only [ht] at htarget; exact ⟨fun hdone => by omega, nofun⟩
      | some n =>
        simp only [ht] at htarget
        obtain ⟨-, -, -, hmore⟩ := htarget
        exact ⟨nofun, fun hdone => by cases hdone; omega⟩
    have hstore : (s.waited r stage elapsed history).storeBody { r with stage := stage } [] =
        s.waited r stage elapsed history := storeBody_nil (by exact hrxlen)
    simp only [h, State.finishPoll, State.bodyBytes, State.bodyGoOn, List.length_nil, Nat.add_zero, hstore]
    simp only [State.waited, hp, if_neg hopen.1, if_neg hopen.2]

/-- The counter after polls of `p` milliseconds each. -/
theorem elapsedAfter_toNat {e : Word} {p : Nat} {ps : List Poll} (hp : 1 ≤ p)
    (hd : ∀ q ∈ ps, clockDelta q.t0 q.t1 = (p : Int)) (hfit : e.toNat + ps.length * p < 2 ^ 32) :
    (elapsedAfter e ps).toNat = e.toNat + ps.length * p := by
  induction ps generalizing e with
  | nil => simp [elapsedAfter]
  | cons q ps ih =>
    obtain ⟨hq, hps⟩ := List.forall_mem_cons.mp hd
    rw [List.length_cons, Nat.succ_mul] at hfit ⊢
    have hstep := accountElapsed_pos (t0 := q.t0) (t1 := q.t1) (e := e) (by omega) (by omega)
    rw [elapsedAfter, ih hps (by omega)]
    omega

theorem withinBudget_of_steady {tmo : Nat} {e : Word} {p : Nat} {ps : List Poll} (hp : 1 ≤ p) (htmo : tmo < 2 ^ 32)
    (hd : ∀ q ∈ ps, clockDelta q.t0 q.t1 = (p : Int)) (hfit : e.toNat + ps.length * p < tmo) :
    withinBudget tmo e ps = true := by
  induction ps generalizing e with
  | nil => rfl
  | cons q ps ih =>
    obtain ⟨hq, hps⟩ := List.forall_mem_cons.mp hd
    rw [List.length_cons, Nat.succ_mul] at hfit
    have hstep := accountElapsed_pos (t0 := q.t0) (t1 := q.t1) (e := e) (by omega) (by omega)
    exact withinBudget_cons.mpr ⟨by omega, ih hps (by omega)⟩

/-- `k = ceil(n / p)` is the first count of steps of `p` that reaches `n`. -/
theorem ceilDiv_bounds {n p : Nat} (hp : 1 ≤ p) : n ≤ (n + p - 1) / p * p ∧ (n + p - 1) / p * p < n + p := by
  have hdiv := Nat.div_add_mod (n + p - 1) p
  have hmod := Nat.mod_lt (n + p - 1) hp
  rw [Nat.mul_comm] at hdiv
  omega

/-- A phase with a fresh budget whose polls only cost `p` milliseconds each fails at poll `ceil(TMO_EFF / p)`
(42_transceiver.md R192). -/
theorem runRx_silence {s : State} {r : Rx} {silent : List Poll} {p : Nat} (rest : List Input) (hparams : s.params.Valid)
    (hrx : s.rx = some r) (hst : resumePolls r.stage silent) (hfresh : s.elapsed = 0) (hp : 1 ≤ p) (hp' : p < 2 ^ 31)
    (hcost : ∀ q ∈ silent, OnlyCostsTime s r q) (hd : ∀ q ∈ silent, clockDelta q.t0 q.t1 = (p : Int))
    (hlen : silent.length = (tmoEff s + p - 1) / p) :
    State.runRx (leftMoves r.stage silent ++ rest) s =
      .next (State.failRx { s with elapsed := BitVec.ofNat 32 (silent.length * p), inputs := rest,
                                   history := leftOnto (s.request r) r.stage silent s.history } .timeoutError) := by
  obtain ⟨hreach, hbound⟩ := ceilDiv_bounds (n := tmoEff s) hp
  rw [← hlen] at hreach hbound
  have hpos := tmoEff_pos hparams
  have hlt := tmoEff_lt hparams
  have hzero : s.elapsed.toNat = 0 := by rw [hfresh]; rfl
  have htotal := elapsedAfter_toNat (e := s.elapsed) hp hd (by omega)
  have helapsed : elapsedAfter s.elapsed silent = BitVec.ofNat 32 (silent.length * p) :=
    BitVec.eq_of_toNat_eq (by rw [BitVec.toNat_ofNat]; omega)
  rcases List.eq_nil_or_concat' silent with rfl | ⟨before, last, rfl⟩
  · rw [List.length_nil] at hreach
    omega
  · have hbefore : before.length * p < tmoEff s := by
      rw [List.length_append, List.length_singleton, Nat.succ_mul] at hbound
      omega
    have hb := withinBudget_of_steady (tmo := tmoEff s) (e := s.elapsed) hp (by omega)
      (List.forall_mem_append.mp hd).1 (by omega)
    rw [← helapsed]
    exact runRx_waits_out rest hrx hst hcost hb (by omega)

/-- Settles O21: a silent SEEK is silence from a fresh budget. -/
theorem seekTimesOutOnSilence : Obligations.SeekTimesOutOnSilence := by
  intro s silent p rest hparams hp hp' hsilent hlen hin
  obtain ⟨hreach, hbound⟩ := ceilDiv_bounds (n := tmoEff s) hp
  have hrun := runRx_silence (s := s.beginSeek false) rest hparams rfl (resumePolls_start silent) rfl hp hp'
    (fun q hq => onlyCostsTime_of_missesMarker rfl (missesMarker_of_silent _ (hsilent q hq).1) _)
    (fun q hq => (hsilent q hq).2) hlen
  rw [leftMoves_start, ← hin, leftOnto_start] at hrun
  exact ⟨hrun, hlen ▸ hreach, hlen ▸ hbound⟩

/-- Settles O22: silence in the phase that runs. -/
theorem silentPhaseTimesOut : Obligations.SilentPhaseTimesOut := by
  intro s r silent p rest hinv hrx hst hfresh hp hp' hsilent hlen hin
  obtain ⟨-, hc, -⟩ := hinv.inPhase hrx
  have hne : silent ≠ [] := by
    rintro rfl
    have hreach := (ceilDiv_bounds (n := tmoEff s) hp).1
    rw [← hlen, List.length_nil, Nat.zero_mul] at hreach
    have hpos := tmoEff_pos hinv.params
    omega
  rw [step_leftMoves hrx hc hne hin, runRx_silence rest hinv.params hrx hst hfresh hp hp'
    (fun q hq => onlyCostsTime_of_silent hinv hrx (hsilent q hq).1) (fun q hq => (hsilent q hq).2) hlen,
    failRx_of_noCmd (by exact hc)]

/-- Polls with no positive delta keep the counter at 0 (42_transceiver.md R193). -/
theorem elapsedAfter_stopped {ps : List Poll} (hd : ∀ q ∈ ps, clockDelta q.t0 q.t1 ≤ 0) : elapsedAfter 0 ps = 0 := by
  induction ps with
  | nil => rfl
  | cons q ps ih =>
    obtain ⟨hq, hps⟩ := List.forall_mem_cons.mp hd
    rw [elapsedAfter, accountElapsed_nonpos _ hq, ih hps]

theorem withinBudget_stopped {tmo : Nat} {ps : List Poll} (htmo : 1 ≤ tmo)
    (hd : ∀ q ∈ ps, clockDelta q.t0 q.t1 ≤ 0) : withinBudget tmo 0 ps = true := by
  induction ps with
  | nil => rfl
  | cons q ps ih =>
    obtain ⟨hq, hps⟩ := List.forall_mem_cons.mp hd
    rw [withinBudget_cons, accountElapsed_nonpos _ hq]
    exact ⟨htmo, ih hps⟩

/-- Settles O23: the silent polls only cost time, and none of it is counted. -/
theorem silentSeekWithoutTimeNeverEnds : Obligations.SilentSeekWithoutTimeNeverEnds := by
  intro s silent hparams hbusy hsilent hin
  have hd : ∀ q ∈ silent, clockDelta q.t0 q.t1 ≤ 0 := fun q hq => (hsilent q hq).2
  have hrun := runRx_waits (s := s.beginSeek false) (ps := silent) [] rfl (resumePolls_start silent)
    (fun q hq => onlyCostsTime_of_missesMarker rfl (missesMarker_of_silent _ (hsilent q hq).1) _)
    (withinBudget_stopped (tmoEff_pos (s := s.beginSeek false) hparams) hd)
  rw [leftMoves_start, List.append_nil, ← hin, runRx_nil, leftOnto_start] at hrun
  exact ⟨_, hrun, hbusy, rfl, elapsedAfter_stopped hd, rfl, rfl, rfl, rfl⟩

end Sys2Proof.Machine
end

section
/-! The BODY phase (42_transceiver.md R183 to R186): what one poll does (O25), and runs of polls that bring fewer bytes
than are missing, complete a size field, or complete the frame. -/

namespace Sys2Proof.Machine

/-! ### Bytes stored -/

theorem writeRange_append (m : Memory) (a : Nat) (bs cs : List Byte) :
    Memory.writeRange m a (bs ++ cs) = Memory.writeRange (Memory.writeRange m a bs) (a + bs.length) cs := by
  induction bs generalizing m a with
  | nil => rfl
  | cons b bs ih => simp only [List.cons_append, Memory.writeRange, ih, List.length_cons, Nat.add_assoc, Nat.add_comm 1]

theorem holds_append {s : State} {b : Buf} {i : Nat} {as bs : List Byte} (ha : s.holds b i as)
    (hb : s.holds b (i + as.length) bs) : s.holds b i (as ++ bs) := fun k hk => by
  by_cases hlt : k < as.length
  · rw [ha k hlt, List.getElem_append_left hlt]
  · have h := hb (k - as.length) (by rw [List.length_append] at hk; omega)
    rw [show i + as.length + (k - as.length) = i + k by omega] at h
    rw [h, List.getElem_append_right (Nat.not_lt.mp hlt)]

theorem read_storeBody_outside {s : State} {r : Rx} {bs : List Byte} {a : Nat}
    (h : ¬ (0x3001 + r.got ≤ a ∧ a < 0x3001 + r.got + bs.length)) :
    Memory.read (s.storeBody r bs).mem a = Memory.read s.mem a :=
  read_putBuf_outside s .rx (1 + r.got) a bs (by simp only [Buf.base]; omega)

/-- Bytes stored after those received so far follow them. -/
theorem holds_storeBody {s : State} {r : Rx} {pre : List Byte} (hgot : pre.length = r.got) (hstored : s.holds .rx 1 pre)
    (bs : List Byte) : (s.storeBody r bs).holds .rx 1 (pre ++ bs) := by
  refine holds_append (fun k hk => ?_) (hgot ▸ holds_putBuf s .rx (1 + r.got) bs)
  rw [← hstored k hk]
  exact read_storeBody_outside (by simp only [Buf.base]; omega)

/-! ### One poll -/

/-- A poll that brings fewer bytes than are missing is accounted (42_transceiver.md R183, R185). -/
theorem bodyBytes_incomplete {s : State} {r : Rx} {bs : List Byte} (hp : s.phase = .body)
    (h : bs.length < s.request r) (t0 t1 : Word) :
    s.bodyBytes r t0 t1 bs = (s.storeBody r bs).account { r with got := r.got + bs.length } t0 t1 := by
  have hopen : ¬ (r.target = none ∧ r.got + bs.length = sizeLen s.gen) ∧ r.target ≠ some (r.got + bs.length) := by
    simp only [State.request, hp] at h
    cases ht : r.target with
    | none => simp only [ht] at h; exact ⟨fun hdone => by omega, nofun⟩
    | some n => simp only [ht] at h; exact ⟨nofun, fun hdone => by cases hdone; omega⟩
  simp only [State.bodyBytes, State.bodyGoOn, if_neg hopen.1, if_neg hopen.2]

/-- The poll that completes the size field has it read back from RXBUF (42_transceiver.md R183). -/
theorem bodyBytes_field {s : State} {r : Rx} {pre bs : List Byte} (hgot : pre.length = r.got)
    (hstored : s.holds .rx 1 pre) (ht : r.target = none) (hlen : r.got + bs.length = sizeLen s.gen) (t0 t1 : Word) :
    s.bodyBytes r t0 t1 bs =
      (s.storeBody r bs).bodySize { r with got := r.got + bs.length } t0 t1 (fieldValue s.gen (pre ++ bs)) := by
  have hfield := bytesOrFree_of_holds (holds_storeBody hgot hstored bs)
  rw [List.length_append, hgot, hlen] at hfield
  simp only [State.bodyBytes, ht, hlen, hfield, and_self, if_true]

/-- A size within `MAX[g]` gives the target, and the poll is accounted: the trailer is still missing. -/
theorem bodySize_legal {s : State} {r : Rx} {size : Half} (hgot : r.got = sizeLen s.gen)
    (hsize : size.toNat ≤ maxPayload s.params s.gen) (t0 t1 : Word) :
    s.bodySize r t0 t1 size =
      State.account { s with rxsize := size } { r with target := some (frameLen s.gen size.toNat - 1) } t0 t1 := by
  have hck := ckLen_pos s.gen
  have htarget : sizeLen s.gen + bodyLen s.gen size.toNat + ckLen s.gen = frameLen s.gen size.toNat - 1 := by
    rw [frameLen_eq]
    omega
  have hmore : some (frameLen s.gen size.toNat - 1) ≠ some r.got := by
    rw [ne_eq, Option.some.injEq]
    omega
  simp only [State.bodySize, if_neg (Nat.not_lt.mpr hsize), State.bodyGoOn, htarget, if_neg hmore]

theorem bodySize_oversize {s : State} {size : Half} (hsize : maxPayload s.params s.gen < size.toNat) (r : Rx)
    (t0 t1 : Word) : s.bodySize r t0 t1 size = State.failRx { s with rxsize := size } .protError := by
  simp only [State.bodySize, if_pos hsize]

/-- The poll that brings the frame's last byte completes the command (42_transceiver.md R183, R185). -/
theorem bodyBytes_last {s : State} {r : Rx} {bs : List Byte} (ht : r.target = some (r.got + bs.length))
    (t0 t1 : Word) : s.bodyBytes r t0 t1 bs = (s.storeBody r bs).complete .ok := by
  simp only [State.bodyBytes, State.bodyGoOn, ht, reduceCtorEq, false_and, if_false, if_true]

theorem finishPoll_body {s : State} (hp : s.phase = .body) (r : Rx) (t0 t1 : Word) (bs : List Byte) :
    s.finishPoll r t0 t1 (.bytes bs) = s.bodyBytes r t0 t1 bs := by
  simp only [State.finishPoll, hp]

/-- A poll of the BODY phase does not end it: it leaves the size field or the frame incomplete, or completes a size
field within `MAX[g]`. `size` and `target` are RXSIZE and the target after it. -/
def bodyGoesOn (s : State) (r : Rx) (bs : List Byte) (size : Half) (target : Option Nat) : Prop :=
  (r.target = none ∧ r.got + bs.length < sizeLen s.gen ∧ size = s.rxsize ∧ target = none) ∨
  (∃ n, r.target = some n ∧ r.got + bs.length < n ∧ size = s.rxsize ∧ target = some n) ∨
  (∃ pre, r.target = none ∧ pre.length = r.got ∧ s.holds .rx 1 pre ∧ r.got + bs.length = sizeLen s.gen ∧
    size = fieldValue s.gen (pre ++ bs) ∧ size.toNat ≤ maxPayload s.params s.gen ∧
    target = some (frameLen s.gen size.toNat - 1))

theorem length_le_request_of_bodyGoesOn {s : State} {r : Rx} {bs : List Byte} {size : Half} {target : Option Nat}
    (hp : s.phase = .body) (h : bodyGoesOn s r bs size target) : bs.length ≤ s.request r := by
  simp only [State.request, hp]
  rcases h with ⟨ht, hlen, -⟩ | ⟨n, ht, hlen, -⟩ | ⟨pre, ht, -, -, hlen, -⟩ <;> simp only [ht] <;> omega

theorem bodyGoesOn_of_short {s : State} {r : Rx} {bs : List Byte} (hp : s.phase = .body) (h : bs.length < s.request r) :
    bodyGoesOn s r bs s.rxsize r.target := by
  simp only [State.request, hp] at h
  cases ht : r.target with
  | none => simp only [ht] at h; exact .inl ⟨ht, by omega, rfl, rfl⟩
  | some n => simp only [ht] at h; exact .inr (.inl ⟨n, ht, by omega, rfl, rfl⟩)

/-- A BODY phase that has stored `bs` after what `r` counts, and what else its polls may have changed. -/
def State.bodyAt (s : State) (r : Rx) (bs : List Byte) (size : Half) (elapsed : Word) (r' : Rx) (history : List Event) :
    State :=
  { s with mem := (s.storeBody r bs).mem, rxlen := BitVec.ofNat 16 (1 + (r.got + bs.length)), rxsize := size,
           elapsed := elapsed, rx := some r', history := history }

section
variable (s : State) (r : Rx) (bs : List Byte) (size : Half) (e : Word) (r' : Rx) (h : List Event)

@[simp] theorem bodyAt_gen : (s.bodyAt r bs size e r' h).gen = s.gen := rfl

@[simp] theorem bodyAt_phase : (s.bodyAt r bs size e r' h).phase = s.phase := rfl

@[simp] theorem bodyAt_elapsed : (s.bodyAt r bs size e r' h).elapsed = e := rfl

@[simp] theorem bodyAt_rxsize : (s.bodyAt r bs size e r' h).rxsize = size := rfl

@[simp] theorem bodyAt_history : (s.bodyAt r bs size e r' h).history = h := rfl

@[simp] theorem tmoEff_bodyAt : tmoEff (s.bodyAt r bs size e r' h) = tmoEff s := by
  unfold tmoEff
  rfl

@[simp] theorem request_bodyAt (q : Rx) : (s.bodyAt r bs size e r' h).request q = s.request q := by
  simp only [State.request, bodyAt_phase, bodyAt_gen]

end

theorem bodyAt_nil {s : State} {r : Rx} (hrx : s.rx = some r) (hrxlen : s.rxlen = BitVec.ofNat 16 (1 + r.got)) :
    s.bodyAt r [] s.rxsize s.elapsed r s.history = s := by
  rw [State.bodyAt, List.length_nil, Nat.add_zero, ← hrxlen]
  exact State.eta_rx hrx

theorem writeRange_storeBody (m : Memory) (n : Nat) (bs cs : List Byte) :
    Memory.writeRange (Memory.writeRange m (Buf.rx.base + (1 + n)) bs) (Buf.rx.base + (1 + (n + bs.length))) cs =
      Memory.writeRange m (Buf.rx.base + (1 + n)) (bs ++ cs) := by
  rw [writeRange_append, Nat.add_assoc, Nat.add_assoc]

theorem bodyAt_bodyAt {s : State} {r r' : Rx} {bs : List Byte} (hgot : r'.got = r.got + bs.length) (cs : List Byte)
    (size size' : Half) (e e' : Word) (r'' : Rx) (h h' : List Event) :
    (s.bodyAt r bs size e r' h).bodyAt r' cs size' e' r'' h' = s.bodyAt r (bs ++ cs) size' e' r'' h' := by
  simp only [State.bodyAt, storeBody_mem, hgot, writeRange_storeBody, List.length_append, Nat.add_assoc]

/-- The end of such a poll: its bytes are stored, and it is accounted (42_transceiver.md R176, R183). -/
theorem bodyBytes_goesOn {s : State} {r : Rx} {bs : List Byte} {size : Half} {target : Option Nat}
    (hp : s.phase = .body) (h : bodyGoesOn s r bs size target) (stage : PollStage) (elapsed : Word)
    (history : List Event) (t0 t1 : Word) :
    (s.waited r stage elapsed history).bodyBytes { r with stage := stage } t0 t1 bs =
      (s.bodyAt r bs size elapsed { r with stage := stage } history).account
        { r with got := r.got + bs.length, target := target, stage := stage } t0 t1 := by
  have hshort : bs.length < s.request r →
      (s.waited r stage elapsed history).bodyBytes { r with stage := stage } t0 t1 bs =
      (s.bodyAt r bs s.rxsize elapsed { r with stage := stage } history).account
        { r with got := r.got + bs.length, stage := stage } t0 t1 := fun hlt =>
    bodyBytes_incomplete (s := s.waited r stage elapsed history) (r := { r with stage := stage }) hp hlt t0 t1
  rcases h with ⟨ht, hlen, rfl, rfl⟩ | ⟨n, ht, hlen, rfl, rfl⟩ | ⟨pre, ht, hgot, hstored, hlen, rfl, hmax, rfl⟩
  · rw [hshort (by simp only [State.request, hp, ht]; omega), ← ht]
  · rw [hshort (by simp only [State.request, hp, ht]; omega), ← ht]
  · have hfield := bodyBytes_field (s := s.waited r stage elapsed history) (r := { r with stage := stage }) hgot hstored
      ht hlen t0 t1
    refine hfield.trans ?_
    rw [bodySize_legal (by exact hlen) (by exact hmax)]
    rfl

/-- A poll of the BODY phase that does not end it. -/
theorem runRx_left_body {s : State} {r : Rx} {p : Poll} {bs : List Byte} {size : Half} {target : Option Nat}
    (more : List Input) (hrx : s.rx = some r) (hp : s.phase = .body) (hst : p.resumes r.stage)
    (hans : p.answer = .bytes bs) (h : bodyGoesOn s r bs size target) :
    State.runRx (p.left r.stage ++ more) s =
      if tmoEff s ≤ (accountElapsed p.t0 p.t1 s.elapsed).toNat then
        .next (State.failRx { s.bodyAt r bs size (accountElapsed p.t0 p.t1 s.elapsed) r
          (p.leftEvents (s.request r) r.stage ++ s.history) with inputs := more } .timeoutError)
      else
        State.runRx more (s.bodyAt r bs size (accountElapsed p.t0 p.t1 s.elapsed)
          { r with got := r.got + bs.length, target := target, stage := .start }
          (p.leftEvents (s.request r) r.stage ++ s.history)) := by
  have hf : answerFits (s.request r) p.answer = true := by
    simpa [hans, answerFits] using length_le_request_of_bodyGoesOn hp h
  have hend := bodyBytes_goesOn hp h (.ended p.t0 p.t1 p.answer) s.elapsed
    (p.leftEvents (s.request r) r.stage ++ s.history) p.t0 p.t1
  rw [← finishPoll_body (by exact hp), ← hans] at hend
  have hrun := runRx_left_account (u := s.bodyAt r bs size s.elapsed _ _) more hrx hst hf hend
  rw [tmoEff_bodyAt] at hrun
  exact hrun

/-- Settles O25: the bytes are stored, and the poll is accounted in integers by the invariant. -/
theorem bodyPollIsAccounted : Obligations.BodyPollIsAccounted := by
  intro s r q bs rest hinv hrx hp hst hans hin
  obtain ⟨-, hc, -⟩ := hinv.inPhase hrx
  refine ⟨_, (s.storeBody r bs).mem, accountElapsed_toNat hinv.params q.t0 q.t1 (hinv.withinBudget r hrx),
    fun k hk => ?_, fun a ha => read_storeBody_outside ha, fun size target hgoes => ?_⟩
  · have h := holds_putBuf s .rx (1 + r.got) bs k hk
    rwa [State.bufByte, Buf.base, ← Nat.add_assoc, ← Nat.add_assoc] at h
  · rw [step_left hrx hc hin, runRx_left_body rest hrx hp hst hans hgoes, failRx_of_noCmd (by exact hc), Nat.add_assoc]
    rfl

/-! ### Runs of polls -/

@[simp] theorem chunks_append (ps qs : List Poll) : chunks (ps ++ qs) = chunks ps ++ chunks qs := List.flatMap_append

@[simp] theorem chunks_cons (p : Poll) (ps : List Poll) : chunks (p :: ps) = p.chunk ++ chunks ps := rfl

@[simp] theorem chunks_nil : chunks [] = [] := rfl

theorem length_chunks_concat (ps : List Poll) (last : Poll) :
    (chunks (ps ++ [last])).length = (chunks ps).length + last.chunk.length := by
  simp

theorem answer_of_succeeded {p : Poll} (h : p.succeeded = true) : p.answer = .bytes p.chunk := by
  cases ha : p.answer with
  | negative => simp [Poll.succeeded, ha] at h
  | bytes bs => simp [Poll.chunk, ha]

/-- The events of a run of polls, the request of each smaller by what the polls before it brought, newest first. -/
def bodyEvents : Nat → PollStage → List Poll → List Event
  | _, _, [] => []
  | req, stage, p :: ps => bodyEvents (req - p.chunk.length) .start ps ++ p.leftEvents req stage

theorem bodyEvents_append (req : Nat) (stage : PollStage) (ps qs : List Poll) :
    bodyEvents req stage (ps ++ qs) =
      bodyEvents (req - (chunks ps).length) (stageAfter stage ps) qs ++ bodyEvents req stage ps := by
  induction ps generalizing req stage with
  | nil => exact (List.append_nil _).symm
  | cons p ps ih =>
    rw [List.cons_append, bodyEvents, ih, stageAfter_start, stageAfter, bodyEvents, chunks_cons, List.length_append,
      Nat.sub_sub, List.append_assoc]

/-- The hidden state after a run of polls that leaves the target as it is. -/
def Rx.took (r : Rx) (ps : List Poll) : Rx :=
  { r with got := r.got + (chunks ps).length, stage := stageAfter r.stage ps }

theorem Rx.took_cons (r : Rx) (p : Poll) (ps : List Poll) :
    r.took (p :: ps) = Rx.took { r with got := r.got + p.chunk.length, stage := .start } ps := by
  simp only [Rx.took, chunks_cons, List.length_append, Nat.add_assoc, stageAfter_start]
  rfl

theorem request_after {s : State} (r : Rx) (hp : s.phase = .body) (n : Nat) (stage : PollStage) :
    s.request { r with got := r.got + n, stage := stage } = s.request r - n := by
  simp only [State.request, hp]
  cases r.target <;> exact Nat.sub_add_eq _ _ _

/-- The state after a run of polls that leaves the target as it is. -/
def State.afterPolls (s : State) (r : Rx) (ps : List Poll) : State :=
  s.bodyAt r (chunks ps) s.rxsize (elapsedAfter s.elapsed ps) (r.took ps)
    (bodyEvents (s.request r) r.stage ps ++ s.history)

/-- A run of polls that bring fewer bytes than are missing (42_transceiver.md R183 to R185). -/
theorem runRx_body_short {s : State} {r : Rx} {ps : List Poll} (more : List Input) (hrx : s.rx = some r)
    (hp : s.phase = .body) (hrxlen : s.rxlen = BitVec.ofNat 16 (1 + r.got)) (hst : resumePolls r.stage ps)
    (hok : ∀ q ∈ ps, q.succeeded = true) (hlen : (chunks ps).length < s.request r)
    (hb : withinBudget (tmoEff s) s.elapsed ps = true) :
    State.runRx (leftMoves r.stage ps ++ more) s = State.runRx more (s.afterPolls r ps) := by
  induction ps generalizing s r with
  | nil => exact congrArg (State.runRx more) (bodyAt_nil hrx hrxlen).symm
  | cons p ps ih =>
    obtain ⟨hnow, hlater⟩ := withinBudget_cons.mp hb
    obtain ⟨hpok, hpsok⟩ := List.forall_mem_cons.mp hok
    rw [chunks_cons, List.length_append] at hlen
    have hgoes := bodyGoesOn_of_short (s := s) (r := r) (bs := p.chunk) hp (by omega)
    have hreq := request_after r hp p.chunk.length .start
    rw [leftMoves_cons, List.append_assoc, runRx_left_body _ hrx hp hst (answer_of_succeeded hpok) hgoes,
      if_neg (Nat.not_le.mpr hnow)]
    have hrest := ih (s := s.bodyAt r p.chunk s.rxsize (accountElapsed p.t0 p.t1 s.elapsed)
      { r with got := r.got + p.chunk.length, stage := .start } (p.leftEvents (s.request r) r.stage ++ s.history))
      rfl hp rfl (resumePolls_start ps) hpsok (by rw [request_bodyAt, hreq]; omega)
      (by rw [tmoEff_bodyAt]; exact hlater)
    rw [State.afterPolls, bodyAt_bodyAt rfl, request_bodyAt, hreq] at hrest
    simp only [bodyAt_rxsize, bodyAt_elapsed, bodyAt_history] at hrest
    rw [hrest, State.afterPolls, Rx.took_cons, bodyEvents, List.append_assoc]
    rfl

/-- A BODY phase runs and has received the bytes `pre` (10_state.md R42). -/
structure BodyReceived (s : State) (r : Rx) (pre : List Byte) : Prop where
  rx : s.rx = some r
  phase : s.phase = .body
  rxlen : s.rxlen = BitVec.ofNat 16 (1 + r.got)
  got : pre.length = r.got
  stored : s.holds .rx 1 pre

theorem State.Inv.bodyReceived {s : State} {r : Rx} {pre : List Byte} (h : s.Inv) (hrx : s.rx = some r)
    (hp : s.phase = .body) (hgot : pre.length = r.got) (hstored : s.holds .rx 1 pre) : BodyReceived s r pre := by
  have hphase := h.phaseFits r hrx
  simp only [phaseOk, hp] at hphase
  exact ⟨hrx, hp, by rw [← hphase.1, BitVec.ofNat_toNat, BitVec.setWidth_eq], hgot, hstored⟩

/-- The hidden state a BODY phase begins with (42_transceiver.md R183). -/
def Rx.fresh : Rx := { thenBody := false, got := 0, target := none, ack := [], stage := .start }

theorem bodyReceived_beginBody (s : State) : BodyReceived s.beginBody Rx.fresh [] :=
  ⟨rfl, rfl, rfl, rfl, nofun⟩

/-- The bytes a phase has stored are received. -/
theorem BodyReceived.bodyAt {s : State} {r r' : Rx} {pre : List Byte} (h : BodyReceived s r pre) (bs : List Byte)
    (size : Half) (e : Word) (hgot : r'.got = r.got + bs.length) (history : List Event) :
    BodyReceived (s.bodyAt r bs size e r' history) r' (pre ++ bs) where
  rx := rfl
  phase := h.phase
  rxlen := by rw [hgot]; rfl
  got := by rw [List.length_append, h.got, hgot]
  stored := holds_storeBody h.got h.stored bs

/-- A BODY phase that has stored `bs` after what `r` counts and has ended, the moves `is` still to come. -/
def State.bodyEnded (s : State) (r : Rx) (bs : List Byte) (size : Half) (elapsed : Word) (err : ErrCode)
    (is : List Input) (history : List Event) : State :=
  { s with mem := (s.storeBody r bs).mem, rxlen := BitVec.ofNat 16 (1 + (r.got + bs.length)), rxsize := size,
           elapsed := elapsed, phase := .idle, err := err, busy := false, cmd := none, rx := none, epoch := s.epoch + 1,
           inputs := is, history := history }

theorem bodyAt_bodyEnded {s : State} {r r' : Rx} {bs : List Byte} (hgot : r'.got = r.got + bs.length) (cs : List Byte)
    (size size' : Half) (e e' : Word) (h h' : List Event) (err : ErrCode) (is : List Input) :
    (s.bodyAt r bs size e r' h).bodyEnded r' cs size' e' err is h' = s.bodyEnded r (bs ++ cs) size' e' err is h' := by
  simp only [State.bodyEnded, State.bodyAt, storeBody_mem, hgot, writeRange_storeBody, List.length_append,
    Nat.add_assoc]

/-- The poll that brings the last byte of the frame completes the command (42_transceiver.md R176, R185). -/
theorem runRx_left_last {s : State} {r : Rx} {p : Poll} {bs : List Byte} (more : List Input) (hrx : s.rx = some r)
    (hp : s.phase = .body) (hst : p.resumes r.stage) (hans : p.answer = .bytes bs)
    (ht : r.target = some (r.got + bs.length)) :
    State.runRx (p.left r.stage ++ more) s =
      .next (s.bodyEnded r bs s.rxsize s.elapsed .ok more (p.leftEvents (s.request r) r.stage ++ s.history)) := by
  have hf : answerFits (s.request r) p.answer = true := by
    simp only [hans, answerFits, State.request, hp, ht, decide_eq_true_eq]
    omega
  rw [runRx_left p more hrx hst hf, hans, finishPoll_body (by exact hp), bodyBytes_last (by exact ht),
    runRx_idle _ (complete_rx _ _)]
  simp only [State.bodyEnded, State.complete, pollEnd, State.storeBody, State.putBuf]

/-- The poll that completes a size field above `MAX[g]` fails the phase (42_transceiver.md R186). -/
theorem runRx_left_oversize {s : State} {r : Rx} {p : Poll} {pre bs : List Byte} (more : List Input)
    (h : BodyReceived s r pre) (hst : p.resumes r.stage) (hans : p.answer = .bytes bs) (ht : r.target = none)
    (hlen : r.got + bs.length = sizeLen s.gen)
    (hsize : maxPayload s.params s.gen < (fieldValue s.gen (pre ++ bs)).toNat) :
    State.runRx (p.left r.stage ++ more) s =
      .next (s.bodyEnded r bs (fieldValue s.gen (pre ++ bs)) s.elapsed .protError more
        (.phyFlush :: (p.leftEvents (s.request r) r.stage ++ s.history))) := by
  have hf : answerFits (s.request r) p.answer = true := by
    simp only [hans, answerFits, State.request, h.phase, ht, decide_eq_true_eq]
    omega
  rw [runRx_left p more h.rx hst hf, hans, finishPoll_body (by exact h.phase),
    bodyBytes_field (pre := pre) (by exact h.got) (by exact h.stored) (by exact ht) (by exact hlen),
    bodySize_oversize (by exact hsize), runRx_idle _ (failRx_rx _ _)]
  simp only [State.bodyEnded, State.failRx, State.note, State.complete, pollEnd, State.storeBody, State.putBuf]

/-! ### Runs of polls that end with what is missing -/

@[simp] theorem afterPolls_gen (s : State) (r : Rx) (ps : List Poll) : (s.afterPolls r ps).gen = s.gen := rfl

@[simp] theorem tmoEff_afterPolls (s : State) (r : Rx) (ps : List Poll) : tmoEff (s.afterPolls r ps) = tmoEff s :=
  tmoEff_bodyAt _ _ _ _ _ _ _

theorem Rx.took_concat (r : Rx) (ps : List Poll) (last : Poll) :
    r.took (ps ++ [last]) = { r.took ps with got := (r.took ps).got + last.chunk.length, stage := .start } := by
  simp only [Rx.took, length_chunks_concat, stageAfter_concat, Nat.add_assoc]

theorem request_afterPolls {s : State} (r : Rx) (hp : s.phase = .body) (ps : List Poll) :
    (s.afterPolls r ps).request (r.took ps) = s.request r - (chunks ps).length := by
  rw [State.afterPolls, request_bodyAt, Rx.took, request_after r hp]

theorem afterPolls_events {s : State} {r : Rx} (hp : s.phase = .body) (ps : List Poll) (last : Poll) :
    last.leftEvents ((s.afterPolls r ps).request (r.took ps)) (r.took ps).stage ++ (s.afterPolls r ps).history =
      bodyEvents (s.request r) r.stage (ps ++ [last]) ++ s.history := by
  rw [request_afterPolls r hp, bodyEvents_append, List.append_assoc]
  rfl

theorem chunks_concat (ps : List Poll) (last : Poll) : chunks (ps ++ [last]) = chunks ps ++ last.chunk := by
  rw [chunks_append, chunks_cons, chunks_nil, List.append_nil]

/-- A run of polls up to its last. -/
theorem runRx_body_to_last {s : State} {r : Rx} {pre : List Byte} {ps : List Poll} {last : Poll} (more : List Input)
    (h : BodyReceived s r pre) (hst : resumePolls r.stage (ps ++ [last]))
    (hok : ∀ q ∈ ps ++ [last], q.succeeded = true) (hlast : last.chunk ≠ [])
    (hlen : (chunks (ps ++ [last])).length = s.request r) (hb : withinBudget (tmoEff s) s.elapsed ps = true) :
    State.runRx (leftMoves r.stage (ps ++ [last]) ++ more) s =
        State.runRx (last.left (r.took ps).stage ++ more) (s.afterPolls r ps) ∧
      BodyReceived (s.afterPolls r ps) (r.took ps) (pre ++ chunks ps) ∧ last.resumes (r.took ps).stage ∧
      last.answer = .bytes last.chunk := by
  obtain ⟨hps, hlastSt⟩ := resumePolls_append hst
  obtain ⟨hpsOk, hlastOk⟩ := List.forall_mem_append.mp hok
  have hpos : 0 < last.chunk.length := List.length_pos_iff.mpr hlast
  rw [length_chunks_concat] at hlen
  refine ⟨?_, h.bodyAt (chunks ps) s.rxsize _ rfl _, hlastSt,
    answer_of_succeeded (hlastOk last (List.mem_singleton_self last))⟩
  rw [leftMoves_append, List.append_assoc, runRx_body_short _ h.rx h.phase h.rxlen hps hpsOk (by omega) hb,
    leftMoves_cons, List.append_assoc]
  rfl

/-- A run of polls that completes a size field within `MAX[g]` (42_transceiver.md R183). -/
theorem runRx_body_field {s : State} {r : Rx} {pre : List Byte} {ps : List Poll} {last : Poll} {size : Half}
    (more : List Input) (h : BodyReceived s r pre) (ht : r.target = none) (hst : resumePolls r.stage (ps ++ [last]))
    (hok : ∀ q ∈ ps ++ [last], q.succeeded = true) (hlast : last.chunk ≠ [])
    (hlen : r.got + (chunks (ps ++ [last])).length = sizeLen s.gen)
    (hvalue : fieldValue s.gen (pre ++ chunks (ps ++ [last])) = size) (hsize : size.toNat ≤ maxPayload s.params s.gen)
    (hb : withinBudget (tmoEff s) s.elapsed (ps ++ [last]) = true) :
    State.runRx (leftMoves r.stage (ps ++ [last]) ++ more) s =
      State.runRx more (s.bodyAt r (chunks (ps ++ [last])) size (elapsedAfter s.elapsed (ps ++ [last]))
        { r.took (ps ++ [last]) with target := some (frameLen s.gen size.toNat - 1) }
        (bodyEvents (s.request r) r.stage (ps ++ [last]) ++ s.history)) := by
  obtain ⟨hbPs, hbLast⟩ := withinBudget_append.mp hb
  obtain ⟨hnow, -⟩ := withinBudget_cons.mp hbLast
  have hreq : (chunks (ps ++ [last])).length = s.request r := by
    simp only [State.request, h.phase, ht]
    omega
  obtain ⟨hrun, hrec, hresumes, hans⟩ := runRx_body_to_last more h hst hok hlast hreq hbPs
  have hgoes : bodyGoesOn (s.afterPolls r ps) (r.took ps) last.chunk size (some (frameLen s.gen size.toNat - 1)) := by
    refine .inr (.inr ⟨pre ++ chunks ps, ht, hrec.got, hrec.stored, ?_, ?_, hsize, rfl⟩)
    · rw [afterPolls_gen, ← hlen, length_chunks_concat, ← Nat.add_assoc]
      rfl
    · rw [afterPolls_gen, ← hvalue, chunks_append, chunks_cons, chunks_nil, List.append_nil, List.append_assoc]
  have hlate : ¬ tmoEff (s.afterPolls r ps) ≤
      (accountElapsed last.t0 last.t1 (s.afterPolls r ps).elapsed).toNat := by
    rw [tmoEff_afterPolls]
    exact Nat.not_le.mpr hnow
  rw [hrun, runRx_left_body more hrec.rx hrec.phase hresumes hans hgoes, if_neg hlate, afterPolls_events h.phase,
    State.afterPolls, bodyAt_bodyAt rfl, elapsedAfter_append, Rx.took_concat, chunks_concat]
  rfl

/-- A run of polls that completes the frame (42_transceiver.md R185). -/
theorem runRx_body_last {s : State} {r : Rx} {pre : List Byte} {ps : List Poll} {last : Poll} (more : List Input)
    (h : BodyReceived s r pre) (ht : r.target = some (r.got + (chunks (ps ++ [last])).length))
    (hst : resumePolls r.stage (ps ++ [last])) (hok : ∀ q ∈ ps ++ [last], q.succeeded = true)
    (hlast : last.chunk ≠ []) (hb : withinBudget (tmoEff s) s.elapsed ps = true) :
    State.runRx (leftMoves r.stage (ps ++ [last]) ++ more) s =
      .next (s.bodyEnded r (chunks (ps ++ [last])) s.rxsize (elapsedAfter s.elapsed ps) .ok more
        (bodyEvents (s.request r) r.stage (ps ++ [last]) ++ s.history)) := by
  have hreq : (chunks (ps ++ [last])).length = s.request r := by
    simp only [State.request, h.phase, ht]
    omega
  obtain ⟨hrun, hrec, hresumes, hans⟩ := runRx_body_to_last more h hst hok hlast hreq hb
  have ht' : (r.took ps).target = some ((r.took ps).got + last.chunk.length) := by
    rw [length_chunks_concat, ← Nat.add_assoc] at ht
    exact ht
  rw [hrun, runRx_left_last more hrec.rx hrec.phase hresumes hans ht', afterPolls_events h.phase, State.afterPolls,
    bodyAt_bodyEnded rfl, chunks_concat]
  rfl

/-- A run of polls that completes a size field above `MAX[g]` (42_transceiver.md R186). -/
theorem runRx_body_oversize {s : State} {r : Rx} {pre : List Byte} {ps : List Poll} {last : Poll} (more : List Input)
    (h : BodyReceived s r pre) (ht : r.target = none) (hst : resumePolls r.stage (ps ++ [last]))
    (hok : ∀ q ∈ ps ++ [last], q.succeeded = true) (hlast : last.chunk ≠ [])
    (hlen : r.got + (chunks (ps ++ [last])).length = sizeLen s.gen)
    (hsize : maxPayload s.params s.gen < (fieldValue s.gen (pre ++ chunks (ps ++ [last]))).toNat)
    (hb : withinBudget (tmoEff s) s.elapsed ps = true) :
    State.runRx (leftMoves r.stage (ps ++ [last]) ++ more) s =
      .next (s.bodyEnded r (chunks (ps ++ [last])) (fieldValue s.gen (pre ++ chunks (ps ++ [last])))
        (elapsedAfter s.elapsed ps) .protError more
        (.phyFlush :: (bodyEvents (s.request r) r.stage (ps ++ [last]) ++ s.history))) := by
  have hreq : (chunks (ps ++ [last])).length = s.request r := by
    simp only [State.request, h.phase, ht]
    omega
  obtain ⟨hrun, hrec, hresumes, hans⟩ := runRx_body_to_last more h hst hok hlast hreq hb
  have hlen' : (r.took ps).got + last.chunk.length = sizeLen (s.afterPolls r ps).gen := by
    rw [afterPolls_gen, ← hlen, length_chunks_concat, ← Nat.add_assoc]
    rfl
  have hfield : pre ++ chunks (ps ++ [last]) = pre ++ chunks ps ++ last.chunk := by simp
  rw [hfield] at hsize ⊢
  rw [hrun, runRx_left_oversize more hrec hresumes hans ht hlen' hsize, afterPolls_events h.phase, State.afterPolls,
    bodyAt_bodyEnded rfl, chunks_concat]
  rfl

end Sys2Proof.Machine
end

section
/-! Whole frames (42_transceiver.md R183 to R186, R190): RDBODY and RECV on a frame in any pieces, and on a size field
above `MAX[g]`. O30, O31 and O32. -/

namespace Sys2Proof.Machine

/-! ### Events without a flush -/

/-- Events without a flush, whose reads ask for at most `n` bytes. -/
def quietEvents (n : Nat) (events : List Event) : Prop :=
  flushes events = 0 ∧ ∀ m answer, .phyRead m answer ∈ events → m ≤ n

theorem flushes_append (as bs : List Event) : flushes (as ++ bs) = flushes as + flushes bs := List.countP_append

theorem quietEvents_append {n : Nat} {as bs : List Event} (ha : quietEvents n as) (hb : quietEvents n bs) :
    quietEvents n (as ++ bs) := by
  obtain ⟨hfa, hra⟩ := ha
  obtain ⟨hfb, hrb⟩ := hb
  exact ⟨by rw [flushes_append, hfa, hfb],
    fun m answer hm => (List.mem_append.mp hm).elim (hra m answer) (hrb m answer)⟩

theorem quietEvents_mono {m n : Nat} {events : List Event} (h : quietEvents m events) (hmn : m ≤ n) :
    quietEvents n events :=
  ⟨h.1, fun k answer hk => (h.2 k answer hk).trans hmn⟩

theorem quietEvents_leftEvents (p : Poll) (req : Nat) (stage : PollStage) :
    quietEvents req (p.leftEvents req stage) := by
  cases stage <;> simp [quietEvents, flushes, Poll.leftEvents, Poll.events]

theorem quietEvents_bodyEvents (req : Nat) (stage : PollStage) (ps : List Poll) :
    quietEvents req (bodyEvents req stage ps) := by
  induction ps generalizing req stage with
  | nil => exact ⟨rfl, nofun⟩
  | cons p ps ih =>
    exact quietEvents_append (quietEvents_mono (ih _ _) (Nat.sub_le _ _)) (quietEvents_leftEvents p req stage)

/-- What a run of polls with one request puts on a history. -/
theorem exists_leftOnto (req : Nat) (stage : PollStage) (ps : List Poll) (history : List Event) :
    ∃ added, leftOnto req stage ps history = added ++ history ∧ quietEvents req added := by
  induction ps generalizing stage history with
  | nil => exact ⟨[], rfl, rfl, nofun⟩
  | cons p ps ih =>
    obtain ⟨added, he, hquiet⟩ := ih .start (p.leftEvents req stage ++ history)
    exact ⟨added ++ p.leftEvents req stage, by rw [leftOnto_cons, he, List.append_assoc],
      quietEvents_append hquiet (quietEvents_leftEvents p req stage)⟩

/-! ### A frame in pieces -/

/-- Among polls that bring `n` bytes one brings the `n`-th. -/
theorem exists_filling_poll {ps : List Poll} {n : Nat} (hpos : 0 < n) (hn : (chunks ps).length = n) :
    ∃ before p after, ps = before ++ [p] ++ after ∧ p.chunk ≠ [] ∧ chunks (before ++ [p]) = chunks ps := by
  induction ps using List.reverseRecOn with
  | nil => simp at hn; omega
  | append_singleton ps p ih =>
    by_cases hp : p.chunk = []
    · have hsame : chunks (ps ++ [p]) = chunks ps := by simp [hp]
      rw [hsame] at hn
      obtain ⟨before, q, after, rfl, hq, hall⟩ := ih hn
      exact ⟨before, q, after ++ [p], (List.append_assoc _ _ _), hq, hall.trans hsame.symm⟩
    · exact ⟨ps, p, [], (List.append_nil _).symm, hp, rfl⟩

/-- A run of polls that completes a legal size field, and then one that completes the frame. -/
theorem runRx_body_field_last {s : State} {r : Rx} {pre : List Byte} {ps qs : List Poll} {p last : Poll} {size : Half}
    (rest : List Input) (h : BodyReceived s r pre) (ht : r.target = none) (hp : p.chunk ≠ []) (hlast : last.chunk ≠ [])
    (hfield : r.got + (chunks (ps ++ [p])).length = sizeLen s.gen)
    (hvalue : fieldValue s.gen (pre ++ chunks (ps ++ [p])) = size) (hsize : size.toNat ≤ maxPayload s.params s.gen)
    (hlen : 1 + (r.got + (chunks (ps ++ [p] ++ (qs ++ [last]))).length) = frameLen s.gen size.toNat)
    (hst : resumePolls r.stage (ps ++ [p] ++ (qs ++ [last])))
    (hok : ∀ q ∈ ps ++ [p] ++ (qs ++ [last]), q.succeeded = true)
    (hb : withinBudget (tmoEff s) s.elapsed (ps ++ [p] ++ qs) = true) :
    ∃ added, flushes added = 0 ∧
      State.runRx (leftMoves r.stage (ps ++ [p] ++ (qs ++ [last])) ++ rest) s =
        .next (s.bodyEnded r (chunks (ps ++ [p] ++ (qs ++ [last]))) size (elapsedAfter s.elapsed (ps ++ [p] ++ qs)) .ok
          rest (added ++ s.history)) := by
  obtain ⟨hstField, hstRest⟩ := resumePolls_append hst
  obtain ⟨hokField, hokRest⟩ := List.forall_mem_append.mp hok
  obtain ⟨hbField, hbRest⟩ := withinBudget_append.mp hb
  have htarget : some (frameLen s.gen size.toNat - 1) =
      some ((r.took (ps ++ [p])).got + (chunks (qs ++ [last])).length) := by
    rw [Rx.took, Nat.add_assoc, ← List.length_append, ← chunks_append, ← hlen, Nat.add_sub_cancel_left]
  have hrec := h.bodyAt (r' := { r.took (ps ++ [p]) with target := some (frameLen s.gen size.toNat - 1) })
    (chunks (ps ++ [p])) size (elapsedAfter s.elapsed (ps ++ [p])) rfl
    (bodyEvents (s.request r) r.stage (ps ++ [p]) ++ s.history)
  have hrest := runRx_body_last rest hrec htarget hstRest hokRest hlast (by rw [tmoEff_bodyAt]; exact hbRest)
  rw [bodyAt_bodyEnded rfl, bodyAt_history, ← List.append_assoc] at hrest
  rw [leftMoves_append, List.append_assoc, runRx_body_field (size := size) _ h ht hstField hokField hp hfield hvalue
    hsize hbField, chunks_append (ps ++ [p]), elapsedAfter_append _ (ps ++ [p])]
  refine ⟨_, ?_, hrest⟩
  rw [flushes_append, (quietEvents_bodyEvents _ _ _).1, (quietEvents_bodyEvents _ _ _).1]

/-- What a BODY phase that has received `pre` still expects of the frame: all of it, and then its first `k` polls bring
what is left of the size field; or, the size field received, the rest. -/
def expectsFrame (s : State) (r : Rx) (pre frame : List Byte) (size : Half) (early : List Poll) : Prop :=
  (r.target = none ∧ r.got < sizeLen s.gen ∧ fieldValue s.gen (frame.take (sizeLen s.gen)) = size ∧
    pre ++ chunks early = frame.take (sizeLen s.gen)) ∨
  (r.target = some frame.length ∧ s.rxsize = size)

/-- A BODY phase whose polls bring the rest of a legal frame stores it and completes at the poll that brings the last
byte (42_transceiver.md R183 to R185). -/
theorem runRx_body_frame {s : State} {r : Rx} {pre frame : List Byte} {ps : List Poll} {last : Poll} {size : Half}
    {k : Nat} (rest : List Input) (h : BodyReceived s r pre) (hsize : size.toNat ≤ maxPayload s.params s.gen)
    (hlen : 1 + frame.length = frameLen s.gen size.toNat) (hexpects : expectsFrame s r pre frame size (ps.take k))
    (hframe : pre ++ chunks (ps ++ [last]) = frame) (hst : resumePolls r.stage (ps ++ [last]))
    (hok : ∀ q ∈ ps ++ [last], q.succeeded = true) (hlast : last.chunk ≠ [])
    (hb : withinBudget (tmoEff s) s.elapsed ps = true) :
    ∃ added, flushes added = 0 ∧
      State.runRx (leftMoves r.stage (ps ++ [last]) ++ rest) s =
        .next (s.bodyEnded r (chunks (ps ++ [last])) size (elapsedAfter s.elapsed ps) .ok rest
          (added ++ s.history)) := by
  have htotal : r.got + (chunks (ps ++ [last])).length = frame.length := by
    rw [← hframe, List.length_append, h.got]
  rcases hexpects with ⟨ht, hgot, hvalue, hfield⟩ | ⟨ht, rfl⟩
  case inr =>
    exact ⟨_, (quietEvents_bodyEvents _ _ _).1, runRx_body_last rest h (by rw [ht, htotal]) hst hok hlast hb⟩
  case inl =>
    have hfieldLen : (frame.take (sizeLen s.gen)).length = sizeLen s.gen := by
      rw [frameLen_eq] at hlen
      rw [List.length_take]
      omega
    have hearly : r.got + (chunks (ps.take k)).length = sizeLen s.gen := by
      rw [← hfieldLen, ← hfield, List.length_append, h.got]
    obtain ⟨before, p, after, hsplit, hp, hbefore⟩ := exists_filling_poll (ps := ps.take k) (by omega) rfl
    obtain ⟨late, rfl⟩ : ∃ late, ps = before ++ [p] ++ late :=
      ⟨after ++ ps.drop k, by rw [← List.append_assoc, ← hsplit, List.take_append_drop]⟩
    rw [← hbefore] at hearly hfield
    rw [List.append_assoc] at hst hok htotal ⊢
    exact runRx_body_field_last rest h ht hp hlast hearly (by rw [hfield, hvalue]) hsize (by rw [htotal, hlen])
      hst hok hb

/-! ### What is stored -/

/-- What an ended BODY phase has changed, `n` being the bytes RXLEN counts. -/
theorem bodyEnded_eq {s : State} {r : Rx} {bs : List Byte} {n : Nat} (hn : 1 + (r.got + bs.length) = n) (size : Half)
    (e : Word) (err : ErrCode) (is : List Input) (history : List Event) :
    s.bodyEnded r bs size e err is history =
      { s with mem := (s.bodyEnded r bs size e err is history).mem, rxlen := BitVec.ofNat 16 n, rxsize := size,
               elapsed := e, phase := .idle, err := err, busy := false, cmd := none, rx := none, epoch := s.epoch + 1,
               inputs := is, history := history } := by
  subst hn
  rfl

/-- An ended BODY phase has stored `frame`, of which it had received `pre` before. -/
theorem stored_bodyEnded {s : State} {r : Rx} {pre bs frame : List Byte} (h : BodyReceived s r pre)
    (hframe : pre ++ bs = frame) (size : Half) (e : Word) (err : ErrCode) (is : List Input) (history : List Event) :
    (s.bodyEnded r bs size e err is history).holds .rx 1 frame ∧
      (∀ a, ¬ (0x3001 + r.got ≤ a ∧ a < 0x3001 + frame.length) →
        Memory.read (s.bodyEnded r bs size e err is history).mem a = Memory.read s.mem a) := by
  subst hframe
  have hgot := h.got
  refine ⟨holds_storeBody h.got h.stored bs, fun a ha => ?_⟩
  rw [List.length_append] at ha
  exact read_storeBody_outside (by omega)

theorem length_received {r : Rx} {pre bs frame : List Byte} (hgot : pre.length = r.got) (hframe : pre ++ bs = frame) :
    1 + (r.got + bs.length) = 1 + frame.length := by
  rw [← hframe, List.length_append, hgot]

/-- The beginning of the phase is not seen in its end. -/
theorem bodyEnded_beginBody (s : State) (r : Rx) (bs : List Byte) (size : Half) (e : Word) (err : ErrCode)
    (is : List Input) (history : List Event) :
    s.beginBody.bodyEnded r bs size e err is history = s.bodyEnded r bs size e err is history := rfl

/-- RECV's phases have ended: the marker and then `bs` are stored. -/
def State.recvEnded (s : State) (bs : List Byte) (size : Half) (e : Word) (err : ErrCode) (is : List Input)
    (history : List Event) : State :=
  (s.putBuf .rx 0 [startMarker s.params s.gen]).bodyEnded Rx.fresh bs size e err is history

theorem bodyEnded_markerStored (s : State) (r : Rx) (skipped : List Poll) (hit : Poll) (bs : List Byte) (size : Half)
    (e : Word) (err : ErrCode) (is : List Input) (history : List Event) :
    (s.markerStored r skipped hit).beginBody.bodyEnded Rx.fresh bs size e err is history =
      s.recvEnded bs size e err is history := by
  rw [bodyEnded_beginBody]
  rfl

theorem recvEnded_beginSeek (s : State) (b : Bool) (bs : List Byte) (size : Half) (e : Word) (err : ErrCode)
    (is : List Input) (history : List Event) :
    (s.beginSeek b).recvEnded bs size e err is history = s.recvEnded bs size e err is history := rfl

theorem recvEnded_eq {s : State} {bs : List Byte} {n : Nat} (hn : 1 + bs.length = n) (size : Half)
    (e : Word) (err : ErrCode) (is : List Input) (history : List Event) :
    s.recvEnded bs size e err is history =
      { s with mem := (s.recvEnded bs size e err is history).mem, rxlen := BitVec.ofNat 16 n, rxsize := size,
               elapsed := e, phase := .idle, err := err, busy := false, cmd := none, rx := none, epoch := s.epoch + 1,
               inputs := is, history := history } :=
  bodyEnded_eq (s := s.putBuf .rx 0 [startMarker s.params s.gen]) (by rw [← hn]; exact congrArg _ (Nat.zero_add _))
    size e err is history

theorem stored_recvEnded (s : State) (bs : List Byte) (size : Half) (e : Word) (err : ErrCode) (is : List Input)
    (history : List Event) :
    (s.recvEnded bs size e err is history).holds .rx 0 (startMarker s.params s.gen :: bs) ∧
      (∀ a, ¬ (0x3000 ≤ a ∧ a < 0x3001 + bs.length) →
        Memory.read (s.recvEnded bs size e err is history).mem a = Memory.read s.mem a) := by
  obtain ⟨hbody, houtside⟩ := stored_bodyEnded (bodyReceived_beginBody (s.putBuf .rx 0 [startMarker s.params s.gen]))
    (bs := bs) rfl size e err is history
  rw [bodyEnded_beginBody] at hbody houtside
  refine ⟨holds_append (as := [startMarker s.params s.gen]) (fun k hk => ?_) hbody, fun a ha => ?_⟩
  · obtain rfl : k = 0 := by simpa using hk
    exact (houtside 0x3000 (by simp only [Rx.fresh]; omega)).trans (holds_putBuf s .rx 0 _ 0 hk)
  · have hmarker := read_putBuf_outside s .rx 0 a [startMarker s.params s.gen]
      (by simp only [Buf.base, List.length_singleton]; omega)
    exact (houtside a fun hin => ha ⟨by omega, hin.2⟩).trans hmarker

/-! ### RDBODY -/

/-- Under the invariant a phase that goes on has either no target yet, or the frame's length as its target. -/
theorem expectsFrame_of_inv {s : State} {r : Rx} {pre frame : List Byte} {size : Half} {early : List Poll}
    (hinv : s.Inv) (hrx : s.rx = some r) (hp : s.phase = .body) (hlen : 1 + frame.length = frameLen s.gen size.toNat)
    (hnone : r.target = none → fieldValue s.gen (frame.take (sizeLen s.gen)) = size ∧
      pre ++ chunks early = frame.take (sizeLen s.gen))
    (hsome : r.target ≠ none → s.rxsize = size) : expectsFrame s r pre frame size early := by
  have hphase := hinv.phaseFits r hrx
  simp only [phaseOk, hp, bodyTargetOk] at hphase
  obtain ⟨-, -, htarget⟩ := hphase
  cases ht : r.target with
  | none =>
    simp only [ht] at htarget
    exact .inl ⟨ht, htarget, hnone ht⟩
  | some n =>
    simp only [ht] at htarget
    obtain ⟨-, hn, -⟩ := htarget
    have hsame := hsome (by simp [ht])
    rw [hsame, ← hlen, Nat.add_comm 1] at hn
    exact .inr ⟨by rw [ht, Nat.add_right_cancel hn], hsame⟩

/-- Settles O30: the phase expects the frame, when it begins and by the invariant when it goes on. -/
theorem rdbodyReceivesFrame : Obligations.RdbodyReceivesFrame := by
  intro s ps last k frame size rest hparams hsize hlen hok hlast
  rw [Nat.add_comm] at hlen
  refine ⟨fun hvalue hframe hfield hb hin => ?_, fun r pre hinv hrx hp hgot hstored hframe hnone hsome hst hb hin => ?_⟩
  · have hrec := bodyReceived_beginBody s
    obtain ⟨added, hquiet, hrun⟩ := runRx_body_frame (k := k) rest hrec hsize hlen
      (.inl ⟨rfl, sizeLen_pos s.gen, hvalue, hfield⟩) hframe (resumePolls_start _) hok hlast hb
    obtain ⟨hholds, houtside⟩ := stored_bodyEnded hrec hframe size (elapsedAfter 0 ps) .ok rest (added ++ s.history)
    rw [show leftMoves Rx.fresh.stage (ps ++ [last]) = pollMoves (ps ++ [last]) from leftMoves_start _, ← hin] at hrun
    exact ⟨_, added, hrun, bodyEnded_eq (s := s) ((length_received hrec.got hframe).trans hlen) size _ .ok rest _,
      hquiet, hholds, houtside⟩
  · obtain ⟨-, hc, -⟩ := hinv.inPhase hrx
    have hrec := hinv.bodyReceived hrx hp hgot hstored
    obtain ⟨added, hquiet, hrun⟩ := runRx_body_frame rest hrec hsize hlen
      (expectsFrame_of_inv hinv hrx hp hlen hnone hsome) hframe hst hok hlast hb
    obtain ⟨hholds, houtside⟩ := stored_bodyEnded hrec hframe size (elapsedAfter s.elapsed ps) .ok rest
      (added ++ s.history)
    rw [← step_leftMoves hrx hc (by simp) hin] at hrun
    refine ⟨_, added, hrun, ?_, hquiet, hholds, houtside⟩
    exact hc ▸ bodyEnded_eq ((length_received hgot hframe).trans hlen) size _ .ok rest _

/-! ### RECV -/

/-- A RECV that finds its marker goes on as RDBODY, its budget fresh (42_transceiver.md R177, R190). -/
theorem runRx_recv {s : State} {r : Rx} {skipped ps : List Poll} {hit : Poll} (rest : List Input)
    (hrx : s.rx = some r) (hp : s.phase = .seek) (hthen : r.thenBody = true)
    (hst : resumePolls r.stage (skipped ++ [hit]))
    (hmiss : ∀ q ∈ skipped, q.missesMarker (startMarker s.params s.gen) = true)
    (hhit : hit.answer = .bytes [startMarker s.params s.gen])
    (hb : withinBudget (tmoEff s) s.elapsed skipped = true) :
    State.runRx (leftMoves r.stage (skipped ++ [hit] ++ ps) ++ rest) s =
      State.runRx (leftMoves Rx.fresh.stage ps ++ rest) (s.markerStored r skipped hit).beginBody := by
  rw [leftMoves_append, List.append_assoc, runRx_seek_marker _ hrx hp hst hmiss hhit hb, if_pos hthen,
    stageAfter_concat]
  rfl

/-- The events of RECV's SEEK phase. -/
theorem exists_markerStored_history (s : State) (r : Rx) (skipped : List Poll) (hit : Poll) :
    ∃ added, (s.markerStored r skipped hit).beginBody.history = added ++ s.history ∧ quietEvents 1 added :=
  exists_leftOnto 1 r.stage (skipped ++ [hit]) s.history

/-- A SEEK phase of RECV whose polls bring the marker and then a legal frame. -/
theorem runRx_recv_frame {s : State} {r : Rx} {skipped ps : List Poll} {hit last : Poll} {k : Nat} {frame : List Byte}
    {size : Half} (rest : List Input) (hrx : s.rx = some r) (hp : s.phase = .seek) (hthen : r.thenBody = true)
    (hst : resumePolls r.stage (skipped ++ [hit]))
    (hmiss : ∀ q ∈ skipped, q.missesMarker (startMarker s.params s.gen) = true)
    (hhit : hit.answer = .bytes [startMarker s.params s.gen])
    (hb : withinBudget (tmoEff s) s.elapsed skipped = true) (hsize : size.toNat ≤ maxPayload s.params s.gen)
    (hlen : 1 + frame.length = frameLen s.gen size.toNat)
    (hvalue : fieldValue s.gen (frame.take (sizeLen s.gen)) = size)
    (hok : ∀ q ∈ ps ++ [last], q.succeeded = true) (hframe : chunks (ps ++ [last]) = frame)
    (hfield : chunks (ps.take k) = frame.take (sizeLen s.gen)) (hlast : last.chunk ≠ [])
    (hbBody : withinBudget (tmoEff s) 0 ps = true) :
    ∃ added, flushes added = 0 ∧
      State.runRx (leftMoves r.stage (skipped ++ [hit] ++ (ps ++ [last])) ++ rest) s =
        .next (s.recvEnded frame size (elapsedAfter 0 ps) .ok rest (added ++ s.history)) := by
  obtain ⟨found, hhistory, hfound, -⟩ := exists_markerStored_history s r skipped hit
  obtain ⟨added, hquiet, hrun⟩ := runRx_body_frame (k := k) rest (bodyReceived_beginBody (s.markerStored r skipped hit))
    hsize hlen (.inl ⟨rfl, sizeLen_pos s.gen, hvalue, hfield⟩) hframe (resumePolls_start _) hok hlast hbBody
  rw [bodyEnded_markerStored, hhistory, hframe, ← List.append_assoc] at hrun
  exact ⟨added ++ found, by rw [flushes_append, hquiet, hfound],
    (runRx_recv rest hrx hp hthen hst hmiss hhit hb).trans hrun⟩

/-- Settles O32: the marker ends the SEEK phase of RECV, whose BODY phase then receives the frame. -/
theorem recvReceivesFrame : Obligations.RecvReceivesFrame := by
  intro s skipped ps hit last k frame size rest hparams hsize hmiss hhit hlen hvalue hok hframe hfield hlast hbBody
  rw [Nat.add_comm] at hlen
  rw [List.append_assoc (skipped ++ [hit])]
  refine ⟨fun hb hin => ?_, fun r hinv hrx hp hthen hst hb hin => ?_⟩
  · obtain ⟨added, hquiet, hrun⟩ := runRx_recv_frame (s := s.beginSeek true) (skipped := skipped) rest rfl rfl rfl
      (resumePolls_start _) hmiss hhit hb hsize hlen hvalue hok hframe hfield hlast hbBody
    obtain ⟨hholds, houtside⟩ := stored_recvEnded s frame size (elapsedAfter 0 ps) .ok rest (added ++ s.history)
    rw [leftMoves_start, ← hin, recvEnded_beginSeek] at hrun
    exact ⟨_, added, hrun, recvEnded_eq hlen size _ .ok rest _, hquiet, hholds, houtside⟩
  · obtain ⟨-, hc, -⟩ := hinv.inPhase hrx
    obtain ⟨added, hquiet, hrun⟩ := runRx_recv_frame rest hrx hp hthen hst hmiss hhit hb hsize hlen hvalue hok hframe
      hfield hlast hbBody
    obtain ⟨hholds, houtside⟩ := stored_recvEnded s frame size (elapsedAfter 0 ps) .ok rest (added ++ s.history)
    rw [← step_leftMoves hrx hc (by simp) hin] at hrun
    exact ⟨_, added, hrun, hc ▸ recvEnded_eq hlen size _ .ok rest _, hquiet, hholds, houtside⟩

/-! ### A size field above the bound -/

/-- The reads of a BODY phase without a target ask for bytes of the size field only. -/
theorem quietEvents_field {s : State} {r : Rx} (hp : s.phase = .body) (ht : r.target = none) (ps : List Poll) :
    quietEvents (sizeLen s.gen) (bodyEvents (s.request r) r.stage ps) := by
  refine quietEvents_mono (quietEvents_bodyEvents _ _ _) ?_
  simp only [State.request, hp, ht]
  exact Nat.sub_le _ _

/-- A BODY phase whose polls bring the rest of a size field above `MAX[g]` fails (42_transceiver.md R186). -/
theorem runRx_body_badField {s : State} {r : Rx} {pre field : List Byte} {ps : List Poll} {last : Poll}
    (rest : List Input) (h : BodyReceived s r pre) (ht : r.target = none) (hlen : field.length = sizeLen s.gen)
    (hsize : maxPayload s.params s.gen < (fieldValue s.gen field).toNat) (hfield : pre ++ chunks (ps ++ [last]) = field)
    (hst : resumePolls r.stage (ps ++ [last])) (hok : ∀ q ∈ ps ++ [last], q.succeeded = true)
    (hlast : last.chunk ≠ []) (hb : withinBudget (tmoEff s) s.elapsed ps = true) :
    ∃ added, quietEvents (sizeLen s.gen) added ∧
      State.runRx (leftMoves r.stage (ps ++ [last]) ++ rest) s =
        .next (s.bodyEnded r (chunks (ps ++ [last])) (fieldValue s.gen field) (elapsedAfter s.elapsed ps) .protError
          rest (.phyFlush :: (added ++ s.history))) := by
  subst hfield
  rw [List.length_append, h.got] at hlen
  exact ⟨_, quietEvents_field h.phase ht _, runRx_body_oversize rest h ht hst hok hlast hlen hsize hb⟩

/-- Settles O31: the field's last byte fails the phase, in RDBODY, in RECV after its marker, and in a phase that goes
on. -/
theorem oversizeSizeFieldFails : Obligations.OversizeSizeFieldFails := by
  intro s ps last field size rest hlen hvalue hsize hok hlast
  subst hvalue
  refine ⟨fun hfield hb hin => ?_, fun skipped hit hmiss hbSeek hhit hfield hb hin => ?_,
    fun r pre hinv hrx hp ht hgot hstored hfield hst hb hin => ?_⟩
  · have hrec := bodyReceived_beginBody s
    obtain ⟨added, ⟨hquiet, hreads⟩, hrun⟩ := runRx_body_badField rest hrec rfl hlen hsize hfield (resumePolls_start _)
      hok hlast hb
    obtain ⟨hholds, houtside⟩ := stored_bodyEnded hrec hfield (fieldValue s.gen field) (elapsedAfter 0 ps) .protError
      rest (.phyFlush :: (added ++ s.history))
    rw [show leftMoves Rx.fresh.stage (ps ++ [last]) = pollMoves (ps ++ [last]) from leftMoves_start _, ← hin] at hrun
    rw [beginBody_gen, ← hlen] at hreads
    rw [← hlen]
    exact ⟨_, added, hrun, bodyEnded_eq (s := s) (length_received hrec.got hfield) _ _ .protError rest _, hquiet,
      hreads, hholds, houtside⟩
  · obtain ⟨found, hhistory, hfound⟩ := exists_markerStored_history (s.beginSeek true) Rx.fresh skipped hit
    obtain ⟨added, hadded, hrun⟩ := runRx_body_badField rest
      (bodyReceived_beginBody ((s.beginSeek true).markerStored Rx.fresh skipped hit)) rfl hlen hsize hfield
      (resumePolls_start _) hok hlast hb
    have hseek := runRx_recv (s := s.beginSeek true) (skipped := skipped) (hit := hit) (ps := ps ++ [last]) rest rfl rfl
      rfl (resumePolls_start _) hmiss hhit hbSeek
    obtain ⟨hquiet, hreads⟩ := quietEvents_append hadded (quietEvents_mono hfound (sizeLen_pos s.gen))
    obtain ⟨hholds, houtside⟩ := stored_recvEnded s field (fieldValue s.gen field) (elapsedAfter 0 ps) .protError rest
      (.phyFlush :: (added ++ found ++ s.history))
    rw [bodyEnded_markerStored, recvEnded_beginSeek, hhistory, hfield, ← List.append_assoc] at hrun
    rw [List.append_assoc (skipped ++ [hit]), ← leftMoves_start] at hin
    refine ⟨_, added ++ found, ?_, recvEnded_eq (congrArg _ hlen) _ _ .protError rest _, hquiet, hreads, hholds, ?_⟩
    · rw [← hin] at hseek
      exact hseek.trans hrun
    · exact hlen ▸ houtside
  · obtain ⟨-, hc, -⟩ := hinv.inPhase hrx
    have hrec := hinv.bodyReceived hrx hp hgot hstored
    obtain ⟨added, ⟨hquiet, hreads⟩, hrun⟩ := runRx_body_badField rest hrec ht hlen hsize hfield hst hok hlast hb
    obtain ⟨hholds, houtside⟩ := stored_bodyEnded hrec hfield (fieldValue s.gen field) (elapsedAfter s.elapsed ps)
      .protError rest (.phyFlush :: (added ++ s.history))
    rw [← step_leftMoves hrx hc (by simp) hin] at hrun
    rw [← hlen] at hreads ⊢
    exact ⟨_, added, hrun, hc ▸ bodyEnded_eq (length_received hgot hfield) _ _ .protError rest _, hquiet, hreads,
      hholds, houtside⟩

end Sys2Proof.Machine
end

section
/-! Messages (43_message.md R210 to R214): the frames a message is cut into, and what reassembly makes of them. O58 and
O59. -/

namespace Sys2Proof.Machine

/-! ### The end-of-message predicate -/

theorem endsMessage_eq_true_iff {p : Params} {g : Gen} {size : Nat} :
    endsMessage p g size = true ↔ size < maxPayload p g := decide_eq_true_iff

/-- A full frame does not end its message (43_message.md R210). -/
theorem endsMessage_maxPayload (p : Params) (g : Gen) : endsMessage p g (maxPayload p g) = false :=
  decide_eq_false (lt_irrefl _)

/-! ### Cutting a list into pieces of given sizes -/

theorem cutSizes_cons (k : Nat) (ks : List Nat) (bs : List Byte) :
    cutSizes (k :: ks) bs = bs.take k :: cutSizes ks (bs.drop k) := rfl

theorem flatten_cutSizes (ks : List Nat) (bs : List Byte) : (cutSizes ks bs).flatten = bs.take ks.sum := by
  induction ks generalizing bs with
  | nil => simp [cutSizes]
  | cons k ks ih => rw [cutSizes_cons, List.flatten_cons, ih, List.sum_cons, List.take_add]

theorem map_length_cutSizes {ks : List Nat} {bs : List Byte} (h : ks.sum ≤ bs.length) :
    (cutSizes ks bs).map List.length = ks := by
  induction ks generalizing bs with
  | nil => rfl
  | cons k ks ih =>
    rw [List.sum_cons] at h
    have hrest : ks.sum ≤ (bs.drop k).length := by rw [List.length_drop]; omega
    rw [cutSizes_cons, List.map_cons, ih hrest, List.length_take_of_le (by omega)]

/-! ### Segmentation -/

/-- The frame sizes of a message add up to its length. -/
theorem sum_segmentSizes (maxSize n : Nat) : (segmentSizes maxSize n).sum = n := by
  simp [segmentSizes, Nat.div_add_mod']

theorem flatten_segmentMessage (p : Params) (g : Gen) (msg : List Byte) : (segmentMessage p g msg).flatten = msg := by
  rw [segmentMessage, flatten_cutSizes, sum_segmentSizes, List.take_length]

theorem map_length_segmentMessage (p : Params) (g : Gen) (msg : List Byte) :
    (segmentMessage p g msg).map List.length = segmentSizes (maxPayload p g) msg.length :=
  map_length_cutSizes (sum_segmentSizes _ _).le

/-- Settles O58: the pieces' lengths are the sizes they are cut by, and their concatenation is the message. -/
theorem segmentationSound : Obligations.SegmentationSound := by
  intro p g msg hp
  have hsizes := map_length_segmentMessage p g msg
  obtain ⟨full, last, hcut, hfull, hlast⟩ := List.map_eq_append_iff.mp hsizes
  obtain ⟨short, rfl, hshort⟩ := List.map_eq_singleton_iff.mp hlast
  obtain ⟨hcount, heach⟩ := List.eq_replicate_iff.mp hfull
  refine ⟨full, short, hcut, by rwa [List.length_map] at hcount, fun f hf => ?_, hshort, ?_,
    flatten_segmentMessage p g msg⟩
  · have hlen : f.length = maxPayload p g := heach _ (List.mem_map_of_mem hf)
    exact ⟨hlen, hlen ▸ endsMessage_maxPayload p g⟩
  · exact endsMessage_eq_true_iff.mpr (hshort ▸ Nat.mod_lt _ (maxPayload_pos hp g))

/-! ### Reassembly -/

theorem reassemble_cons_of_ends {p : Params} {g : Gen} {f : List Byte} (h : endsMessage p g f.length = true)
    (room : Nat) (fs : List (List Byte)) : reassemble p g room (f :: fs) = f.take room := by
  rw [reassemble, if_pos h]

theorem reassemble_cons_of_full {p : Params} {g : Gen} {f : List Byte} (h : endsMessage p g f.length = false)
    (room : Nat) (fs : List (List Byte)) :
    reassemble p g room (f :: fs) = f.take room ++ reassemble p g (room - f.length) fs := by
  rw [reassemble, if_neg (by simp [h]), show room - min f.length room = room - f.length by omega]

/-- Reassembly reads the full frames and the first short one, whatever frames follow, and keeps what there is room
for (43_message.md R213). -/
theorem reassemble_full_append_short {p : Params} {g : Gen} {full : List (List Byte)} {short : List Byte}
    (hfull : ∀ f ∈ full, endsMessage p g f.length = false) (hshort : endsMessage p g short.length = true)
    (room : Nat) (more : List (List Byte)) :
    reassemble p g room (full ++ short :: more) = (full.flatten ++ short).take room := by
  induction full generalizing room with
  | nil => exact reassemble_cons_of_ends hshort room more
  | cons f fs ih =>
    obtain ⟨hf, hfs⟩ := List.forall_mem_cons.mp hfull
    calc reassemble p g room (f :: (fs ++ short :: more))
        = f.take room ++ (fs.flatten ++ short).take (room - f.length) := by
          rw [reassemble_cons_of_full hf, ih hfs]
      _ = ((f :: fs).flatten ++ short).take room := by
          rw [List.flatten_cons, List.append_assoc, List.take_append (l₁ := f)]

/-- Settles O59: a message's frames are full ones and a short one, whose bytes together are the message (O58). -/
theorem reassemblyGivesMessage : Obligations.ReassemblyGivesMessage := by
  intro p g msg room more hp
  obtain ⟨full, short, hcut, -, hfull, -, hshort, hflat⟩ := segmentationSound p g msg hp
  have hmsg : full.flatten ++ short = msg := by simpa [hcut] using hflat
  rw [hcut, List.append_assoc, List.singleton_append,
    reassemble_full_append_short (fun f hf => (hfull f hf).2) hshort, hmsg]

end Sys2Proof.Machine
end

section
/-! RXACK (44_ack.md R231 to R236): the record in any pieces, what its comparison writes, and what a step of the command
leaves unchanged. O33, O34 and O36. -/

namespace Sys2Proof.Machine

/-! ### Generation 1 -/

/-- Settles O34: of the cases of RXACK only the refusal has generation 1. -/
theorem rxackIllegalInGeneration1 : Obligations.RxackIllegalInGeneration1 := by
  intro s hp hr hgen
  rcases execRxack_cases s with ⟨-, he⟩ | ⟨hlater, -⟩ | ⟨hlater, -⟩
  · exact he.trans (congrArg Host.Outcome.next (complete_of_idle hp hr .illegal))
  · exact absurd hgen hlater
  · exact absurd hgen hlater

/-! ### The comparison of a record -/

/-- The high byte of a matching checksum field is 0, its low byte the checksum (44_ack.md R231, 30_encoding.md R107). -/
theorem wire16_eq_setWidth_iff {x y ck : Byte} : wire16 x y = ck.setWidth 16 ↔ x = ck ∧ y = 0 := by
  have hextend : wire16 ck 0 = ck.setWidth 16 := (BitVec.setWidth_eq_append (by decide)).symm
  rw [← hextend]
  exact ⟨wire16_inj, fun ⟨hx, hy⟩ => by rw [hx, hy]⟩

theorem ackRecord_of_match {s : State} {ck a0 a1 : Byte} (hck : s.lastck = some ck) (hmatch : a0 = ck ∧ a1 = 0)
    (a2 : Byte) :
    s.ackRecord [a0, a1, a2] =
      { s with ackck := a1 ++ a0, ackcode := a2, nak := rejects s.params s.gen a2 }.complete .ok := by
  have htrailer : trailerMatches (wire16 a0 a1) ck = true :=
    (trailerMatches_iff _ _).mpr (wire16_eq_setWidth_iff.mpr hmatch)
  rw [State.ackRecord, lastckOrFree_of_some hck, State.ackCompare]
  exact if_pos htrailer

theorem ackRecord_of_mismatch {s : State} {ck a0 a1 : Byte} (hck : s.lastck = some ck) (hno : ¬ (a0 = ck ∧ a1 = 0))
    (a2 : Byte) : s.ackRecord [a0, a1, a2] = { s with ackck := a1 ++ a0 }.failRx .protError := by
  have htrailer : ¬ trailerMatches (wire16 a0 a1) ck = true := fun htrue =>
    hno (wire16_eq_setWidth_iff.mp ((trailerMatches_iff _ _).mp htrue))
  rw [State.ackRecord, lastckOrFree_of_some hck, State.ackCompare]
  exact if_neg htrailer

/-- The comparison reads neither the hidden state nor the coming moves, and ends the command. -/
theorem ackCompare_withInputs (s : State) (rx : Option Rx) (is : List Input) (c : Half) (code ck : Byte) :
    { State.ackCompare { s with rx := rx } c code ck with inputs := is } =
      State.ackCompare { s with inputs := is } c code ck := by
  unfold State.ackCompare
  cases trailerMatches c ck <;> rfl

theorem ackRecord_withInputs (s : State) (rx : Option Rx) (is : List Input) (record : List Byte) :
    { State.ackRecord { s with rx := rx } record with inputs := is } = State.ackRecord { s with inputs := is } record :=
  ackCompare_withInputs s rx is _ _ _

theorem ackRecord_rx (s : State) (record : List Byte) : (s.ackRecord record).rx = none := by
  unfold State.ackRecord State.ackCompare
  split <;> rfl

/-! ### Runs of polls -/

/-- An ACK phase runs, NAK cleared, and `r` counts the bytes of the record it holds (10_state.md R42). -/
structure AckReceiving (s : State) (r : Rx) : Prop where
  rx : s.rx = some r
  phase : s.phase = .ack
  nak : s.nak = false
  got : r.ack.length = r.got

theorem ackReceiving_beginAck (s : State) : AckReceiving s.beginAck Rx.fresh := ⟨rfl, rfl, rfl, rfl⟩

/-- The ACK phase of a state that meets the invariant. -/
theorem State.Inv.ackReceiving {s : State} {r : Rx} (h : s.Inv) (hrx : s.rx = some r) (hp : s.phase = .ack) :
    s.gen ≠ .g1 ∧ AckReceiving s r := by
  have hphase := h.phaseFits r hrx
  simp only [phaseOk, hp] at hphase
  obtain ⟨hgen, -, hnak, hgot, -⟩ := hphase
  exact ⟨hgen, hrx, hp, hnak, hgot⟩

theorem request_ack {s : State} (h : s.phase = .ack) (r : Rx) : s.request r = ackLen - r.got := by
  simp only [State.request, h]

/-- The bytes that complete the record are taken with those before them (44_ack.md R231). -/
theorem finishPoll_ack_complete {s : State} {r : Rx} {bs : List Byte} (hp : s.phase = .ack)
    (h : r.got + bs.length = ackLen) (t0 t1 : Word) : s.finishPoll r t0 t1 (.bytes bs) = s.ackRecord (r.ack ++ bs) := by
  simp only [State.finishPoll, hp, State.ackBytes, if_pos h]

/-- The hidden state of an ACK phase after a run of polls that leaves the record incomplete. -/
def Rx.tookAck (r : Rx) (ps : List Poll) : Rx :=
  { r with got := r.got + (chunks ps).length, ack := r.ack ++ chunks ps, stage := stageAfter r.stage ps }

/-- An ACK phase after a run of polls that leaves the record incomplete. -/
def State.afterAckPolls (s : State) (r : Rx) (ps : List Poll) : State :=
  { s with elapsed := elapsedAfter s.elapsed ps, rx := some (r.tookAck ps),
           history := bodyEvents (ackLen - r.got) r.stage ps ++ s.history }

theorem afterAckPolls_nil {s : State} {r : Rx} (hrx : s.rx = some r) : s.afterAckPolls r [] = s := by
  simpa [State.afterAckPolls, Rx.tookAck, elapsedAfter, bodyEvents, stageAfter] using State.eta_rx hrx

@[simp] theorem stageAfter_cons (stage : PollStage) (p : Poll) (ps : List Poll) :
    stageAfter stage (p :: ps) = .start := rfl

theorem afterAckPolls_cons (s : State) (r : Rx) (p : Poll) (ps : List Poll) :
    (s.afterAckPolls r [p]).afterAckPolls (r.tookAck [p]) ps = s.afterAckPolls r (p :: ps) := by
  simp only [State.afterAckPolls, Rx.tookAck, elapsedAfter, bodyEvents, chunks_cons, chunks_nil, stageAfter_cons,
    stageAfter_start, List.append_nil, List.nil_append, List.append_assoc, List.length_append, Nat.add_assoc,
    Nat.sub_add_eq]

/-- A poll that leaves the record incomplete, within the budget. -/
theorem runRx_left_ack {s : State} {r : Rx} {p : Poll} (more : List Input) (hrx : s.rx = some r) (hp : s.phase = .ack)
    (hst : p.resumes r.stage) (hok : p.succeeded = true) (hlen : r.got + p.chunk.length < ackLen)
    (hb : (accountElapsed p.t0 p.t1 s.elapsed).toNat < tmoEff s) :
    State.runRx (p.left r.stage ++ more) s = State.runRx more (s.afterAckPolls r [p]) := by
  have hans := answer_of_succeeded hok
  have hf : answerFits (s.request r) p.answer = true := by
    rw [hans, request_ack hp]
    simp only [answerFits, decide_eq_true_eq]
    omega
  have hend := finishPoll_ack_incomplete (s := pollEnd s r p) (r := { r with stage := .ended p.t0 p.t1 p.answer })
    hp hlen p.t0 p.t1
  rw [← hans] at hend
  have hnow : ¬ tmoEff (pollEnd s r p) ≤ (accountElapsed p.t0 p.t1 (pollEnd s r p).elapsed).toNat :=
    Nat.not_le.mpr hb
  rw [runRx_left_account _ hrx hst hf hend, if_neg hnow]
  simp only [State.afterAckPolls, Rx.tookAck, pollEnd, request_ack hp, elapsedAfter, bodyEvents, chunks_cons, chunks_nil,
    stageAfter_cons, List.append_nil, List.nil_append]

/-- A run of polls that leaves the record incomplete, within the budget (44_ack.md R231). -/
theorem runRx_ack_short {s : State} {r : Rx} {ps : List Poll} (more : List Input) (hrx : s.rx = some r)
    (hp : s.phase = .ack) (hst : resumePolls r.stage ps) (hok : ∀ q ∈ ps, q.succeeded = true)
    (hlen : r.got + (chunks ps).length < ackLen) (hb : withinBudget (tmoEff s) s.elapsed ps = true) :
    State.runRx (leftMoves r.stage ps ++ more) s = State.runRx more (s.afterAckPolls r ps) := by
  induction ps generalizing s r with
  | nil => exact congrArg (State.runRx more) (afterAckPolls_nil hrx).symm
  | cons p ps ih =>
    obtain ⟨hnow, hlater⟩ := withinBudget_cons.mp hb
    obtain ⟨hpok, hpsok⟩ := List.forall_mem_cons.mp hok
    rw [chunks_cons, List.length_append] at hlen
    have hgot : (r.tookAck [p]).got = r.got + p.chunk.length := by simp [Rx.tookAck]
    rw [leftMoves_cons, List.append_assoc, runRx_left_ack _ hrx hp hst hpok (by omega) hnow]
    have hrest := ih (s := s.afterAckPolls r [p]) (r := r.tookAck [p]) rfl hp (resumePolls_start ps) hpsok
      (by rw [hgot]; omega) hlater
    exact hrest.trans (congrArg (State.runRx more) (afterAckPolls_cons s r p ps))

theorem request_afterAckPolls {s : State} (r : Rx) (hp : s.phase = .ack) (ps : List Poll) :
    (s.afterAckPolls r ps).request (r.tookAck ps) = ackLen - r.got - (chunks ps).length :=
  (request_ack hp _).trans (Nat.sub_add_eq _ _ _)

theorem afterAckPolls_events {s : State} (r : Rx) (hp : s.phase = .ack) (ps : List Poll) (last : Poll) :
    last.leftEvents ((s.afterAckPolls r ps).request (r.tookAck ps)) (r.tookAck ps).stage ++
        (s.afterAckPolls r ps).history =
      bodyEvents (ackLen - r.got) r.stage (ps ++ [last]) ++ s.history := by
  rw [request_afterAckPolls r hp, bodyEvents_append, List.append_assoc]
  rfl

/-- A run of polls whose last completes the record, which is then compared (44_ack.md R231). -/
theorem runRx_ack_record {s : State} {r : Rx} {ps : List Poll} {last : Poll} (more : List Input) (hrx : s.rx = some r)
    (hp : s.phase = .ack) (hst : resumePolls r.stage (ps ++ [last])) (hok : ∀ q ∈ ps ++ [last], q.succeeded = true)
    (hlast : last.chunk ≠ []) (hlen : r.got + (chunks (ps ++ [last])).length = ackLen)
    (hb : withinBudget (tmoEff s) s.elapsed ps = true) :
    State.runRx (leftMoves r.stage (ps ++ [last]) ++ more) s =
      .next (State.ackRecord { s with elapsed := elapsedAfter s.elapsed ps, inputs := more,
                                      history := bodyEvents (ackLen - r.got) r.stage (ps ++ [last]) ++ s.history }
        (r.ack ++ chunks (ps ++ [last]))) := by
  obtain ⟨hps, hlastSt⟩ := resumePolls_append hst
  obtain ⟨hpsOk, hlastOk⟩ := List.forall_mem_append.mp hok
  have hpos : 0 < last.chunk.length := List.length_pos_iff.mpr hlast
  have hans := answer_of_succeeded (hlastOk last (List.mem_singleton_self last))
  rw [length_chunks_concat, ← Nat.add_assoc] at hlen
  have hf : answerFits ((s.afterAckPolls r ps).request (r.tookAck ps)) last.answer = true := by
    rw [hans, request_afterAckPolls r hp]
    simp only [answerFits, decide_eq_true_eq]
    omega
  rw [leftMoves_append, List.append_assoc, runRx_ack_short _ hrx hp hps hpsOk (by omega) hb, leftMoves_cons,
    List.append_assoc]
  refine (runRx_left (r := r.tookAck ps) last more rfl hlastSt hf).trans ?_
  rw [hans, finishPoll_ack_complete (by exact hp) (by exact hlen), runRx_idle _ (ackRecord_rx _ _), pollEnd,
    afterAckPolls_events r hp, chunks_concat, ← List.append_assoc]
  exact congrArg Host.Outcome.next (ackRecord_withInputs
    { s with elapsed := elapsedAfter s.elapsed ps,
             history := bodyEvents (ackLen - r.got) r.stage (ps ++ [last]) ++ s.history } _ more _)

/-! ### A whole record -/

/-- `s` after an ACK phase that has ended, the moves `is` still to come. -/
def State.ackEnded (s : State) (ackck : Half) (ackcode : Byte) (nak : Bool) (elapsed : Word) (err : ErrCode)
    (is : List Input) (history : List Event) : State :=
  { s with ackck := ackck, ackcode := ackcode, nak := nak, elapsed := elapsed, phase := .idle, err := err, busy := false,
           cmd := none, rx := none, epoch := s.epoch + 1, inputs := is, history := history }

/-- An ACK phase whose polls bring the rest of the record `[a0, a1, a2]` (44_ack.md R231 to R233). -/
theorem runRx_ack {s : State} {r : Rx} {ps : List Poll} {last : Poll} {a0 a1 a2 ck : Byte} (rest : List Input)
    (h : AckReceiving s r) (hck : s.lastck = some ck) (hrecord : r.ack ++ chunks (ps ++ [last]) = [a0, a1, a2])
    (hst : resumePolls r.stage (ps ++ [last])) (hok : ∀ q ∈ ps ++ [last], q.succeeded = true)
    (hlast : last.chunk ≠ []) (hb : withinBudget (tmoEff s) s.elapsed ps = true) :
    ∃ t added, State.runRx (leftMoves r.stage (ps ++ [last]) ++ rest) s = .next t ∧ flushes added = 0 ∧
      (a0 = ck ∧ a1 = 0 →
        t = s.ackEnded (a1 ++ a0) a2 (decide (ackOk s.params s.gen ≠ some a2)) (elapsedAfter s.elapsed ps) .ok rest
          (added ++ s.history)) ∧
      (¬ (a0 = ck ∧ a1 = 0) →
        t = s.ackEnded (a1 ++ a0) s.ackcode false (elapsedAfter s.elapsed ps) .protError rest
          (.phyFlush :: (added ++ s.history))) := by
  have hlen : r.got + (chunks (ps ++ [last])).length = ackLen := by
    rw [← h.got, ← List.length_append, hrecord]
    rfl
  have hrun := runRx_ack_record rest h.rx h.phase hst hok hlast hlen hb
  obtain ⟨hquiet, -⟩ := quietEvents_bodyEvents (ackLen - r.got) r.stage (ps ++ [last])
  rw [hrecord] at hrun
  refine ⟨_, _, hrun, hquiet, fun hmatch => ?_, fun hno => ?_⟩
  · rw [ackRecord_of_match (by exact hck) hmatch]
    rfl
  · rw [ackRecord_of_mismatch (by exact hck) hno, ← h.nak]
    rfl

/-- Settles O33: the record is received from the beginning of the command, and by the invariant from any stage of a phase
that goes on. -/
theorem rxackReceivesRecord : Obligations.RxackReceivesRecord := by
  intro s ps last a0 a1 a2 ck rest hck hok hlast
  refine ⟨fun hgen hrecord hb hin => ?_, fun r hinv hrx hp hrecord hst hb hin => ?_⟩
  · obtain ⟨t, added, hrun, hends⟩ := runRx_ack rest (ackReceiving_beginAck s) hck hrecord (resumePolls_start _) hok hlast
      hb
    rw [show leftMoves Rx.fresh.stage (ps ++ [last]) = pollMoves (ps ++ [last]) from leftMoves_start _, ← hin] at hrun
    rcases execRxack_cases s with ⟨hg1, -⟩ | ⟨-, hnone, -⟩ | ⟨-, -, he⟩
    · exact absurd hg1 hgen
    · rw [hck] at hnone; cases hnone
    · exact ⟨t, added, he.trans hrun, hends⟩
  · obtain ⟨-, hc, -⟩ := hinv.inPhase hrx
    obtain ⟨t, added, hrun, hends⟩ := runRx_ack rest (hinv.ackReceiving hrx hp).2 hck hrecord hst hok hlast hb
    rw [← step_leftMoves hrx hc (by simp) hin] at hrun
    rw [State.ackEnded, State.ackEnded, ← hc] at hends
    exact ⟨t, added, hrun, hends⟩

/-! ### What a step of RXACK leaves unchanged -/

/-- `t` comes from `s` by the work of an ACK phase that has stored a field of the record only where it has compared a
complete one: it has ended with OK or PROT_ERROR (44_ack.md R231, R235). -/
structure State.KeepsRecord (s t : State) : Prop where
  phase : t.phase = .ack ∨ t.phase = .idle
  kept : t.busy = true ∨ t.err ∈ [ErrCode.phyError, .timeoutError, .illegal] →
    t.ackck = s.ackck ∧ t.ackcode = s.ackcode

/-- Only a complete record is stored. -/
theorem keepsRecord_finishPoll {s : State} (r : Rx) (hp : s.phase = .ack) (t0 t1 : Word) (answer : PhyAnswer) :
    s.KeepsRecord (s.finishPoll r t0 t1 answer) := by
  cases answer with
  | negative => exact ⟨.inr rfl, fun _ => ⟨rfl, rfl⟩⟩
  | bytes bs =>
    simp only [State.finishPoll, hp, State.ackBytes, State.ackRecord, State.ackCompare]
    split
    next hcomplete =>
      split
      next hmatch => exact ⟨.inr rfl, by simp⟩
      next hno => exact ⟨.inr rfl, by simp⟩
    next hmissing =>
      rcases account_cases s { r with got := r.got + bs.length, ack := r.ack ++ bs } t0 t1 with ⟨-, he⟩ | ⟨-, he⟩ <;>
        rw [he]
      · exact ⟨.inr rfl, fun _ => ⟨rfl, rfl⟩⟩
      · exact ⟨.inl hp, fun _ => ⟨rfl, rfl⟩⟩

/-- A run that begins in an ACK phase stores only a complete record. -/
theorem runRx_keepsRecord (is : List Input) {s t : State} (h : s.Inv) (hp : s.phase = .ack)
    (ht : State.runRx is s = .next t) : s.KeepsRecord t := by
  refine runRx_keeps_of_polls (R := s.KeepsRecord) ?_ ?_ ?_ is h ⟨.inl hp, fun _ => ⟨rfl, rfl⟩⟩ ht
  · exact fun u is hu => ⟨hu.phase, hu.kept⟩
  · exact fun u r stage history _ _ hu => ⟨hu.phase, hu.kept⟩
  · intro u r t0 t1 answer hinv hr _ hu
    obtain ⟨hbusy, -, hrunning⟩ := hinv.inPhase hr
    obtain ⟨hck, hcode⟩ := hu.kept (.inl hbusy)
    obtain ⟨hphase, hkept⟩ := keepsRecord_finishPoll r (hu.phase.resolve_right hrunning) t0 t1 answer
    exact ⟨hphase, by rwa [hck, hcode] at hkept⟩

/-- The ACK phase that a step of `s` begins or goes on with runs from `u`. -/
structure State.EntersAck (s u : State) : Prop where
  later : s.gen ≠ .g1
  inv : u.Inv
  phase : u.phase = .ack
  frame : u = s.withAck u
  ackck : u.ackck = s.ackck
  ackcode : u.ackcode = s.ackcode

/-- A step that begins or continues an RXACK is its refusal in generation 1, or a run of its phase. -/
theorem step_rxack {s t : State} (h : s.Inv) (ht : step s = .next t) (hmove : interrupts (nextMove s) = false)
    (hcause : begins s .rxack ∨ running s [.ack]) :
    (s.gen = .g1 ∧ ∃ is drawn, t = State.complete { s with inputs := is, drawn := drawn } .illegal) ∨
    (∃ is u, s.EntersAck u ∧ State.runRx is u = .next t) := by
  rcases hcause with hb | ⟨hrx, hphase⟩
  · obtain ⟨is, drawn, hstep⟩ := step_of_begins hb
    have hst := begins_starting h hb is drawn
    rw [hstep, exec] at ht
    rcases execRxack_cases { s with cmd := none, inputs := is, drawn := drawn } with
      ⟨hgen, he⟩ | ⟨-, -, he⟩ | ⟨hgen, hck, he⟩ <;> rw [he] at ht
    · cases ht
      exact .inl ⟨hgen, is, drawn, rfl⟩
    · cases ht
    · exact .inr ⟨is, _, ⟨hgen, beginAck_inv hst.toBase hst.busy hst.cmd hst.err hgen hck, rfl, rfl, rfl, rfl⟩, ht⟩
  · obtain ⟨r, hr⟩ := Option.isSome_iff_exists.mp hrx
    have hp : s.phase = .ack := List.mem_singleton.mp hphase
    obtain ⟨is, later, drawn, hstep⟩ := step_of_running hr (h.inPhase hr).2.1 hmove
    rw [hstep] at ht
    exact .inr ⟨is, _, ⟨(h.ackReceiving hr hp).1, Inv_env h later drawn s.draws s.hostData s.history, hp, rfl, rfl, rfl⟩,
      ht⟩

/-- Settles O36: a refusal only completes; a run stores only a complete record, and NAK is set only where it ends with
OK. -/
theorem rxackFrame : Obligations.RxackFrame := by
  intro s t h ht hmove hcause
  rcases step_rxack h ht hmove hcause with ⟨hgen, is, drawn, rfl⟩ | ⟨is, u, hu, hrun⟩
  · exact ⟨fun _ => ⟨rfl, rfl⟩, fun _ _ => rfl, fun hlater => absurd hgen hlater, rfl, rfl, rfl, rfl, rfl, rfl, rfl, rfl,
      rfl, rfl, rfl, rfl, rfl⟩
  · obtain ⟨hack, hnak⟩ := runRx_receivesAck is hu.inv hu.phase hrun
    have hkept := (runRx_keepsRecord is hu.inv hu.phase hrun).kept
    rw [hu.ackck, hu.ackcode] at hkept
    have hframe : t = s.withAck t := hack.frame.trans (congrArg (fun v => v.withAck t) hu.frame)
    have hfield : ∀ {α : Type} (f : State → α), f t = f (s.withAck t) := fun f => congrArg f hframe
    refine ⟨hkept, fun _ hgen => absurd hgen hu.later, fun _ hfails => ?_, hfield State.mem, hfield State.params,
      hfield State.gen, hfield State.timeout, hfield State.cken, hfield State.msgend, hfield State.cksum,
      hfield State.lastck, hfield State.frlen, hfield State.rxlen, hfield State.rxsize, hfield State.rxck,
      hfield State.hostData⟩
    by_contra hset
    obtain ⟨hbusy, hok, -⟩ := hnak (Bool.of_not_eq_false hset)
    exact hfails.elim (by simp [hbusy]) (absurd hok)

end Sys2Proof.Machine
end

section
/-! NOP and SETGEN (45_config.md R250, R251): what each writes, and which of their words are illegal. O6 and O7. -/

namespace Sys2Proof.Machine

/-! ### NOP -/

/-- A bit of ARG makes a NOP word illegal (30_encoding.md R93). -/
theorem decode_nop_reserved {w : Word} (hop : opField w = 0x00) (h : argField w ≠ 0) :
    decode w = .error (.reservedBits (argField w)) := by
  rw [decode, hop]
  exact if_neg h

/-- Settles O6: NOP and its illegal words both only complete, from an idle phase. -/
theorem nopResult : Obligations.NopResult := by
  intro s hp hr
  rw [← complete_of_idle hp hr .ok, ← complete_of_idle hp hr .illegal]
  exact ⟨rfl, decode_encode_eq .nop, fun w hop harg => startCommand_of_error (decode_nop_reserved hop harg)⟩

/-! ### SETGEN -/

/-- A generation's code as operand selects it (45_config.md R251). -/
theorem execSetgen_of_code {gen : Arg} {g : Gen} (h : gen.toNat = (genCode g).toNat) (s : State) :
    execSetgen gen s = .next ({ s with gen := g }.complete .ok) := by
  have hg := genOfArg_eq_some.mpr h
  rcases execSetgen_cases gen s with ⟨g', hg', he⟩ | ⟨hnone, -⟩
  · cases hg.symm.trans hg'
    exact he
  · cases hg.symm.trans hnone

/-- Any other operand is refused, and no generation is selected. -/
theorem execSetgen_of_outOfRange {gen : Arg} (h : gen.toNat = 0 ∨ 3 < gen.toNat) (s : State) :
    execSetgen gen s = .next (s.complete .illegal) := by
  have hg := genOfArg_eq_none.mpr h
  rcases execSetgen_cases gen s with ⟨g, hsome, -⟩ | ⟨-, he⟩
  · cases hg.symm.trans hsome
  · exact he

/-- The decoder leaves SETGEN's range to the command (45_config.md R251). -/
theorem decode_setgen {w : Word} (hop : opField w = 0x01) : decode w = .ok (.setgen (argField w)) := by
  rw [decode, hop]
  rfl

theorem classify_setgen {w : Word} (hop : opField w = 0x01)
    (h : 1 ≤ (argField w).toNat ∧ (argField w).toNat ≤ 3) : classify w = .ok (.setgen (argField w)) := by
  rw [classify, decode_setgen hop]
  exact if_pos (decide_eq_true h)

theorem classify_setgen_outOfRange {w : Word} (hop : opField w = 0x01)
    (h : ¬ (1 ≤ (argField w).toNat ∧ (argField w).toNat ≤ 3)) :
    classify w = .error (.operandRange (argField w)) := by
  rw [classify, decode_setgen hop]
  exact if_neg (ne_true_of_eq_false (decide_eq_false h))

/-- A SETGEN word with its operand out of range completes with ILLEGAL, by the command's own check. -/
theorem startCommand_setgen_outOfRange {w : Word} (hop : opField w = 0x01)
    (h : ¬ (1 ≤ (argField w).toNat ∧ (argField w).toNat ≤ 3)) (s : State) :
    startCommand s w = .next (s.complete .illegal) :=
  calc startCommand s w
    _ = execSetgen (argField w) { s with cmd := none } := startCommand_decoded (decode_setgen hop)
    _ = .next ({ s with cmd := none }.complete .illegal) := execSetgen_of_outOfRange (by omega) _
    _ = .next (s.complete .illegal) := rfl

/-- Settles O7: by whether the operand is a generation's code; the word's range is the command's. -/
theorem setgenResult : Obligations.SetgenResult := by
  intro s hp hr
  rw [← complete_of_idle hp hr .illegal]
  refine ⟨fun gen g hg => (execSetgen_of_code hg s).trans ?_, fun gen hgen => execSetgen_of_outOfRange hgen s,
    decode_encode_eq (.setgen 1), decode_encode_eq (.setgen 2), decode_encode_eq (.setgen 3), fun w hop =>
    ⟨fun hin => classify_setgen hop hin, fun hout =>
      ⟨⟨_, classify_setgen_outOfRange hop hout⟩, startCommand_setgen_outOfRange hop hout s⟩⟩⟩
  exact congrArg Host.Outcome.next (complete_of_idle (s := { s with gen := g }) hp hr .ok)

end Sys2Proof.Machine
end

section
/-! The refusals (60_exceptions.md R276) and the flush on error (R279). O4 and O38. -/

namespace Sys2Proof.Machine

/-! ### How a receive command ends -/

/-- How a receive command stands once a poll is processed, `history` being the events up to then: it goes on, it has
completed with OK, or it has failed and then flushed the PHY (42_transceiver.md R171, 60_exceptions.md R279). -/
inductive PollOutcome (history : List Event) (t : State) : Prop
  | goesOn (hbusy : t.busy = true) (hhistory : t.history = history)
  | done (hbusy : t.busy = false) (herr : t.err = .ok) (hhistory : t.history = history)
  | failed (hbusy : t.busy = false) (herr : t.err.flushed = true) (hhistory : t.history = .phyFlush :: history)

theorem pollOutcome_failRx (s : State) {e : ErrCode} (he : e.flushed = true) : PollOutcome s.history (s.failRx e) :=
  .failed rfl he rfl

theorem pollOutcome_account {s : State} (hb : s.busy = true) (r : Rx) (t0 t1 : Word) :
    PollOutcome s.history (s.account r t0 t1) := by
  rcases account_cases s r t0 t1 with ⟨-, he⟩ | ⟨-, he⟩ <;> rw [he]
  · exact .failed rfl rfl rfl
  · exact .goesOn hb rfl

theorem pollOutcome_seekBytes {s : State} (hb : s.busy = true) (r : Rx) (t0 t1 : Word) (bs : List Byte) :
    PollOutcome s.history (s.seekBytes r t0 t1 bs) := by
  unfold State.seekBytes
  split
  · split
    · exact .goesOn hb rfl
    · exact .done rfl rfl rfl
  · exact pollOutcome_account hb r t0 t1

theorem pollOutcome_bodyGoOn {s : State} (hb : s.busy = true) (r : Rx) (t0 t1 : Word) :
    PollOutcome s.history (s.bodyGoOn r t0 t1) := by
  unfold State.bodyGoOn
  split
  · exact .done rfl rfl rfl
  · exact pollOutcome_account hb r t0 t1

theorem pollOutcome_bodyBytes {s : State} (hb : s.busy = true) (r : Rx) (t0 t1 : Word) (bs : List Byte) :
    PollOutcome s.history (s.bodyBytes r t0 t1 bs) := by
  unfold State.bodyBytes State.bodySize
  split
  · split
    · exact .failed rfl rfl rfl
    · exact pollOutcome_bodyGoOn (s := { s.storeBody r bs with rxsize := _ }) hb _ t0 t1
  · exact pollOutcome_bodyGoOn (s := s.storeBody r bs) hb _ t0 t1

theorem pollOutcome_ackBytes {s : State} (hb : s.busy = true) (r : Rx) (t0 t1 : Word) (bs : List Byte) :
    PollOutcome s.history (s.ackBytes r t0 t1 bs) := by
  unfold State.ackBytes State.ackRecord State.ackCompare
  split
  · split
    · exact .done rfl rfl rfl
    · exact .failed rfl rfl rfl
  · exact pollOutcome_account hb _ t0 t1

theorem pollOutcome_finishPoll {s : State} (hb : s.busy = true) (r : Rx) (t0 t1 : Word) (answer : PhyAnswer) :
    PollOutcome s.history (s.finishPoll r t0 t1 answer) := by
  cases answer with
  | negative => exact pollOutcome_failRx s rfl
  | bytes bs =>
    simp only [State.finishPoll]
    split
    · exact .goesOn hb rfl
    · exact pollOutcome_seekBytes hb r t0 t1 bs
    · exact pollOutcome_bodyBytes hb r t0 t1 bs
    · exact pollOutcome_ackBytes hb r t0 t1 bs

/-- How a receive command stands after a run of moves, its events put on top of `history`: no event of the run but
that of its failure is a flush. -/
def RunOutcome (history : List Event) (t : State) : Prop :=
  ∃ added, flushes added = 0 ∧ PollOutcome (added ++ history) t

theorem runOutcome_of_busy {s : State} (hb : s.busy = true) : RunOutcome s.history s := ⟨[], rfl, .goesOn hb rfl⟩

theorem runOutcome_withInputs {history : List Event} {t : State} (h : RunOutcome history t) (is : List Input) :
    RunOutcome history { t with inputs := is } := by
  obtain ⟨added, hquiet, h⟩ := h
  refine ⟨added, hquiet, ?_⟩
  cases h with
  | goesOn hb hh => exact .goesOn hb hh
  | done hb he hh => exact .done hb he hh
  | failed hb he hh => exact .failed hb he hh

/-- A running command has flushed nothing yet. -/
theorem history_of_runOutcome {history : List Event} {t : State} (h : RunOutcome history t) (hb : t.busy = true) :
    ∃ added, flushes added = 0 ∧ t.history = added ++ history := by
  obtain ⟨added, hquiet, h⟩ := h
  cases h with
  | goesOn _ hh => exact ⟨added, hquiet, hh⟩
  | done hno => cases hb.symm.trans hno
  | failed hno => cases hb.symm.trans hno

/-- A clock sample or an answer is no flush, and only the end of a poll ends the command. -/
theorem receiveInput_outcome {history : List Event} {s t : State} {r : Rx} {i : Input} (hb : s.busy = true)
    (h : RunOutcome history s) (ht : s.receiveInput r i = .next t) : RunOutcome history t := by
  obtain ⟨added, hquiet, hh⟩ := history_of_runOutcome h hb
  rcases receiveInput_cases ht with rfl | ⟨t0, -, -, rfl⟩ | ⟨t0, answer, -, -, -, rfl⟩ |
    ⟨t0, t1, answer, -, -, rfl⟩ | ⟨t0, t1, answer, -, -, rfl⟩
  · exact h
  · exact ⟨.clock t0 :: added, by simpa [flushes] using hquiet, .goesOn hb (congrArg _ hh)⟩
  · exact ⟨.phyRead (s.request r) answer :: added, by simpa [flushes] using hquiet, .goesOn hb (congrArg _ hh)⟩
  · exact ⟨.clock t1 :: added, by simpa [flushes] using hquiet, .goesOn hb (congrArg _ hh)⟩
  · exact ⟨added, hquiet, hh ▸ pollOutcome_finishPoll hb r t0 t1 answer⟩

/-- A run of a receive command flushes exactly where it fails (60_exceptions.md R279). -/
theorem runRx_outcome (is : List Input) {s t : State} (h : s.Inv) (hb : s.busy = true)
    (ht : State.runRx is s = .next t) : RunOutcome s.history t := by
  refine (runRx_keeps (P := fun u => u.Inv ∧ RunOutcome s.history u) ?_ ?_ is ⟨h, runOutcome_of_busy hb⟩ ht).2
  · exact fun u is ⟨hu, ho⟩ => ⟨hu.withInputs is, runOutcome_withInputs ho is⟩
  · exact fun u r i v ⟨hu, ho⟩ hr _ hv => ⟨receiveInput_inv hu hr hv, receiveInput_outcome (hu.inPhase hr).1 ho hv⟩

/-- A run never ends with ILLEGAL. -/
theorem err_ne_illegal_of_runOutcome {history : List Event} {t : State} (h : RunOutcome history t)
    (hb : t.busy = false) : t.err ≠ .illegal := by
  obtain ⟨added, -, h⟩ := h
  cases h with
  | goesOn hno => cases hb.symm.trans hno
  | done _ he => simp [he]
  | failed _ he => intro hill; simp [hill, ErrCode.flushed] at he

/-- A receive command that answers where it begins is an RXACK refused in generation 1, or a run. -/
theorem exec_receive_outcome {i : Instr} {s t : State} (hi : i ∈ [Instr.seek, .rdbody, .recv, .rxack])
    (h : s.Starting) (ht : exec i s = .next t) :
    (i = .rxack ∧ s.gen = .g1 ∧ t = s.complete .illegal) ∨ RunOutcome s.history t := by
  simp only [List.mem_cons, List.not_mem_nil, or_false] at hi
  rcases hi with rfl | rfl | rfl | rfl
  · exact .inr (runRx_outcome _ (beginSeek_inv h.toBase h.busy h.cmd h.err false) h.busy ht :)
  · exact .inr (runRx_outcome _ (beginBody_inv h.toBase h.busy h.cmd h.err) h.busy ht :)
  · exact .inr (runRx_outcome _ (beginSeek_inv h.toBase h.busy h.cmd h.err true) h.busy ht :)
  · rcases execRxack_cases s with ⟨hgen, he⟩ | ⟨-, -, he⟩ | ⟨hgen, hck, he⟩ <;> rw [exec, he] at ht
    · cases ht; exact .inl ⟨rfl, hgen, rfl⟩
    · cases ht
    · exact .inr (runRx_outcome _ (beginAck_inv h.toBase h.busy h.cmd h.err hgen hck) h.busy ht :)

/-! ### The flush -/

/-- The step from `s` to `t` is one in which a receive command fails. -/
def failsReceive (s t : State) : Prop := receives s ∧ t.busy = false ∧ t.err.flushed = true

/-- The step from `s` to `t` flushes as R279 says. -/
def FlushesOnFailure (s t : State) : Prop :=
  (failsReceive s t → ∃ added, t.history = .phyFlush :: (added ++ s.history) ∧ flushes added = 0) ∧
  (¬ failsReceive s t → ∃ added, t.history = added ++ s.history ∧ flushes added = 0)

theorem flushesOnFailure_of_noEvent {s t : State} (hh : t.history = s.history) (hno : ¬ failsReceive s t) :
    FlushesOnFailure s t :=
  ⟨fun hfails => absurd hfails hno, fun _ => ⟨[], hh, rfl⟩⟩

theorem flushesOnFailure_of_run {s t : State} (hs : receives s) (h : RunOutcome s.history t) :
    FlushesOnFailure s t := by
  obtain ⟨added, hquiet, h⟩ := h
  cases h with
  | goesOn hb hh => exact ⟨fun ⟨_, hno, _⟩ => (by cases hb.symm.trans hno), fun _ => ⟨added, hh, hquiet⟩⟩
  | done hb he hh => exact ⟨fun ⟨_, _, hno⟩ => (by simp [he, ErrCode.flushed] at hno), fun _ => ⟨added, hh, hquiet⟩⟩
  | failed hb he hh => exact ⟨fun _ => ⟨added, hh, hquiet⟩, fun hno => absurd ⟨hs, hb, he⟩ hno⟩

theorem not_failsReceive_of_busy {s t : State} (hb : t.busy = true) : ¬ failsReceive s t :=
  fun ⟨_, hidle, _⟩ => by cases hb.symm.trans hidle

/-- While a receive command begins or runs, BUSY is set. -/
theorem busy_of_receives {s : State} (h : s.Inv) (hs : receives s) : s.busy = true := by
  have hbegins : ∀ {i}, begins s i → s.busy = true := fun hb =>
    let ⟨_, hw⟩ := begins_cmd hb
    (h.captured hw).1
  rcases hs with hb | hb | hb | hb | ⟨hrx, -⟩
  · exact hbegins hb
  · exact hbegins hb
  · exact hbegins hb
  · exact hbegins hb
  · obtain ⟨r, hr⟩ := Option.isSome_iff_exists.mp hrx
    exact (h.inPhase hr).1

/-- Where a command begins, the step receives exactly when the command does. -/
theorem receives_iff_of_begins {s : State} {i : Instr} (h : s.Inv) (hb : begins s i) :
    receives s ↔ i ∈ [Instr.seek, .rdbody, .recv, .rxack] := by
  simp only [List.mem_cons, List.not_mem_nil, or_false]
  constructor
  · rintro (hb' | hb' | hb' | hb' | hrun)
    · exact .inl (begins_unique hb hb')
    · exact .inr (.inl (begins_unique hb hb'))
    · exact .inr (.inr (.inl (begins_unique hb hb')))
    · exact .inr (.inr (.inr (begins_unique hb hb')))
    · exact absurd hrun (not_running_of_begins h hb _)
  · rintro (rfl | rfl | rfl | rfl)
    · exact .inl hb
    · exact .inr (.inl hb)
    · exact .inr (.inr (.inl hb))
    · exact .inr (.inr (.inr (.inl hb)))

theorem receives_of_running {s : State} {r : Rx} (h : s.Inv) (hr : s.rx = some r) : receives s := by
  rcases running_phase h hr with ⟨-, hrun⟩ | ⟨-, hrun⟩
  · exact .inr (.inr (.inr (.inr (running_mono hrun (by simp)))))
  · exact .inr (.inr (.inr (.inr (running_mono hrun (by simp)))))

/-- A command that begins flushes only where it is a receive command that fails. -/
theorem begins_flushesOnFailure {s t : State} {i : Instr} {is : List Input} {drawn : Nat} (h : s.Inv)
    (hb : begins s i) (ht : exec i { s with cmd := none, inputs := is, drawn := drawn } = .next t) :
    FlushesOnFailure s t := by
  by_cases hi : i ∈ [Instr.seek, .rdbody, .recv, .rxack]
  · rcases exec_receive_outcome hi (begins_starting h hb is drawn) ht with ⟨-, -, rfl⟩ | hrun
    · exact flushesOnFailure_of_noEvent rfl fun ⟨_, _, hno⟩ => by cases hno
    · exact flushesOnFailure_of_run ((receives_iff_of_begins h hb).mpr hi) hrun
  · have hno : ¬ receives s := fun hs => hi ((receives_iff_of_begins h hb).mp hs)
    simp only [List.mem_cons, List.not_mem_nil, or_false, not_or] at hi
    obtain ⟨hseek, hrdbody, hrecv, hrxack⟩ := hi
    obtain ⟨u, e, rfl, hh, -⟩ := exec_completes_without_event hseek hrdbody hrecv hrxack ht
    exact flushesOnFailure_of_noEvent hh fun hfails => hno hfails.1

/-- Settles O38: by what the step does; only a run of a receive command makes events, and it flushes where it fails. -/
theorem flushExactlyOnError : Obligations.FlushExactlyOnError := by
  intro s t h ht
  show FlushesOnFailure s t
  have hbusy : failsReceive s t → s.busy = true := fun hfails => busy_of_receives h hfails.1
  by_cases hreset : nextMove s = .reset
  · obtain ⟨rest, drawn, he⟩ := step_eq_react_drawn s
    rw [he, hreset] at ht
    cases ht
    exact flushesOnFailure_of_noEvent rfl fun ⟨_, _, hno⟩ => by cases hno
  · cases step_stepCase ht hreset with
    | unseen is drawn he =>
      refine flushesOnFailure_of_noEvent (s := s) (congrArg State.history he :) fun hfails => ?_
      exact not_failsReceive_of_busy ((congrArg State.busy he :).trans (hbusy hfails)) hfails
    | host a is drawn hmove ha =>
      refine flushesOnFailure_of_noEvent (s := s) (congrArg State.history (hostAccess_frame ha) :) fun hfails => ?_
      exact not_failsReceive_of_busy (hostAccess_keeps_busy ha (hbusy hfails)) hfails
    | illegal w is drawn hmove hw he =>
      subst he
      exact flushesOnFailure_of_noEvent rfl fun ⟨_, _, hno⟩ => by cases hno
    | begins i is drawn hb hexec => exact begins_flushesOnFailure h hb hexec
    | runs r is later drawn hmove hr hrun =>
      have hinv := Inv_env h later drawn s.draws s.hostData s.history
      exact flushesOnFailure_of_run (receives_of_running h hr) (runRx_outcome is hinv (h.inPhase hr).1 hrun :)

/-! ### Refusals -/

/-- The value check of a legal word's command refuses it (60_exceptions.md R276). -/
def valueRefused (i : Instr) (s : State) : Prop :=
  match i with
  | .cksum _ n => s.params.bufBytes < n.toNat
  | .encode size => maxPayload s.params s.gen < size.toNat
  | .decode n => s.params.bufBytes < n.toNat
  | .rxack => s.gen = .g1
  | _ => False

/-- SETCK takes the operands 0 and 1 and refuses every other (45_config.md R253). -/
theorem execSetck_outcomes (en : Arg) (s : State) :
    (en.toNat ≤ 1 ∧ ∃ b, execSetck en s = .next ({ s with cken := b }.complete .ok)) ∨
    (1 < en.toNat ∧ execSetck en s = .next (s.complete .illegal)) := by
  unfold execSetck
  split
  next h0 => exact .inl ⟨by simp [h0], _, rfl⟩
  next h0 =>
    split
    next h1 => exact .inl ⟨by simp [h1], _, rfl⟩
    next h1 => exact .inr ⟨by bv_omega, rfl⟩

/-- A command with its operand out of range is refused by its own check (45_config.md R251, R253). -/
theorem exec_of_not_wellFormed {i : Instr} (hi : i.wellFormed = false) (s : State) :
    exec i s = .next (s.complete .illegal) := by
  cases i with
  | setgen gen => exact execSetgen_of_outOfRange (by have := of_decide_eq_false hi; omega) s
  | setck en =>
    have hrange := of_decide_eq_false hi
    rcases execSetck_outcomes en s with ⟨hle, -⟩ | ⟨-, he⟩
    · exact absurd hle hrange
    · exact he
  | _ => cases hi

theorem exec_of_valueRefused {i : Instr} {s : State} (hi : valueRefused i s) :
    exec i s = .next (s.complete .illegal) := by
  cases i with
  | cksum sel n => exact execCksum_of_oversize sel hi
  | encode size => exact execEncode_of_oversize hi
  | decode n => exact execDecode_of_oversize hi
  | rxack => exact if_pos hi
  | _ => exact hi.elim

/-- A command that completes with ILLEGAL has its operand out of range, or its value check refuses it. -/
theorem refused_of_exec_illegal {i : Instr} {s t : State} (h : s.Starting) (ht : exec i s = .next t)
    (hb : t.busy = false) (he : t.err = .illegal) : i.wellFormed = false ∨ valueRefused i s := by
  have hreceive : i ∈ [Instr.seek, .rdbody, .recv, .rxack] → i.wellFormed = false ∨ valueRefused i s := fun hi => by
    rcases exec_receive_outcome hi h ht with ⟨rfl, hgen, -⟩ | hrun
    · exact .inr hgen
    · exact absurd he (err_ne_illegal_of_runOutcome hrun hb)
  cases i with
  | nop => cases ht; cases he
  | setgen gen =>
    rcases execSetgen_cases gen s with ⟨g, -, hexec⟩ | ⟨hnone, -⟩
    · cases hexec.symm.trans ht; cases he
    · have := genOfArg_eq_none.mp hnone
      exact .inl (decide_eq_false (by omega))
  | settmo ms => cases ht; cases he
  | setck en =>
    rcases execSetck_outcomes en s with ⟨-, b, hexec⟩ | ⟨hgt, -⟩
    · cases hexec.symm.trans ht; cases he
    · exact .inl (decide_eq_false (Nat.not_le.mpr hgt))
  | cksum sel n =>
    rcases execCksum_cases sel n s with ⟨hgt, -⟩ | ⟨-, -, hexec⟩ | ⟨bs, -, -, hexec⟩
    · exact .inr hgt
    · cases hexec.symm.trans ht
    · cases hexec.symm.trans ht; cases he
  | encode size =>
    rcases execEncode_cases size s with ⟨hgt, -⟩ | ⟨-, -, hexec⟩ | ⟨body, -, -, hexec⟩
    · exact .inr hgt
    · cases hexec.symm.trans ht
    · cases hexec.symm.trans ht; cases he
  | decode n =>
    obtain ⟨m, size, ck, e, rfl, hcode⟩ := execDecode_cases ht
    obtain rfl : e = .illegal := he
    rcases hcode with hno | hno | ⟨-, hgt⟩
    · cases hno
    · cases hno
    · exact .inr hgt
  | _ => exact hreceive (by simp)

theorem classify_isError_of_not_wellFormed {w : Word} {i : Instr} (hd : decode w = .ok i) (hi : i.wellFormed = false) :
    ∃ e, classify w = .error e := by
  simp [classify, hd, hi]

/-- An illegal word has no command, or one with its operand out of range (30_encoding.md R93). -/
theorem decode_of_classify_isError {w : Word} (h : ∃ e, classify w = .error e) :
    (∃ e, decode w = .error e) ∨ ∃ i, decode w = .ok i ∧ i.wellFormed = false := by
  cases hd : decode w with
  | error e => exact .inl ⟨e, rfl⟩
  | ok i =>
    refine .inr ⟨i, rfl, Bool.eq_false_iff.mpr fun hwf => ?_⟩
    simp [classify, hd, hwf] at h

theorem badWord_iff_classify_isError {w : Word} : badWord w ↔ ∃ e, classify w = .error e :=
  badWord_iff_not_encoded.trans classify_isError_iff.symm

/-- The causes of R276: the word is illegal, or its command's value check refuses it. -/
theorem illegalCause_iff {s : State} {w : Word} :
    illegalCause s w ↔ (∃ e, classify w = .error e) ∨ ∃ i, decode w = .ok i ∧ valueRefused i s := by
  rw [illegalCause, badWord_iff_classify_isError]
  refine or_congr_right ⟨?_, ?_⟩
  · rintro (⟨sel, n, hd, hgt⟩ | ⟨n, hd, hgt⟩ | ⟨size, hd, hgt⟩ | ⟨hd, hgen⟩)
    · exact ⟨_, hd, hgt⟩
    · exact ⟨_, hd, hgt⟩
    · exact ⟨_, hd, hgt⟩
    · exact ⟨_, hd, hgen⟩
  · rintro ⟨i, hd, hi⟩
    cases i with
    | cksum sel n => exact .inl ⟨sel, n, hd, hi⟩
    | decode n => exact .inr (.inl ⟨n, hd, hi⟩)
    | encode size => exact .inr (.inr (.inl ⟨size, hd, hi⟩))
    | rxack => exact .inr (.inr (.inr ⟨hd, hi⟩))
    | _ => exact hi.elim

theorem startCommand_of_illegalCause {s : State} {w : Word} (h : illegalCause s w) :
    startCommand s w = .next (s.complete .illegal) := by
  rcases illegalCause_iff.mp h with hword | ⟨i, hd, hi⟩
  · rcases decode_of_classify_isError hword with ⟨e, hd⟩ | ⟨i, hd, hi⟩
    · exact startCommand_of_error hd
    · exact (startCommand_decoded hd).trans (exec_of_not_wellFormed hi _)
  · exact (startCommand_decoded hd).trans (exec_of_valueRefused (by exact hi))

/-- Settles O4: a listed cause is refused where the word begins, and what is refused there has a listed cause. -/
theorem illegalExactlyForListedCauses : Obligations.IllegalExactlyForListedCauses := by
  refine ⟨fun s w rest h hin hw hcause => ?_, fun s t w h hmove hw ht hb he => ?_⟩
  · obtain ⟨-, hrx, hidle⟩ := h.captured hw
    rw [step_captured hin hw, startCommand_of_illegalCause (by exact hcause)]
    exact congrArg Host.Outcome.next (complete_of_idle (s := { s with inputs := rest }) hidle hrx .illegal)
  · rw [illegalCause_iff]
    cases hd : decode w with
    | error e => exact .inl ⟨e, by simp only [classify, hd]⟩
    | ok i =>
      have hbegins : begins s i := ⟨hmove, w, hw, hd⟩
      obtain ⟨is, drawn, hstep⟩ := step_of_begins hbegins
      rcases refused_of_exec_illegal (begins_starting h hbegins is drawn) (hstep.symm.trans ht) hb he with hi | hi
      · exact .inl (classify_isError_of_not_wellFormed hd hi)
      · exact .inr ⟨i, rfl, hi⟩

end Sys2Proof.Machine
end

section
/-! The model faults (60_exceptions.md R285). O45. -/

namespace Sys2Proof.Machine

/-! ### The coming moves as a field of the state -/

/-- The accounting step does not read the coming moves. -/
theorem account_withInputs (s : State) (is : List Input) (r : Rx) (t0 t1 : Word) :
    State.account { s with inputs := is } r t0 t1 = { s.account r t0 t1 with inputs := is } := by
  rcases account_cases s r t0 t1 with ⟨hlate, he⟩ | ⟨hin, he⟩ <;> rw [he]
  · exact account_timeout r hlate
  · exact account_within r hin

theorem seekBytes_withInputs (s : State) (is : List Input) (r : Rx) (t0 t1 : Word) (bs : List Byte) :
    State.seekBytes { s with inputs := is } r t0 t1 bs = { s.seekBytes r t0 t1 bs with inputs := is } := by
  simp only [State.seekBytes]
  split
  · split <;> rfl
  · exact account_withInputs s is r t0 t1

theorem bodyGoOn_withInputs (s : State) (is : List Input) (r : Rx) (t0 t1 : Word) :
    State.bodyGoOn { s with inputs := is } r t0 t1 = { s.bodyGoOn r t0 t1 with inputs := is } := by
  simp only [State.bodyGoOn]
  split
  · rfl
  · exact account_withInputs s is r t0 t1

theorem bodySize_withInputs (s : State) (is : List Input) (r : Rx) (t0 t1 : Word) (size : Half) :
    State.bodySize { s with inputs := is } r t0 t1 size = { s.bodySize r t0 t1 size with inputs := is } := by
  simp only [State.bodySize]
  split
  · rfl
  · exact bodyGoOn_withInputs { s with rxsize := size } is _ t0 t1

theorem bodyBytes_withInputs (s : State) (is : List Input) (r : Rx) (t0 t1 : Word) (bs : List Byte) :
    State.bodyBytes { s with inputs := is } r t0 t1 bs = { s.bodyBytes r t0 t1 bs with inputs := is } := by
  simp only [State.bodyBytes]
  split
  · exact bodySize_withInputs (s.storeBody r bs) is _ t0 t1 _
  · exact bodyGoOn_withInputs (s.storeBody r bs) is _ t0 t1

theorem ackBytes_withInputs (s : State) (is : List Input) (r : Rx) (t0 t1 : Word) (bs : List Byte) :
    State.ackBytes { s with inputs := is } r t0 t1 bs = { s.ackBytes r t0 t1 bs with inputs := is } := by
  simp only [State.ackBytes]
  split
  · exact (ackRecord_withInputs s s.rx is _).symm
  · exact account_withInputs s is _ t0 t1

theorem finishPoll_withInputs (s : State) (is : List Input) (r : Rx) (t0 t1 : Word) (answer : PhyAnswer) :
    State.finishPoll { s with inputs := is } r t0 t1 answer = { s.finishPoll r t0 t1 answer with inputs := is } := by
  cases answer with
  | negative => rfl
  | bytes bs =>
    simp only [State.finishPoll]
    split
    · rfl
    · exact seekBytes_withInputs s is r t0 t1 bs
    · exact bodyBytes_withInputs s is r t0 t1 bs
    · exact ackBytes_withInputs s is r t0 t1 bs

/-- What an accepted move does, it does whatever moves are listed to come. -/
theorem receiveInput_withInputs {s t : State} {r : Rx} {i : Input} (is : List Input)
    (h : s.receiveInput r i = .next t) :
    State.receiveInput { s with inputs := is } r i = .next { t with inputs := is } := by
  unfold State.receiveInput at h ⊢
  split at h
  · cases h; rfl
  · split at h
    next hf => cases h; exact if_pos hf
    next hf => cases h
  · cases h; rfl
  · cases h; exact congrArg Host.Outcome.next (finishPoll_withInputs s is r _ _ _)
  · cases h; rfl

/-- A run is on the moves it is given; those the state lists are not read. -/
theorem runRx_withInputs (is js : List Input) {s t : State} (h : State.runRx is s = .next t) :
    State.runRx is { s with inputs := js } = .next t := by
  induction is generalizing s with
  | nil => exact h
  | cons i is ih =>
    rcases Option.eq_none_or_eq_some s.rx with hrx | ⟨r, hrx⟩
    · rw [runRx_idle _ hrx] at h
      exact (runRx_idle _ (by exact hrx)).trans h
    · cases hi : interrupts i with
      | true =>
        rw [runRx_interrupted _ _ _ hi] at h
        exact (runRx_interrupted _ _ _ hi).trans h
      | false =>
        rw [runRx_cons _ _ hrx hi] at h
        obtain ⟨u, hu, h⟩ := andThen_eq_next.mp h
        rw [runRx_cons (r := r) _ _ (by exact hrx) hi, receiveInput_withInputs js hu, andThen_next]
        exact ih h

/-! ### The faults of a receive command -/

/-- The moves `is` hold an answer of the PHY with more bytes than asked for by the read in progress in the state that
the moves before it lead to (10_state.md R40). -/
def overlongAnswer (is : List Input) (leadsTo : List Input → State → Prop) : Prop :=
  ∃ (pre post : List Input) (bs : List Byte) (u : State) (r : Rx) (t0 : Word),
    is = pre ++ .phy (.bytes bs) :: post ∧ leadsTo pre u ∧
      u.rx = some r ∧ r.stage = .reading t0 ∧ u.request r < bs.length

/-- A run faults only on an answer that breaks the PHY's contract. -/
theorem runRx_fault_overlong {is : List Input} {s : State} {f : Fault} (h : State.runRx is s = .fault f) :
    f = .phyContract ∧ overlongAnswer is (fun pre u => State.runRx pre s = .next u) := by
  induction is generalizing s with
  | nil => cases h
  | cons i is ih =>
    cases hrx : s.rx with
    | none => rw [runRx_idle _ hrx] at h; cases h
    | some r =>
      cases hi : interrupts i with
      | true => rw [runRx_interrupted _ _ _ hi] at h; cases h
      | false =>
        rw [runRx_cons _ _ hrx hi] at h
        cases hmove : s.receiveInput r i with
        | next v =>
          rw [hmove, andThen_next] at h
          obtain ⟨rfl, pre, post, bs, u, q, t0, rfl, hpre, hu⟩ := ih h
          refine ⟨rfl, i :: pre, post, bs, u, q, t0, rfl, ?_, hu⟩
          show State.runRx (i :: pre) s = .next u
          rw [runRx_cons _ _ hrx hi, hmove, andThen_next, hpre]
        | fault g =>
          rw [hmove, andThen_fault] at h
          cases h
          obtain ⟨rfl, t0, bs, rfl, hst, hlong⟩ := receiveInput_fault hmove
          exact ⟨rfl, [], is, bs, _, r, t0, rfl, runRx_nil s, hrx, hst, hlong⟩
        | refused e => exact absurd hmove (receiveInput_not_refused s r i e)

/-! ### The faults of a command that begins -/

/-- A byte or a checksum that a command reads holds no value, where the command is not refused (60_exceptions.md
R285). -/
def readsUnwritten (i : Instr) (s : State) : Prop :=
  match i with
  | .cksum sel n => n.toNat ≤ s.params.bufBytes ∧ s.lacks (selectBuf sel) 0 n.toNat
  | .encode size => size.toNat ≤ maxPayload s.params s.gen ∧ s.lacks .tx 0 (bodyLen s.gen size.toNat)
  | .decode n =>
    n.toNat ≤ s.params.bufBytes ∧ 1 + sizeLen s.gen ≤ n.toNat ∧
      (s.lacks .rx 1 (sizeLen s.gen) ∨
        ∃ field : List Byte, field.length = sizeLen s.gen ∧ s.holds .rx 1 field ∧
          (fieldValue s.gen field).toNat ≤ maxPayload s.params s.gen ∧
          frameLen s.gen (fieldValue s.gen field).toNat ≤ n.toNat ∧
          s.lacks .rx 1 (frameLen s.gen (fieldValue s.gen field).toNat - 1))
  | .rxack => s.gen ≠ .g1 ∧ s.lastck = none
  | _ => False

theorem decodeBody_fault {n size : Half} {s : State} {f : Fault} (h : decodeBody n size s = .fault f) :
    size.toNat ≤ maxPayload s.params s.gen ∧ frameLen s.gen size.toNat ≤ n.toNat ∧
      s.lacks .rx 1 (frameLen s.gen size.toNat - 1) := by
  unfold decodeBody at h
  split at h
  · cases h
  next hsize =>
    split at h
    · cases h
    next hfit =>
      split at h
      next hnone => exact ⟨Nat.not_lt.mp hsize, Nat.not_lt.mp hfit, (bufRange_eq_none ..).mp hnone⟩
      next => cases h

/-- DECODE faults only on a byte of the size field, or of a frame whose size field it has accepted (41_codec.md
R150). -/
theorem execDecode_fault_reads {n : Half} {s : State} {f : Fault} (h : execDecode n s = .fault f) :
    readsUnwritten (.decode n) s := by
  unfold execDecode at h
  split at h
  · cases h
  next hn =>
    split at h
    · cases h
    next hheader =>
      refine ⟨Nat.not_lt.mp hn, Nat.not_lt.mp hheader, ?_⟩
      split at h
      next hnone => exact .inl ((bufRange_eq_none ..).mp hnone)
      next field hfield =>
        obtain ⟨hlen, hholds⟩ := (bufRange_eq_some ..).mp hfield
        exact .inr ⟨field, hlen, hholds, (decodeBody_fault h :)⟩

/-- A receive command's run from where it begins, on other moves. -/
theorem overlongAnswer_of_run {i : Instr} {s u : State} {f : Fault} (h : State.runRx s.inputs u = .fault f)
    (hexec : ∀ pre, exec i { s with inputs := pre } = State.runRx pre { u with inputs := pre }) :
    f = .phyContract ∧ overlongAnswer s.inputs (fun pre v => exec i { s with inputs := pre } = .next v) := by
  obtain ⟨rfl, pre, post, bs, v, r, t0, hin, hpre, hv⟩ := runRx_fault_overlong h
  exact ⟨rfl, pre, post, bs, v, r, t0, hin, (hexec pre).trans (runRx_withInputs pre pre hpre), hv⟩

/-- A command that begins faults only where it reads what holds no value, or where its run comes to an answer that
breaks the PHY's contract (60_exceptions.md R285). -/
theorem exec_fault {i : Instr} {s : State} {f : Fault} (h : exec i s = .fault f) :
    (f = .unwritten ∧ readsUnwritten i s) ∨
    (f = .phyContract ∧ overlongAnswer s.inputs (fun pre v => exec i { s with inputs := pre } = .next v)) := by
  cases i with
  | nop => cases h
  | setgen gen => rcases execSetgen_cases gen s with ⟨g, -, he⟩ | ⟨-, he⟩ <;> cases he.symm.trans h
  | settmo ms => cases h
  | setck en => rcases execSetck_cases en s with ⟨b, he⟩ | he <;> cases he.symm.trans h
  | cksum sel n =>
    rcases execCksum_cases sel n s with ⟨-, he⟩ | ⟨hn, hnone, he⟩ | ⟨bs, -, -, he⟩ <;> cases he.symm.trans h
    exact .inl ⟨rfl, hn, (bufRange_eq_none ..).mp hnone⟩
  | encode size =>
    rcases execEncode_cases size s with ⟨-, he⟩ | ⟨hsize, hnone, he⟩ | ⟨body, -, -, he⟩ <;> cases he.symm.trans h
    exact .inl ⟨rfl, hsize, (bufRange_eq_none ..).mp hnone⟩
  | decode n => exact .inl ⟨execDecode_fault h, execDecode_fault_reads h⟩
  | seek => exact .inr (overlongAnswer_of_run (u := s.beginSeek false) h fun _ => rfl)
  | rdbody => exact .inr (overlongAnswer_of_run (u := s.beginBody) h fun _ => rfl)
  | recv => exact .inr (overlongAnswer_of_run (u := s.beginSeek true) h fun _ => rfl)
  | rxack =>
    rcases execRxack_cases s with ⟨-, he⟩ | ⟨hgen, hck, he⟩ | ⟨hgen, hck, he⟩
    · cases he.symm.trans h
    · cases he.symm.trans h
      exact .inl ⟨rfl, hgen, hck⟩
    · refine .inr (overlongAnswer_of_run (u := s.beginAck) (he.symm.trans h) fun pre => ?_)
      rcases execRxack_cases { s with inputs := pre } with ⟨hg1, -⟩ | ⟨-, hnone, -⟩ | ⟨-, -, he'⟩
      · exact absurd hg1 hgen
      · rw [show s.lastck = none from hnone] at hck; cases hck
      · exact he'

/-! ### The faults of a host access -/

/-- A host access faults where R64 does not allow it, or where it is a store to a buffer while BUSY (20_memory.md R64,
R74). -/
theorem hostAccess_fault {s : State} {a : Access} {f : Fault} (h : hostAccess s a = .fault f) :
    (f = .hostAccess ∧
      ((∃ width addr, a = .load width addr ∧ accessAllowed width addr = false) ∨
        ∃ width addr v, a = .store width addr v ∧ accessAllowed width addr = false)) ∨
    (f = .hostRace ∧ s.busy = true ∧
      ∃ width addr v, a = .store width addr v ∧ touchesBuffer s.params width addr.toNat = true) := by
  cases a with
  | load width addr =>
    simp only [hostAccess] at h
    split at h
    · split at h <;> cases h
    next hno => cases h; exact .inl ⟨rfl, .inl ⟨width, addr, rfl, Bool.eq_false_iff.mpr hno⟩⟩
  | store width addr v =>
    simp only [hostAccess] at h
    split at h
    · split at h
      · cases h
      · split at h
        · cases h
        · unfold storeBuffer at h
          split at h
          next hrace =>
            cases h
            obtain ⟨hbusy, htouches⟩ := Bool.and_eq_true_iff.mp hrace
            exact .inr ⟨rfl, hbusy, width, addr, v, rfl, htouches⟩
          next => cases h
    next hno => cases h; exact .inl ⟨rfl, .inr ⟨width, addr, v, rfl, Bool.eq_false_iff.mpr hno⟩⟩

/-! ### The faults of a step -/

/-- What a step that faults does: the host makes its access; a command begins; or the receive command in progress
runs. `drawn` counts the draws, one more only where no move was listed. -/
inductive StepFault (s : State) (f : Fault) : Prop
  | host (a : Access) (is : List Input) (drawn : Nat) (hmove : nextMove s = .host a)
      (hf : hostAccess { s with inputs := is, drawn := drawn } a = .fault f)
  | begins (i : Instr) (drawn : Nat) (hbegins : begins s i) (hdrawn : s.inputs ≠ [] → drawn = s.drawn)
      (hf : exec i { s with cmd := none, inputs := s.inputs.tail, drawn := drawn } = .fault f)
  | runs (r : Rx) (drawn : Nat) (hmove : interrupts (nextMove s) = false) (hrx : s.rx = some r)
      (hdrawn : s.inputs ≠ [] → drawn = s.drawn)
      (hf : State.runRx (nextMove s :: s.inputs.tail) { s with drawn := drawn } = .fault f)

/-- A step is the reaction to its move with the listed moves after it. -/
theorem step_eq_react_tail (s : State) :
    ∃ drawn, (s.inputs ≠ [] → drawn = s.drawn) ∧
      step s = react { s with drawn := drawn } (nextMove s) s.inputs.tail := by
  rcases step_eq_react s with ⟨rest, hin, he⟩ | ⟨hin, he⟩
  · exact ⟨s.drawn, fun _ => rfl, by rw [congrArg List.tail hin]; exact he⟩
  · exact ⟨s.drawn + 1, fun hne => absurd hin hne, by rw [congrArg List.tail hin]; exact he⟩

theorem portOffer_stepFault {s : State} {drawn : Nat} {f : Fault} (hmove : interrupts (nextMove s) = false)
    (hdrawn : s.inputs ≠ [] → drawn = s.drawn)
    (h : portOffer { s with drawn := drawn } (nextMove s) s.inputs.tail = .fault f) : StepFault s f := by
  rcases portOffer_cases { s with drawn := drawn } (nextMove s) s.inputs.tail with ⟨-, he⟩ | ⟨r, hr, he⟩ <;>
    rw [he] at h
  · cases h
  · exact .runs r drawn hmove hr hdrawn h

theorem step_stepFault {s : State} {f : Fault} (h : step s = .fault f) : StepFault s f := by
  obtain ⟨drawn, hdrawn, he⟩ := step_eq_react_tail s
  rw [he] at h
  have hoffer : interrupts (nextMove s) = false →
      portOffer { s with drawn := drawn } (nextMove s) s.inputs.tail = .fault f → StepFault s f :=
    fun hmove => portOffer_stepFault hmove hdrawn
  cases hmove : nextMove s with
  | reset => rw [hmove] at h; cases h
  | host a => rw [hmove] at h; exact .host a _ drawn hmove h
  | clock sample => rw [hmove] at h hoffer; exact hoffer rfl h
  | phy answer => rw [hmove] at h hoffer; exact hoffer rfl h
  | fcb =>
    rw [hmove] at h hoffer
    rcases fcbTurn_cases { s with drawn := drawn } s.inputs.tail with
      ⟨-, hf⟩ | ⟨w, e, -, -, hf⟩ | ⟨w, i, hw, hd, hf⟩ <;> simp only [react, hf] at h
    · exact hoffer rfl h
    · cases h
    · exact .begins i drawn ⟨hmove, w, hw, hd⟩ hdrawn h

/-- The state in which the moves `pre` leave a step of `s` (`s` itself if there are none). -/
def standsAfter (s : State) (pre : List Input) (u : State) : Prop :=
  (pre = [] ∧ u = s) ∨ (pre ≠ [] ∧ step { s with inputs := pre } = .next u)

/-- An over-long answer in the run of a command that begins is one in the step. -/
theorem overlongAnswer_of_begins {s : State} {i : Instr} {drawn : Nat} (hb : begins s i)
    (hdrawn : s.inputs ≠ [] → drawn = s.drawn)
    (h : overlongAnswer s.inputs.tail fun pre v =>
      exec i { s with cmd := none, inputs := pre, drawn := drawn } = .next v) :
    overlongAnswer (nextMove s :: s.inputs.tail) (standsAfter s) := by
  obtain ⟨pre, post, bs, v, r, t0, htail, hpre, hv⟩ := h
  have hne : s.inputs ≠ [] := fun hnil => by simp [hnil] at htail
  rw [hdrawn hne] at hpre
  obtain ⟨hmove, w, hw, hd⟩ := hb
  refine ⟨nextMove s :: pre, post, bs, v, r, t0, by rw [htail]; rfl, .inr ⟨nofun, ?_⟩, hv⟩
  rw [hmove, step_captured (s := { s with inputs := .fcb :: pre }) rfl hw, startCommand_decoded hd]
  exact hpre

/-- An over-long answer in the run of the receive command in progress is one in the step. -/
theorem overlongAnswer_of_runs {s : State} {r : Rx} {drawn : Nat} (hmove : interrupts (nextMove s) = false)
    (hr : s.rx = some r) (hc : s.cmd = none) (hdrawn : s.inputs ≠ [] → drawn = s.drawn)
    (h : overlongAnswer (nextMove s :: s.inputs.tail) fun pre v =>
      State.runRx pre { s with drawn := drawn } = .next v) :
    overlongAnswer (nextMove s :: s.inputs.tail) (standsAfter s) := by
  obtain ⟨pre, post, bs, v, q, t0, hin, hpre, hv⟩ := h
  cases pre with
  | nil => cases hpre; exact ⟨[], post, bs, s, q, t0, hin, .inl ⟨rfl, rfl⟩, hv⟩
  | cons i pre =>
    refine ⟨i :: pre, post, bs, v, q, t0, hin, .inr ⟨nofun, ?_⟩, hv⟩
    obtain ⟨rfl, htail⟩ := List.cons.inj hin
    have hne : s.inputs ≠ [] := fun hnil => by simp [hnil] at htail
    rw [hdrawn hne] at hpre
    rw [step_port (s := { s with inputs := nextMove s :: pre }) rfl (by simp [hr]) hc hmove]
    exact runRx_withInputs _ _ hpre

/-- Settles O45: a step that faults is an access, a command that begins or a run, and each faults only for its listed
causes. -/
theorem faultsOnlyForListedCauses : Obligations.FaultsOnlyForListedCauses := by
  intro s f h hf
  cases step_stepFault hf with
  | host a is drawn hmove hf =>
    rcases hostAccess_fault hf with ⟨rfl, hcause⟩ | ⟨rfl, hbusy, width, addr, v, rfl, htouches⟩
    · rcases hcause with ⟨width, addr, rfl, hno⟩ | ⟨width, addr, v, rfl, hno⟩
      · exact .inl ⟨width, addr, hmove, hno⟩
      · exact .inr ⟨width, addr, v, hmove, hno⟩
    · exact ⟨hbusy, width, addr, v, hmove, htouches⟩
  | begins i drawn hb hdrawn hf =>
    rcases exec_fault hf with ⟨rfl, hreads⟩ | ⟨rfl, hlong⟩
    · cases i with
      | cksum sel n => exact .inl ⟨sel, n, hb, hreads⟩
      | encode size => exact .inr (.inl ⟨size, hb, hreads⟩)
      | decode n => exact .inr (.inr (.inl ⟨n, hb, hreads⟩))
      | rxack => exact .inr (.inr (.inr ⟨hb, hreads⟩))
      | _ => exact hreads.elim
    · exact overlongAnswer_of_begins hb hdrawn hlong
  | runs r drawn hmove hr hdrawn hf =>
    obtain ⟨rfl, hlong⟩ := runRx_fault_overlong hf
    exact overlongAnswer_of_runs hmove hr (h.inPhase hr).2.1 hdrawn hlong

end Sys2Proof.Machine
end

section
/-! Hardware reset (70_reset_and_hazards.md) and the access rule of the host space (20_memory.md R64). -/

namespace Sys2Proof.Machine

/-! ### Hardware reset -/

/-- Settles O41: the reset state is a hardware reset of itself but for the epoch of free host reads, which the invariant
does not read. -/
theorem resetMeetsInv : Obligations.ResetMeetsInv :=
  { hardReset_inv (s := State.reset) params_valid with }

/-- After reset no buffer byte holds a value (70_reset_and_hazards.md R301). -/
@[simp] theorem read_reset_mem (a : Nat) : Memory.read State.reset.mem a = none := rfl

/-- A TIMEOUT of 0 selects the default (10_state.md R24). -/
theorem tmoEff_of_timeout_zero {s : State} (h : s.timeout = 0) : tmoEff s = s.params.defaultTimeoutMs := by
  simp only [tmoEff, h, if_true]

/-- Settles O57: the reset state is the table of R300, and its TIMEOUT of 0 selects the default. -/
theorem resetRegisters : Obligations.ResetRegisters :=
  ⟨rfl, rfl, rfl, rfl, rfl, rfl, rfl, rfl, rfl, rfl, rfl, rfl, rfl, rfl, rfl, rfl, rfl, read_reset_mem,
    tmoEff_of_timeout_zero rfl⟩

/-- A listed hardware reset takes effect whatever runs (70_reset_and_hazards.md R302). -/
theorem step_reset {s : State} {rest : List Input} (h : s.inputs = .reset :: rest) :
    step s = .next { s with inputs := rest }.hardReset := by
  simp only [step, h, react]

/-- An answer of the PHY is not seen while no receive command is in progress. -/
theorem step_phy_unseen {s : State} {answer : PhyAnswer} {rest : List Input} (hr : s.rx = none)
    (hin : s.inputs = .phy answer :: rest) : step s = .next { s with inputs := rest } := by
  simp only [step, hin, react, portOffer, hr]

/-- Settles O56: the step is `hardReset`, whose registers are the reset state's; it leaves no receive command to see an
answer, and no LASTCK for an RXACK (O35). -/
theorem hardwareReset : Obligations.HardwareReset := by
  intro s rest hin
  obtain ⟨herr, hbusy, hmsgend, hnak, hgen, htimeout, hcken, hcksum, hlastck, hfrlen, hrxlen, hrxsize, hrxck,
    hackcode, hackck, helapsed, hphase, hmem, -⟩ := resetRegisters
  exact ⟨_, step_reset hin, herr, hbusy, hmsgend, hnak, hgen, htimeout, hcken, hcksum, hlastck, hfrlen, hrxlen,
    hrxsize, hrxck, hackcode, hackck, helapsed, hphase, rfl, rfl, hmem, rfl, rfl, rfl,
    fun answer more => step_phy_unseen rfl rfl, fun g hg => rxackNeedsLastck _ hg rfl⟩

/-! ### The access rule -/

/-- The model's access rule is R64's, with divisibility for alignment. -/
theorem accessAllowed_iff {width : Nat} {addr : BitVec 16} :
    accessAllowed width addr = true ↔
      (addr.toNat < 0x40 ∧ width = 4 ∧ 4 ∣ addr.toNat) ∨
      (0x40 ≤ addr.toNat ∧ width ∈ [1, 2, 4] ∧ width ∣ addr.toNat) := by
  unfold accessAllowed
  split
  next hlow => simp [hlow, Nat.dvd_iff_mod_eq_zero]
  next hhigh => simp [hhigh, Nat.le_of_not_lt hhigh, Nat.dvd_iff_mod_eq_zero]

/-- A listed host access is made with the moves after it left. -/
theorem step_host (s : State) (a : Access) (rest : List Input) :
    step { s with inputs := .host a :: rest } = hostAccess { s with inputs := rest } a := rfl

theorem hostAccess_load_forbidden (s : State) {width : Nat} {addr : BitVec 16}
    (h : accessAllowed width addr = false) : hostAccess s (.load width addr) = .fault .hostAccess := by
  simp [hostAccess, h]

theorem hostAccess_store_forbidden (s : State) {width : Nat} {addr : BitVec 16} (v : Word)
    (h : accessAllowed width addr = false) : hostAccess s (.store width addr v) = .fault .hostAccess := by
  simp [hostAccess, h]

/-- An allowed load goes through, idle or not. -/
theorem hostAccess_load_next (s : State) {width : Nat} {addr : BitVec 16} (h : accessAllowed width addr = true) :
    ∃ t, hostAccess s (.load width addr) = .next t := by
  by_cases hlow : addr.toNat < 0x40
  · exact ⟨loadRegister s addr.toNat, by simp only [hostAccess, h, hlow, if_true]⟩
  · exact ⟨_, hostAccess_load_above s h hlow⟩

/-- An allowed store goes through while idle: to CMD, to another register, or above the registers. -/
theorem hostAccess_store_next {s : State} {width : Nat} {addr : BitVec 16} (v : Word) (hb : s.busy = false)
    (h : accessAllowed width addr = true) : ∃ t, hostAccess s (.store width addr v) = .next t := by
  by_cases hlow : addr.toNat < 0x40
  · by_cases hcmd : addr.toNat = 0
    · exact ⟨storeCmd s v, by simp only [hostAccess, h, hcmd, if_true]⟩
    · exact ⟨s, hostAccess_store_readOnly s v h (Nat.pos_of_ne_zero hcmd) hlow⟩
  · exact ⟨_, (hostAccess_store_above s v h hlow).trans (storeBuffer_idle hb width addr.toNat v)⟩

/-- Settles O47: R64's rule is the model's (`accessAllowed_iff`), and each access stops or goes through by it. -/
theorem accessRule : Obligations.AccessRule := by
  intro s width addr v rest
  refine ⟨fun hno => ?_, fun hyes => ?_⟩
  · have hforbidden := Bool.eq_false_iff.mpr (mt accessAllowed_iff.mp hno)
    exact ⟨hostAccess_load_forbidden _ hforbidden, hostAccess_store_forbidden _ v hforbidden⟩
  · have hallowed := accessAllowed_iff.mpr hyes
    exact ⟨hostAccess_load_next _ hallowed, fun hb => hostAccess_store_next v (by exact hb) hallowed⟩

end Sys2Proof.Machine
end
